-- ==== Sys2Proof/Word.lean ====
section
/-! DEFINITION. The word types of the block: packet words, the 16-bit operand fields and bytes (spec/00_scope.md R9, R11). -/

namespace Sys2Proof

/-- A packet word, a host register, a source address: 32 bits (R9, R21, R52, R70). -/
abbrev Word := BitVec 32

/-- A 16-bit operand field: a coordinate before sign extension, an extent, a colour, a glyph count (R9). -/
abbrev Half := BitVec 16

/-- A byte: an output byte, a source-memory byte, a character, a font dimension (R8, R9). -/
abbrev Byte := BitVec 8

end Sys2Proof
end

