-- ==== Sys2Proof/Config.lean ====
section
/-! DEFINITION. The build-time parameters of the block (spec/00_scope.md R7, spec/70_reset_and_hazards.md R282) and
the free values that the spec leaves open. -/

namespace Sys2Proof

/-- A run of source addresses, both ends included. -/
structure AddrRange where
  lo : Word
  hi : Word
  deriving DecidableEq, Repr

/-- The parameters of R7. A model takes each one as an argument: here a field of the state, which no step changes
(log 1). SRC_MAP, any set of 32-bit addresses, is a list of runs. -/
structure Config where
  xMax     : Nat
  yMax     : Nat
  depth    : Nat
  base     : Nat
  srcMap   : List AddrRange
  opcCaset : Byte
  opcRaset : Byte
  opcRamwr : Byte
  deriving DecidableEq, Repr

/-- The reference configuration of R7: 240 by 320 and the spec's reference command bytes. The spec leaves CMDQ_DEPTH,
BLOCK_BASE and SRC_MAP open; DESIGN CHOICE (log 1, unsafe): the least legal depth, base 0, every address readable. -/
def Config.reference : Config where
  xMax := 240
  yMax := 320
  depth := 6
  base := 0
  srcMap := [⟨0x00000000, 0xFFFFFFFF⟩]
  opcCaset := 0x2A
  opcRaset := 0x2B
  opcRamwr := 0x2C

/-- The byte a read returns that races a host write: unconstrained (R64(b); log 6, safe). The argument is the number
of free values drawn before. -/
opaque freeByte : Nat → Byte

/-- A choice the spec leaves open: what becomes of a CMD write that waits when the FIFO is emptied by a hard reset
(log 8) or by an illegal opcode (log 9). Safe. -/
opaque freeBit : Nat → Bool

end Sys2Proof
end

