-- ==== Sys2Proof/Syntax.lean ====
section
/-! DEFINITION. The nine commands of spec/opcode_table.json with their operand fields at the widths of
spec/30_encoding.md R73-R79, and the assembler's lines before range checking (R85). -/

namespace Sys2Proof

/-- The part of a font descriptor that glyph lookup uses: FONT_BASE, FIRST, COUNT, GH and GBW (R8, R200).
It travels in each DRAW_TEXT and LOOKUP_GLYPH packet. -/
structure GlyphTable where
  base  : Word
  first : Byte
  count : Half
  gh    : Byte
  gbw   : Byte
  deriving DecidableEq, Repr

/-- The operands of DRAW_TEXT (R78). -/
structure TextArgs where
  table : GlyphTable
  fw    : Byte
  fg    : Half
  bg    : Half
  x     : Half
  y     : Half
  text  : Word
  deriving DecidableEq, Repr

/-- One constructor per row of the opcode table. The fields are the raw bits of the packet (R81); bits marked
"ignored" have no field (R82). -/
inductive Instr where
  | nop
  | fill        (color : Half)
  | drawPixel   (x y color : Half)
  | drawHLine   (x y w color : Half)
  | drawVLine   (x y h color : Half)
  | drawLine    (x0 y0 x1 y1 color : Half)
  | drawRect    (x y w h color : Half)
  | drawText    (a : TextArgs)
  | lookupGlyph (ch : Byte) (t : GlyphTable)
  deriving DecidableEq, Repr

/-- The font operand of an assembler line, `font(base, first, count, gh, gbw)` (R85). -/
structure AsmFont where
  base  : Int
  first : Int
  count : Int
  gh    : Int
  gbw   : Int
  deriving DecidableEq, Repr

/-- A line of the assembler with its operands as numbers, before any range is checked (R85). -/
inductive AsmLine where
  | nop
  | fill        (color : Int)
  | drawPixel   (x y color : Int)
  | drawHLine   (x y w color : Int)
  | drawVLine   (x y h color : Int)
  | drawLine    (x0 y0 x1 y1 color : Int)
  | drawRect    (x y w h color : Int)
  | drawText    (text x y fg bg : Int) (font : AsmFont) (fw : Int)
  | lookupGlyph (ch : Int) (font : AsmFont)
  deriving DecidableEq, Repr

end Sys2Proof
end

