-- ==== Sys2Proof/Machine/State.lean ====
section
/-! DEFINITION. The state of the block as plain data: every part spec/10_state.md R20 lists, the source memory it
reads, the parameters it is built with, and what the environment does next. -/

namespace Sys2Proof.Machine

/-! ### The output port -/

/-- One element of the output stream (40_protocol.md R100). -/
inductive Token where
  | sel
  | desel
  | cmd (b : Byte)
  | dat (b : Byte)
  deriving DecidableEq, Repr

/-- The level of the select line `cs` (R34). -/
inductive SelectLine where
  | inactive
  | active
  deriving DecidableEq, Repr

/-- The level of the data/command line `dc` (R34). -/
inductive DataLine where
  | command
  | data
  deriving DecidableEq, Repr

/-! ### Working state of the executing command (R37) -/

/-- The four arguments of `set_window` (41_window.md R131): integers and non-negative integers. -/
structure Window where
  x : Int
  y : Int
  w : Nat
  h : Nat
  deriving DecidableEq, Repr

/-- How far a transaction has come (R136): which primitive is next. -/
inductive TxPos where
  /-- `select()` is next. -/
  | select
  /-- The `k`-th of the eleven tokens of `set_window` is next, counting from 0 (R131). -/
  | window (k : Nat)
  /-- The high byte of a colour is next, `n` pixels remaining with this one (R134). -/
  | colorHi (n : Nat)
  /-- The low byte of a colour is next, `n` pixels remaining with this one (R134). -/
  | colorLo (n : Nat)
  /-- `deselect()` is next. -/
  | deselect
  deriving DecidableEq, Repr

/-- A transaction under way: its window, its colour, how far it has come. -/
structure Tx where
  win   : Window
  color : Half
  pos   : TxPos
  deriving DecidableEq, Repr

/-- The variables of the diagonal stepper (42_raster.md R166). `p` is the primary coordinate of the next point and
`last` that of the last one. -/
structure Stepper where
  steep : Bool
  p     : Int
  last  : Int
  y     : Int
  err   : Int
  dx    : Int
  dy    : Int
  ystep : Int
  deriving DecidableEq, Repr

/-- Where DRAW_TEXT stands (43_glyph.md R207): `p` is the text pointer, `cx` the cursor, `ref` the glyph-row address,
`b` the row byte. -/
inductive TextPoint where
  /-- Before the check of FW. -/
  | start
  /-- At the head of the loop: the text byte at `p` is read next. -/
  | char (p cx : Word)
  /-- In a found character: display row `row` is next, or the character's end if all rows are done. -/
  | row (p cx ref : Word) (row : Nat)
  /-- In a display row: column `col` is next, or the row's end if all columns are done. -/
  | col (p cx ref : Word) (row : Nat) (b : Byte) (col : Nat)
  deriving DecidableEq, Repr

/-- What the command does when no transaction is under way. -/
inductive Task where
  /-- Nothing is left: the command completes. -/
  | finish
  /-- The next point of a diagonal line. -/
  | diagonal (st : Stepper)
  /-- The next point of a text draw. -/
  | text (pt : TextPoint)
  deriving DecidableEq, Repr

/-- The working state (R37): the transaction under way, if any, and what follows it. -/
structure Work where
  tx   : Option Tx
  task : Task
  deriving DecidableEq, Repr

/-- The sequencer state `seq` (R31). `Exec(op)` holds the working state; `op` is in the operand latch. -/
inductive Seq where
  | idle
  | exec (w : Work)
  | halted
  deriving DecidableEq, Repr

/-! ### Result registers and the environment -/

/-- The lookup result (R35). -/
structure LookupResult where
  found : Bool
  addr  : Word
  deriving DecidableEq, Repr

/-- The width of a host access (20_memory.md R57). -/
inductive AccessWidth where
  | byte
  | half
  | word
  deriving DecidableEq, Repr

/-- One access of the host to its own address space. A narrow write carries its data in the low bits of `value`. -/
inductive HostAccess where
  | read  (addr : Nat) (width : AccessWidth)
  | write (addr : Nat) (width : AccessWidth) (value : Word)
  deriving DecidableEq, Repr

/-- One turn of the environment's plan (log 4). -/
inductive Turn where
  /-- The host accesses the register window (R21-R28). -/
  | host (a : HostAccess)
  /-- A host write to source memory becomes visible on the read port (R64). -/
  | srcWrite (addr : Word) (b : Byte)
  /-- The reset input is asserted and released (R270). -/
  | hardReset
  /-- The block moves. `ready`: the transport accepts a byte and the platform answers a read during this turn; if
  not, a byte token or a read waits (R54, R107). -/
  | block (ready : Bool)
  deriving DecidableEq, Repr

/-- A source byte the host wrote while commands were queued or running, and how many FIFO words stood before it: the
commands made of those words race the write (R64(b), log 6). -/
structure RaceMark where
  addr  : Word
  words : Nat
  deriving DecidableEq, Repr

/-! ### The state -/

/-- The state (R20). The fields from `waiting` on are the model's own (log 4, log 6, log 7, log 11, log 12). -/
structure State where
  /-- The build-time parameters (R7, R282); no step changes them. -/
  cfg       : Config
  /-- The command FIFO, head first (R29). -/
  fifo      : List Word
  /-- The operand latch `A` (R30); means something only while executing. -/
  latch     : Instr
  /-- The sequencer (R31). -/
  seq       : Seq
  /-- The fault code (R31), meaningful only when Halted. -/
  faultCode : BitVec 4
  /-- The lookup result (R35). -/
  lookup    : LookupResult
  /-- RESULT_X (R26). -/
  resultX   : Word
  /-- The select line (R34). -/
  cs        : SelectLine
  /-- The data/command line (R34). -/
  dc        : DataLine
  /-- Every token emitted, oldest first (R34, R100). -/
  out       : List Token
  /-- Source memory (R52) in the canonical form of Machine/Memory.lean. -/
  mem       : List Host.Cell
  /-- The word of a CMD write that waits for room (R22). -/
  waiting   : Option Word
  /-- What the last host read returned. -/
  readData  : Word
  /-- What the environment does next. -/
  plan      : List Turn
  /-- Source bytes whose reads race a host write (R64(b)). -/
  raced     : List RaceMark
  /-- How many free values have been drawn. -/
  draws     : Nat
  /-- How many tokens had been emitted when the last reset took effect. -/
  outBase   : Nat
  deriving DecidableEq, Repr

/-- Right after reset (R40, R270), built with the parameters `c`. The spec gives no value for the latch (DESIGN
CHOICE NOP, log 2), and source memory lists nothing (log 3). -/
def State.resetOf (c : Config) : State where
  cfg := c
  fifo := []
  latch := .nop
  seq := .idle
  faultCode := 0
  lookup := ⟨false, 0⟩
  resultX := 0
  cs := .inactive
  dc := .data
  out := []
  mem := []
  waiting := none
  readData := 0
  plan := []
  raced := []
  draws := 0
  outBase := 0

/-- Right after reset, in the reference configuration (R7, log 1). -/
def State.reset : State := State.resetOf Config.reference

/-! ### How a step can stop -/

/-- No step of this machine ends in a fault: the block's three faults (60_exceptions.md R243) are states, entered by
a NEXT state (`raiseFault`), and a block that waits for ever stays in the state it waits in (log 13). -/
inductive Fault
  deriving DecidableEq, Repr

/-- Why a step has no meaning. -/
inductive Refusal where
  /-- An instruction that has no meaning in this model yet, by its table name; raised by `exec` alone. Safe. -/
  | notModelled (mnemonic : String)
  /-- A byte, halfword or misaligned host access to the register window, whose effect R57 leaves to the platform ("A
  model refuses such an access"); raised by `hostAccess`. Safe. -/
  | narrowOrMisaligned
  /-- A host access outside the register window, which does not reach the block (R51); raised by `hostAccess`. Safe. -/
  | outsideWindow
  deriving DecidableEq, Repr

end Sys2Proof.Machine
end

