-- ==== Sys2Proof/Machine/Operands.lean ====
section
/-! DEFINITION. Operand conversions (spec/00_scope.md R12, spec/30_encoding.md R81): how a raw field of the packet
becomes the integer or the address a rule computes with. -/

namespace Sys2Proof.Machine

/-- `sext_16(v)`: coordinates X, Y, X0, Y0, X1, Y1 (R12, R81). -/
abbrev sext16 (v : Half) : Int := v.toInt

/-- `zext_16(v)`: extents W, H and COUNT (R12, R81). -/
abbrev zext16 (v : Half) : Nat := v.toNat

/-- `zext_8(v)`: CHAR, FIRST, FW, GH, GBW (R12, R81). -/
abbrev zext8 (v : Byte) : Nat := v.toNat

/-- `enc16(n) = n mod 2^16` as a 16-bit value (R12). -/
def enc16 (n : Int) : Half := BitVec.ofInt 16 n

/-- `hi8(v) = v[15:8]` (R12). -/
def hi8 (v : Half) : Byte := v.extractLsb' 8 8

/-- `lo8(v) = v[7:0]` (R12). -/
def lo8 (v : Half) : Byte := v.extractLsb' 0 8

/-- The cursor register when it takes an integer: `s32(n)` as 32 bits (R12, R214). -/
def cursorOf (n : Int) : Word := BitVec.ofInt 32 n

/-- The integer in the cursor register (R214). -/
abbrev cursorVal (cx : Word) : Int := cx.toInt

/-- `s32(cx + FW)`: the cursor after a found character, wrapping modulo 2^32 (R214). -/
def advanceCursor (cx : Word) (fw : Byte) : Word := cursorOf (cursorVal cx + zext8 fw)

/-- A source address modulo 2^32 (R53). -/
def srcAddr (n : Int) : Word := BitVec.ofInt 32 n

end Sys2Proof.Machine
end

