-- ==== Sys2Proof/Machine/Memory.lean ====
section
/-! DEFINITION. Source memory (spec/20_memory.md R52-R54, R64): a list of listed bytes in one canonical form, and
`MemRead`, the only access the block makes. -/

namespace Sys2Proof.Machine

namespace Memory

/-- What an address with no entry reads as. The spec gives no contents; DESIGN CHOICE (log 3, unsafe). -/
def unlisted : Byte := 0x00

/-- The byte at `a`. -/
def read : List Host.Cell → Nat → Byte
  | [], _ => unlisted
  | (k, b) :: m, a => if k = a then b else read m a

/-- The memory with `b` at `a`, in canonical form. -/
def write : List Host.Cell → Nat → Byte → List Host.Cell
  | [], a, b => if b = unlisted then [] else [(a, b)]
  | (k, v) :: m, a, b =>
    if a < k then (if b = unlisted then (k, v) :: m else (a, b) :: (k, v) :: m)
    else if a = k then (if b = unlisted then m else (a, b) :: m)
    else (k, v) :: write m a b

/-- Canonical from address `lo` on: addresses strictly rising and below 2^32, no entry that an unlisted address would
read as. -/
def wfFrom : Nat → List Host.Cell → Bool
  | _, [] => true
  | lo, (k, b) :: m => decide (lo ≤ k) && decide (k < 2 ^ 32) && b != unlisted && wfFrom (k + 1) m

/-- The canonical form. -/
def wf (m : List Host.Cell) : Bool := wfFrom 0 m

end Memory

/-- `addr in SRC_MAP` (R54). -/
def srcReadable (c : Config) (a : Word) : Bool := c.srcMap.any fun r => r.lo ≤ a && a ≤ r.hi

/-- What a `MemRead` gives: a byte and the state after the read, or the platform's error. -/
inductive ReadResult where
  | byte (b : Byte) (s : State)
  | fail

/-- A read of `a` by the running command races a host write (R64(b)). -/
def racing (s : State) (a : Word) : Bool := s.raced.any (·.addr == a)

/-- `MemRead(addr, 1)` (R54): outside SRC_MAP it fails; a byte that a host write races is a free value (R64(b), log
6); any other byte is the one in memory, read anew each time (R69). -/
def memRead (a : Word) (s : State) : ReadResult :=
  if srcReadable s.cfg a then
    if racing s a then .byte (freeByte s.draws) { s with draws := s.draws + 1 }
    else .byte (Memory.read s.mem a.toNat) s
  else .fail

end Sys2Proof.Machine
end

