-- ==== Sys2Proof/Machine/Ops.lean ====
section
/-! DEFINITION. The named operations the rules are written with (spec/00_scope.md R13): the output primitives of
spec/40_protocol.md R101-R105, the trap action of spec/60_exceptions.md R244 and the return from it, reset
(spec/70_reset_and_hazards.md R270-R272), and the end of a command (spec/10_state.md R31). -/

namespace Sys2Proof.Machine

/-! ### Output primitives -/

/-- `emit(tok)` appends to the stream; the only way a token enters it (R101). -/
def emit (tok : Token) (s : State) : State := { s with out := s.out ++ [tok] }

/-- `select()` (R102). -/
def select (s : State) : State := emit .sel { s with cs := .active }

/-- `deselect()` (R103). -/
def deselect (s : State) : State := { emit .desel s with cs := .inactive }

/-- `send_command(code)` (R104). -/
def sendCommand (b : Byte) (s : State) : State := { emit (.cmd b) { s with dc := .command } with dc := .data }

/-- `send_data(b)` (R105). -/
def sendData (b : Byte) (s : State) : State := emit (.dat b) s

/-! ### The end of a command -/

/-- The rule has run to its end: back to Idle (R31). -/
def complete (s : State) : State := { s with seq := .idle }

/-! ### Faults (R243-R253) -/

/-- Fault 1, an undefined opcode (R245). -/
def illegalOpcodeCode : BitVec 4 := 1
/-- Fault 2, a failed source read (R246). -/
def srcReadErrorCode : BitVec 4 := 2
/-- Fault 3, DRAW_TEXT with FW > 8 (R247). -/
def fontFormatCode : BitVec 4 := 3

/-- `if cs = active: deselect()`, in the trap action (R244) and in a reset (R272). -/
def closeTransaction (s : State) : State := if s.cs = .active then deselect s else s

/-- `raise Fault(code)`, the single trap action (R244). There is no vector and no saved program counter (R250). -/
def raiseFault (code : BitVec 4) (s : State) : State :=
  { closeTransaction s with faultCode := code, seq := .halted }

/-- The reset of the block: every piece of block state takes the value of R40, after `DESEL` if a transaction is open
(R272). The only way out of Halted (R252). The latch's value is DESIGN CHOICE (log 2); the stream stays and `outBase`
marks the place (log 12); source memory and the host's own side are untouched. -/
def resetBlock (s : State) : State :=
  let s := closeTransaction s
  { s with
    fifo := [], latch := .nop, seq := .idle, faultCode := 0, lookup := ⟨false, 0⟩, resultX := 0
    cs := .inactive, dc := .data, raced := [], outBase := s.out.length }

end Sys2Proof.Machine
end

