-- ==== Sys2Proof/Machine/Window.lean ====
section
/-! DEFINITION. The window addressing unit (spec/41_window.md): it accepts or rejects a window and never clips (R137). -/

namespace Sys2Proof.Machine

/-- On-panel: `0 ≤ x < X_MAX` and `0 ≤ y < Y_MAX` (00_scope.md R16). -/
def onPanel (c : Config) (x y : Int) : Bool := decide (0 ≤ x ∧ x < c.xMax ∧ 0 ≤ y ∧ y < c.yMax)

/-- `win_ok(x, y, w, h)` (R131). -/
def winOk (c : Config) (v : Window) : Bool :=
  decide (0 ≤ v.x ∧ 1 ≤ v.w ∧ v.x + v.w - 1 < c.xMax ∧ 0 ≤ v.y ∧ 1 ≤ v.h ∧ v.y + v.h - 1 < c.yMax)

/-- `send16(v)`: big-endian (R132, R58). -/
def send16 (n : Int) (s : State) : State := sendData (lo8 (enc16 n)) (sendData (hi8 (enc16 n)) s)

/-- `set_window(x, y, w, h)`: whether it armed a window, and the state after (R131). It never selects or deselects
(R133). -/
def setWindow (v : Window) (s : State) : Bool × State :=
  if winOk s.cfg v then
    let s := sendCommand s.cfg.opcCaset s
    let s := send16 (v.x + v.w - 1) (send16 v.x s)
    let s := sendCommand s.cfg.opcRaset s
    let s := send16 (v.y + v.h - 1) (send16 v.y s)
    (true, sendCommand s.cfg.opcRamwr s)
  else (false, s)

/-- `stream_color(c, n)` (R134). -/
def streamColor (c : Half) : Nat → State → State
  | 0, s => s
  | n + 1, s => streamColor c n (sendData (lo8 c) (sendData (hi8 c) s))

/-- `window_tx(x, y, w, h, c)`, the one transaction shape (R136); a rejected window emits nothing. -/
def windowTx (v : Window) (c : Half) (s : State) : State :=
  if winOk s.cfg v then deselect (streamColor c (v.w * v.h) (setWindow v (select s)).2) else s

/-! ### The same transaction as a list of tokens -/

/-- The eleven tokens of `set_window` (R131). -/
def windowTokens (c : Config) (v : Window) : List Token :=
  [.cmd c.opcCaset, .dat (hi8 (enc16 v.x)), .dat (lo8 (enc16 v.x)),
   .dat (hi8 (enc16 (v.x + v.w - 1))), .dat (lo8 (enc16 (v.x + v.w - 1))),
   .cmd c.opcRaset, .dat (hi8 (enc16 v.y)), .dat (lo8 (enc16 v.y)),
   .dat (hi8 (enc16 (v.y + v.h - 1))), .dat (lo8 (enc16 (v.y + v.h - 1))),
   .cmd c.opcRamwr]

/-- The two tokens of a pixel, most significant byte first (R134, R58). -/
def pixelTokens (c : Half) : List Token := [.dat (hi8 c), .dat (lo8 c)]

/-- The tokens of `n` pixels of one colour (R134). -/
def colorTokens (c : Half) (n : Nat) : List Token := (List.replicate n (pixelTokens c)).flatten

/-- `TX(x, y, w, h; c)`, the token sequence of a successful `window_tx` (95_test_vectors.md section 0, R106). -/
def txTokens (c : Config) (v : Window) (col : Half) : List Token :=
  .sel :: windowTokens c v ++ colorTokens col (v.w * v.h) ++ [.desel]

end Sys2Proof.Machine
end

