-- ==== Sys2Proof/Machine/Raster.lean ====
section
/-! DEFINITION. The line rasterizer (spec/42_raster.md): FILL, DRAW_PIXEL, DRAW_HLINE, DRAW_VLINE, DRAW_LINE,
DRAW_RECT. Coordinates are exact integers (spec/00_scope.md R10). No command here faults (R240). -/

namespace Sys2Proof.Machine

/-! ### Which window an operation sets -/

/-- The window of FILL (R150). -/
def panelWindow (c : Config) : Window := ⟨0, 0, c.xMax, c.yMax⟩

/-- The window of `draw_pixel_tx`, none off-panel (R152). -/
def pixelWindow (c : Config) (x y : Int) : Option Window :=
  if onPanel c x y then some ⟨x, y, 1, 1⟩ else none

/-- The window of `hline`, none for a silent no-op, clipped at X_MAX (R155). -/
def hlineWindow (c : Config) (x y : Int) (w : Nat) : Option Window :=
  if !onPanel c x y || w == 0 then none
  else some ⟨x, y, if x + w > c.xMax then (c.xMax - x).toNat else w, 1⟩

/-- The window of `vline`, none for a silent no-op, clipped at Y_MAX (R159). -/
def vlineWindow (c : Config) (x y : Int) (h : Nat) : Option Window :=
  if !onPanel c x y || h == 0 then none
  else some ⟨x, y, 1, if y + h > c.yMax then (c.yMax - y).toNat else h⟩

/-- `window_tx` on the window an operation sets, nothing if it sets none. -/
def drawWindow (v : Option Window) (c : Half) (s : State) : State :=
  match v with
  | none => s
  | some v => windowTx v c s

/-- `draw_pixel_tx(x, y, c)` (R152). -/
def drawPixelTx (x y : Int) (c : Half) (s : State) : State := drawWindow (pixelWindow s.cfg x y) c s

/-- `hline(x, y, w, c)` (R155). -/
def hline (x y : Int) (w : Nat) (c : Half) (s : State) : State := drawWindow (hlineWindow s.cfg x y w) c s

/-- `vline(x, y, h, c)` (R159). -/
def vline (x y : Int) (h : Nat) (c : Half) (s : State) : State := drawWindow (vlineWindow s.cfg x y h) c s

/-! ### The diagonal stepper (R166) -/

/-- The stepper before its first point: roles swapped if steep, endpoints swapped to an increasing primary
coordinate (R166). -/
def Stepper.init (x0 y0 x1 y1 : Int) : Stepper :=
  let steep := decide ((y1 - y0).natAbs > (x1 - x0).natAbs)
  let (x0, y0, x1, y1) := if steep then (y0, x0, y1, x1) else (x0, y0, x1, y1)
  let (x0, y0, x1, y1) := if x0 > x1 then (x1, y1, x0, y0) else (x0, y0, x1, y1)
  { steep := steep, p := x0, last := x1, y := y0, err := (x1 - x0) / 2, dx := x1 - x0, dy := (y1 - y0).natAbs
    ystep := if y1 ≥ y0 then 1 else -1 }

/-- The point plotted next, axes un-swapped (R166). -/
def Stepper.point (st : Stepper) : Int × Int := if st.steep then (st.y, st.p) else (st.p, st.y)

/-- The stepper after a plotted point: `err` less `dy`, and a secondary step when that is negative (R166). -/
def Stepper.next (st : Stepper) : Stepper :=
  let err := st.err - st.dy
  if err < 0 then { st with p := st.p + 1, y := st.y + st.ystep, err := err + st.dx }
  else { st with p := st.p + 1, err := err }

/-- How many points are still to be plotted: `p` runs to `last` inclusive (R166). -/
def Stepper.remaining (st : Stepper) : Nat := (st.last - st.p + 1).toNat

/-- `n` points of the stepper, each a transaction of its own (R166, R169). -/
def plotPoints (c : Half) : Nat → Stepper → State → State
  | 0, _, s => s
  | n + 1, st, s => plotPoints c n st.next (drawPixelTx st.point.1 st.point.2 c s)

/-- `diagonal(x0, y0, x1, y1, c)` (R166). -/
def diagonal (x0 y0 x1 y1 : Int) (c : Half) (s : State) : State :=
  let st := Stepper.init x0 y0 x1 y1
  plotPoints c st.remaining st s

/-- `draw_line(x0, y0, x1, y1, c)` (R163). -/
def drawLine (x0 y0 x1 y1 : Int) (c : Half) (s : State) : State :=
  if x0 = x1 then vline x0 (min y0 y1) ((y1 - y0).natAbs + 1) c s
  else if y0 = y1 then hline (min x0 x1) y0 ((x1 - x0).natAbs + 1) c s
  else diagonal x0 y0 x1 y1 c s

/-! ### The commands -/

/-- FILL (R150). -/
def execFill (color : Half) (s : State) : Host.Outcome State Fault Refusal :=
  .next (complete (windowTx (panelWindow s.cfg) color s))

/-- DRAW_PIXEL (R151). -/
def execDrawPixel (x y color : Half) (s : State) : Host.Outcome State Fault Refusal :=
  .next (complete (drawPixelTx (sext16 x) (sext16 y) color s))

/-- DRAW_HLINE (R155). -/
def execDrawHLine (x y w color : Half) (s : State) : Host.Outcome State Fault Refusal :=
  .next (complete (hline (sext16 x) (sext16 y) (zext16 w) color s))

/-- DRAW_VLINE (R159). -/
def execDrawVLine (x y h color : Half) (s : State) : Host.Outcome State Fault Refusal :=
  .next (complete (vline (sext16 x) (sext16 y) (zext16 h) color s))

/-- DRAW_LINE (R163). -/
def execDrawLine (x0 y0 x1 y1 color : Half) (s : State) : Host.Outcome State Fault Refusal :=
  .next (complete (drawLine (sext16 x0) (sext16 y0) (sext16 x1) (sext16 y1) color s))

/-- DRAW_RECT: the rectangle whole or not at all (R175). -/
def execDrawRect (x y w h color : Half) (s : State) : Host.Outcome State Fault Refusal :=
  .next (complete (windowTx ⟨sext16 x, sext16 y, zext16 w, zext16 h⟩ color s))

end Sys2Proof.Machine
end

