-- ==== Sys2Proof/Machine/Glyph.lean ====
section
/-! DEFINITION. The glyph bitmap unpacker (spec/43_glyph.md): glyph addressing, LOOKUP_GLYPH and DRAW_TEXT. -/

namespace Sys2Proof.Machine

/-! ### Glyph lookup -/

/-- `glyph_ref(g)`: the address of the glyph's last stored row, modulo 2^32 (R201). -/
def glyphRef (t : GlyphTable) (g : Nat) : Word :=
  srcAddr (t.base.toNat + g * zext8 t.gh * zext8 t.gbw + ((zext8 t.gh : Int) - 1) * zext8 t.gbw)

/-- `lookup(c)`, the range check (R202). -/
def lookupGlyph (t : GlyphTable) (ch : Byte) : Option Word :=
  if zext8 t.first ≤ zext8 ch ∧ zext8 ch < zext8 t.first + zext16 t.count then
    some (glyphRef t (zext8 ch - zext8 t.first))
  else none

/-- The loop of the binary search between entries `lo` and `hi` (R203), with fuel. -/
def searchFrom (t : GlyphTable) (ch : Byte) : Nat → Int → Int → Option Word
  | 0, _, _ => none
  | n + 1, lo, hi =>
    if lo ≤ hi then
      let mid := (lo + hi) / 2
      if zext8 t.first + mid = zext8 ch then some (glyphRef t mid.toNat)
      else if zext8 t.first + mid < zext8 ch then searchFrom t ch n (mid + 1) hi
      else searchFrom t ch n lo (mid - 1)
    else none

/-- The binary search the document describes (R203). Each turn shortens the interval, so COUNT + 1 turns suffice. -/
def searchGlyph (t : GlyphTable) (ch : Byte) : Option Word :=
  searchFrom t ch (zext16 t.count + 1) 0 ((zext16 t.count : Int) - 1)

/-- The lookup result a search gives: found and the reference, or not found and address 0 (R204). -/
def lookupResult (r : Option Word) : LookupResult :=
  match r with
  | some ref => ⟨true, ref⟩
  | none => ⟨false, 0x00000000⟩

/-! ### DRAW_TEXT -/

/-- Going on with the text, or stopped by a fault. -/
inductive Flow where
  | go (s : State)
  | stop (s : State)

/-- The colour of column `col` of a row byte: bit 7 - col, a set bit `fg`, a clear bit `bg` (R210). -/
def columnColor (a : TextArgs) (b : Byte) (col : Nat) : Half := if b.getLsbD (7 - col) then a.fg else a.bg

/-- One pixel of a glyph, at `(cx + col, y + row)` (R207, R212). -/
def drawColumn (a : TextArgs) (cx : Word) (row : Nat) (b : Byte) (col : Nat) (s : State) : State :=
  drawPixelTx (cursorVal cx + col) (sext16 a.y + row) (columnColor a b col) s

/-- `n` columns of a display row from column `col` on (R207). -/
def drawColumns (a : TextArgs) (cx : Word) (row : Nat) (b : Byte) : Nat → Nat → State → State
  | 0, _, s => s
  | n + 1, col, s => drawColumns a cx row b n (col + 1) (drawColumn a cx row b col s)

/-- The row above in memory: `ref <- (ref - GBW) mod 2^32` (R207). -/
def rowBefore (a : TextArgs) (ref : Word) : Word := ref - a.table.gbw.setWidth 32

/-- `n` display rows from row `row` on, one byte read for each (R207, R211). -/
def drawRows (a : TextArgs) (cx : Word) : Nat → Nat → Word → State → Flow
  | 0, _, _, s => .go s
  | n + 1, row, ref, s =>
    match memRead ref s with
    | .fail => .stop (raiseFault srcReadErrorCode s)
    | .byte b s => drawRows a cx n (row + 1) (rowBefore a ref) (drawColumns a cx row b (zext8 a.fw) 0 s)

/-- The end of the text: the final cursor goes to RESULT_X (R213). -/
def endText (cx : Word) (s : State) : State := complete { s with resultX := cx }

/-- The text loop (R207) for at most `n` characters. The state after `n` characters without an end is the one in
which the command is still running at the head of its loop (log 14). -/
def textLoop (a : TextArgs) : Nat → Word → Word → State → State
  | 0, p, cx, s => { s with seq := .exec ⟨none, .text (.char p cx)⟩ }
  | n + 1, p, cx, s =>
    match memRead p s with
    | .fail => raiseFault srcReadErrorCode s
    | .byte ch s =>
      if ch = 0x00 then endText cx s
      else
        match lookupGlyph a.table ch with
        | none => textLoop a n (p + 1) cx s
        | some ref =>
          match drawRows a cx (zext8 a.table.gh) 0 ref s with
          | .stop s => s
          | .go s => textLoop a n (p + 1) (advanceCursor cx a.fw) s

/-- How many characters one step of an undisturbed DRAW_TEXT may take: as many as there are source addresses, so that a
text with a reachable terminator always ends in it (log 14). -/
def textBurst : Nat := 2 ^ 32

/-- `draw_text()` (R207): the check of FW comes before any read or token. -/
def drawText (a : TextArgs) (s : State) : State :=
  if zext8 a.fw > 8 then raiseFault fontFormatCode s
  else textLoop a textBurst a.text (cursorOf (sext16 a.x)) s

/-! ### The commands -/

/-- LOOKUP_GLYPH: both parts of the lookup result in one step, no read, no token (R204, R205). -/
def execLookupGlyph (ch : Byte) (t : GlyphTable) (s : State) : Host.Outcome State Fault Refusal :=
  .next (complete { s with lookup := lookupResult (lookupGlyph t ch) })

/-- DRAW_TEXT (R207). -/
def execDrawText (a : TextArgs) (s : State) : Host.Outcome State Fault Refusal := .next (drawText a s)

end Sys2Proof.Machine
end

