-- ==== Sys2Proof/Machine/Dispatch.lean ====
section
/-! DEFINITION. One arm per constructor of `Instr`: which meaning runs each command of spec/opcode_table.json. -/

namespace Sys2Proof.Machine

def exec (i : Instr) (s : State) : Host.Outcome State Fault Refusal :=
  match i with
  | .nop => Sys2Proof.Machine.execNop s
  | .fill color => Sys2Proof.Machine.execFill color s
  | .drawPixel x y color => Sys2Proof.Machine.execDrawPixel x y color s
  | .drawHLine x y w color => Sys2Proof.Machine.execDrawHLine x y w color s
  | .drawVLine x y h color => Sys2Proof.Machine.execDrawVLine x y h color s
  | .drawLine x0 y0 x1 y1 color => Sys2Proof.Machine.execDrawLine x0 y0 x1 y1 color s
  | .drawRect x y w h color => Sys2Proof.Machine.execDrawRect x y w h color s
  | .drawText a => Sys2Proof.Machine.execDrawText a s
  | .lookupGlyph ch t => Sys2Proof.Machine.execLookupGlyph ch t s

end Sys2Proof.Machine
end

