-- ==== Sys2Proof/WellFormed.lean ====
section
/-! DEFINITION. What is well formed: a configuration with legal parameter values (spec/00_scope.md R7) and an
assembler line whose operands are in range (spec/30_encoding.md R85). An `Instr` needs no check: its fields have the
packet's widths, and every value of every field is legal (R80). -/

namespace Sys2Proof

/-- X_MAX is in 1..65535 (R7). -/
abbrev Config.xMaxOk (c : Config) : Bool := decide (1 ≤ c.xMax ∧ c.xMax ≤ 65535)
/-- Y_MAX is in 1..65535 (R7). -/
abbrev Config.yMaxOk (c : Config) : Bool := decide (1 ≤ c.yMax ∧ c.yMax ≤ 65535)
/-- CMDQ_DEPTH is at least 6 (R7, R29). -/
abbrev Config.depthOk (c : Config) : Bool := decide (6 ≤ c.depth)
/-- BLOCK_BASE is 32-byte aligned (R7). -/
abbrev Config.baseOk (c : Config) : Bool := decide (c.base % 32 = 0)

/-- Every parameter has a legal value (R7). SRC_MAP and the command bytes have no illegal value. -/
def Config.wf (c : Config) : Bool :=
  c.xMaxOk && c.yMaxOk && c.depthOk && c.baseOk

namespace Asm

/-- A coordinate: -32768..32767, or 0x0000..0xFFFF read as raw bits (R85). DESIGN CHOICE (log 17, unsafe): the literal's
form does not matter, so 32768..65535 in decimal are accepted as raw bits too. -/
def coordOk (n : Int) : Bool := decide (-32768 ≤ n ∧ n ≤ 65535)
/-- w, h, color, fg, bg, count: 0..0xFFFF (R85). -/
def halfOk (n : Int) : Bool := decide (0 ≤ n ∧ n ≤ 0xFFFF)
/-- first, ch, gh, gbw, fw: 0..0xFF (R85). -/
def byteOk (n : Int) : Bool := decide (0 ≤ n ∧ n ≤ 0xFF)
/-- text, base: 0..0xFFFFFFFF (R85). -/
def addrOk (n : Int) : Bool := decide (0 ≤ n ∧ n ≤ 0xFFFFFFFF)

/-- The fields of a font operand are in range (R85). -/
def fontOk (f : AsmFont) : Bool :=
  addrOk f.base && byteOk f.first && halfOk f.count && byteOk f.gh && byteOk f.gbw

end Asm

/-- "The assembler refuses a value outside its range" (R85). -/
def AsmLine.wellFormed : AsmLine → Bool
  | .nop => true
  | .fill c => Asm.halfOk c
  | .drawPixel x y c => Asm.coordOk x && Asm.coordOk y && Asm.halfOk c
  | .drawHLine x y w c => Asm.coordOk x && Asm.coordOk y && Asm.halfOk w && Asm.halfOk c
  | .drawVLine x y h c => Asm.coordOk x && Asm.coordOk y && Asm.halfOk h && Asm.halfOk c
  | .drawLine x0 y0 x1 y1 c =>
      Asm.coordOk x0 && Asm.coordOk y0 && Asm.coordOk x1 && Asm.coordOk y1 && Asm.halfOk c
  | .drawRect x y w h c =>
      Asm.coordOk x && Asm.coordOk y && Asm.halfOk w && Asm.halfOk h && Asm.halfOk c
  | .drawText text x y fg bg font fw =>
      Asm.addrOk text && Asm.coordOk x && Asm.coordOk y && Asm.halfOk fg && Asm.halfOk bg &&
        Asm.fontOk font && Asm.byteOk fw
  | .lookupGlyph ch font => Asm.byteOk ch && Asm.fontOk font

end Sys2Proof
end

