-- ==== Sys2Proof/Decode.lean ====
section
/-! DEFINITION. The packet decoder, the encoder and the assembler, from spec/30_encoding.md R70-R88. -/

namespace Sys2Proof

/-! ### Fields of a word (00_scope.md R11) -/

/-- Bits [31:24]: OPC of a header word, FIRST (R71, R78, R79). -/
def byte3 (w : Word) : Byte := w.extractLsb' 24 8
/-- Bits [23:16]: FW, CHAR (R78, R79). -/
def byte2 (w : Word) : Byte := w.extractLsb' 16 8
/-- Bits [15:8]: GH (R78, R79). -/
def byte1 (w : Word) : Byte := w.extractLsb' 8 8
/-- Bits [7:0]: GBW (R78, R79). -/
def byte0 (w : Word) : Byte := w.extractLsb' 0 8
/-- Bits [31:16]: X, X0, X1, W, FG (R75-R78). -/
def half1 (w : Word) : Half := w.extractLsb' 16 16
/-- Bits [15:0]: COLOR, Y, Y0, Y1, H, BG, COUNT (R74-R79). -/
def half0 (w : Word) : Half := w.extractLsb' 0 16

/-! ### The opcode map -/

/-- A row of the opcode map: mnemonic, opcode, packet length in words (R72). -/
structure OpcodeRow where
  mnemonic : String
  opc      : Byte
  len      : Nat
  deriving DecidableEq, Repr

/-- The opcode map of R72. -/
def opcodeMap : List OpcodeRow :=
  [⟨"NOP", 0x00, 1⟩, ⟨"FILL", 0x01, 1⟩, ⟨"DRAW_PIXEL", 0x02, 2⟩, ⟨"DRAW_HLINE", 0x03, 3⟩,
   ⟨"DRAW_VLINE", 0x04, 3⟩, ⟨"DRAW_LINE", 0x05, 3⟩, ⟨"DRAW_RECT", 0x06, 3⟩, ⟨"DRAW_TEXT", 0x07, 6⟩,
   ⟨"LOOKUP_GLYPH", 0x08, 3⟩]

/-- Every row has the mask 0xFF000000 (R84). -/
def OpcodeRow.mask (_ : OpcodeRow) : Word := 0xFF000000

/-- The match value of a row, OPC << 24 (R84). -/
def OpcodeRow.matchValue (r : OpcodeRow) : Word := r.opc.setWidth 32 <<< 24

/-- "For every row, W0 & mask == match selects the opcode" (R84). -/
def OpcodeRow.selects (r : OpcodeRow) (w0 : Word) : Bool := w0 &&& r.mask == r.matchValue

/-- The packet length of a defined opcode, none for an illegal one (R72, R80, R83). -/
def packetLen (opc : Byte) : Option Nat := (opcodeMap.find? (·.opc == opc)).map (·.len)

/-! ### The decoder -/

/-- What the sequencer finds at the FIFO head (R31, R88): no decision yet, an illegal header, or a packet. -/
inductive Decoded where
  /-- The FIFO is empty or holds a packet prefix (R31, R83). -/
  | wait
  /-- The head word has an undefined opcode; the words after it (R80). -/
  | illegal (rest : List Word)
  /-- A whole packet; the words after it. -/
  | packet (i : Instr) (rest : List Word)
  deriving DecidableEq, Repr

/-- A packet of two words (R75): wait until the second is there. -/
def decode2 (f : Word → Instr) : List Word → Decoded
  | w1 :: rest => .packet (f w1) rest
  | _ => .wait

/-- A packet of three words (R76, R77, R79). -/
def decode3 (f : Word → Word → Instr) : List Word → Decoded
  | w1 :: w2 :: rest => .packet (f w1 w2) rest
  | _ => .wait

/-- A packet of six words (R78). -/
def decode6 (f : Word → Word → Word → Word → Word → Instr) : List Word → Decoded
  | w1 :: w2 :: w3 :: w4 :: w5 :: rest => .packet (f w1 w2 w3 w4 w5) rest
  | _ => .wait

/-- The packet that starts with header word `w0`, `ws` being the words after it. The opcode alone decides format and
length (R71); every field is taken whole from its bits (R81); ignored bits are dropped (R82). -/
def decodeAfter (w0 : Word) (ws : List Word) : Decoded :=
  match (byte3 w0).toNat with
  | 0x00 => .packet .nop ws
  | 0x01 => .packet (.fill (half0 w0)) ws
  | 0x02 => decode2 (fun w1 => .drawPixel (half1 w1) (half0 w1) (half0 w0)) ws
  | 0x03 => decode3 (fun w1 w2 => .drawHLine (half1 w1) (half0 w1) (half1 w2) (half0 w0)) ws
  | 0x04 => decode3 (fun w1 w2 => .drawVLine (half1 w1) (half0 w1) (half0 w2) (half0 w0)) ws
  | 0x05 =>
    decode3 (fun w1 w2 => .drawLine (half1 w1) (half0 w1) (half1 w2) (half0 w2) (half0 w0)) ws
  | 0x06 =>
    decode3 (fun w1 w2 => .drawRect (half1 w1) (half0 w1) (half1 w2) (half0 w2) (half0 w0)) ws
  | 0x07 =>
    decode6 (fun w1 w2 w3 w4 w5 => .drawText
      { table := { base := w4, first := byte3 w5, count := half0 w5, gh := byte1 w0, gbw := byte0 w0 }
        fw := byte2 w0, fg := half1 w1, bg := half0 w1, x := half1 w2, y := half0 w2, text := w3 }) ws
  | 0x08 =>
    decode3 (fun w1 w2 => .lookupGlyph (byte2 w0)
      { base := w1, first := byte3 w2, count := half0 w2, gh := byte1 w0, gbw := byte0 w0 }) ws
  | _ => .illegal ws

/-- Decoding the words at the FIFO head: total on every word sequence (R88). -/
def decode : List Word → Decoded
  | [] => .wait
  | w0 :: ws => decodeAfter w0 ws

/-! ### The encoder -/

/-- `{a, b}` of two halves (R11). -/
def ofHalves (hi lo : Half) : Word := hi ++ lo

/-- A word from a byte, an unused byte and a half (R74-R76, R78, R79): ignored bits are written as zero (R82). -/
def ofByteHalf (b3 : Byte) (lo : Half) : Word := b3 ++ (0#8) ++ lo

/-- A word from four bytes (R78, R79). -/
def ofBytes (b3 b2 b1 b0 : Byte) : Word := b3 ++ b2 ++ b1 ++ b0

/-- The opcode of an instruction (R72). -/
def Instr.opc : Instr → Byte
  | .nop => 0x00
  | .fill _ => 0x01
  | .drawPixel _ _ _ => 0x02
  | .drawHLine _ _ _ _ => 0x03
  | .drawVLine _ _ _ _ => 0x04
  | .drawLine _ _ _ _ _ => 0x05
  | .drawRect _ _ _ _ _ => 0x06
  | .drawText _ => 0x07
  | .lookupGlyph _ _ => 0x08

/-- The packet of an instruction, header word first (R70-R79). DRAW_HLINE writes H as 0 and DRAW_VLINE writes W as 0
(R85). -/
def encode (i : Instr) : List Word :=
  match i with
  | .nop => [ofByteHalf i.opc 0]
  | .fill c => [ofByteHalf i.opc c]
  | .drawPixel x y c => [ofByteHalf i.opc c, ofHalves x y]
  | .drawHLine x y w c => [ofByteHalf i.opc c, ofHalves x y, ofHalves w 0]
  | .drawVLine x y h c => [ofByteHalf i.opc c, ofHalves x y, ofHalves 0 h]
  | .drawLine x0 y0 x1 y1 c => [ofByteHalf i.opc c, ofHalves x0 y0, ofHalves x1 y1]
  | .drawRect x y w h c => [ofByteHalf i.opc c, ofHalves x y, ofHalves w h]
  | .drawText a =>
      [ofBytes i.opc a.fw a.table.gh a.table.gbw, ofHalves a.fg a.bg, ofHalves a.x a.y, a.text, a.table.base,
       ofByteHalf a.table.first a.table.count]
  | .lookupGlyph ch t => [ofBytes i.opc ch t.gh t.gbw, t.base, ofByteHalf t.first t.count]

/-! ### The assembler (R85) -/

/-- The raw bits of an operand. -/
def Asm.half (n : Int) : Half := BitVec.ofInt 16 n
/-- The raw bits of a byte operand. -/
def Asm.byte (n : Int) : Byte := BitVec.ofInt 8 n
/-- The raw bits of an address operand. -/
def Asm.addr (n : Int) : Word := BitVec.ofInt 32 n
/-- The raw bits of a font operand. -/
def Asm.table (f : AsmFont) : GlyphTable :=
  { base := Asm.addr f.base, first := Asm.byte f.first, count := Asm.half f.count
    gh := Asm.byte f.gh, gbw := Asm.byte f.gbw }

/-- The instruction of a line whose operands are in range. -/
def AsmLine.instr : AsmLine → Instr
  | .nop => .nop
  | .fill c => .fill (Asm.half c)
  | .drawPixel x y c => .drawPixel (Asm.half x) (Asm.half y) (Asm.half c)
  | .drawHLine x y w c => .drawHLine (Asm.half x) (Asm.half y) (Asm.half w) (Asm.half c)
  | .drawVLine x y h c => .drawVLine (Asm.half x) (Asm.half y) (Asm.half h) (Asm.half c)
  | .drawLine x0 y0 x1 y1 c =>
      .drawLine (Asm.half x0) (Asm.half y0) (Asm.half x1) (Asm.half y1) (Asm.half c)
  | .drawRect x y w h c =>
      .drawRect (Asm.half x) (Asm.half y) (Asm.half w) (Asm.half h) (Asm.half c)
  | .drawText text x y fg bg font fw =>
      .drawText { table := Asm.table font, fw := Asm.byte fw, fg := Asm.half fg, bg := Asm.half bg
                  x := Asm.half x, y := Asm.half y, text := Asm.addr text }
  | .lookupGlyph ch font => .lookupGlyph (Asm.byte ch) (Asm.table font)

/-- The words of a line, none where the assembler refuses it (R85). -/
def assemble (l : AsmLine) : Option (List Word) :=
  if l.wellFormed then some (encode l.instr) else none

/-! ### One instruction given as a number -/

/-- The six words of a packet given as one number: word k is bits [32k+31:32k], bits from `nbits` on read as zero. -/
def tableWords (nbits w : Nat) : List Word :=
  (List.range 6).map fun k => BitVec.ofNat 32 ((w % 2 ^ nbits) / 2 ^ (32 * k))

/-- The words of `tableWords` that belong to the packet at its head: the header word alone if it is illegal. -/
def tablePacket (nbits w : Nat) : List Word :=
  let ws := tableWords nbits w
  ws.take ((packetLen (byte3 (ws.headD 0))).getD 1)

/-- What the decoder reads from an instruction whose bits are `w`, none where it refuses it. -/
def decodeTableWord (nbits w : Nat) : Option Instr :=
  match decode (tableWords nbits w) with
  | .packet i _ => some i
  | _ => none

end Sys2Proof
end

