-- ==== Sys2Proof/Machine/Flags.lean ====
section
/-! DEFINITION. The block has no condition codes (spec/10_state.md R36). Its only flag-like values are the bits of
STATUS, computed from state (R23, R24). -/

namespace Sys2Proof.Machine

/-- The sequencer is Halted. -/
def halted (s : State) : Bool := s.seq == .halted

/-- `BUSY = (seq != Halted) and (seq != Idle or fifo_count > 0)` (R24). -/
def busy (s : State) : Bool := !halted s && (s.seq != .idle || decide (s.fifo.length > 0))

/-- FIFO_FULL: the FIFO holds CMDQ_DEPTH words (R23). -/
def fifoFull (s : State) : Bool := s.fifo.length == s.cfg.depth

/-- FIFO_EMPTY: the FIFO holds 0 words (R23). -/
def fifoEmpty (s : State) : Bool := s.fifo.length == 0

/-- FAULT_CODE: the fault code, 0 when not halted (R23). -/
def faultField (s : State) : BitVec 4 := if halted s then s.faultCode else 0

/-- The STATUS word, bits [31:9] zero (R23). -/
def status (s : State) : Word :=
  0#23 ++ BitVec.ofBool s.lookup.found ++ faultField s ++ BitVec.ofBool (halted s) ++ BitVec.ofBool (fifoEmpty s)
    ++ BitVec.ofBool (fifoFull s) ++ BitVec.ofBool (busy s)

end Sys2Proof.Machine
end

