-- ==== Sys2Proof/Machine/Sequencer.lean ====
section
/-! DEFINITION. The sequencer (spec/10_state.md R31): taking a packet from the FIFO head, and the command run one
observable step at a time (spec/00_scope.md R14) from the working state of R37. -/

namespace Sys2Proof.Machine

/-! ### Taking a packet -/

/-- `window_tx` about to begin, if its window is accepted (R136). -/
def openTx (c : Config) (v : Option Window) (col : Half) : Option Tx :=
  match v with
  | none => none
  | some v => if winOk c v then some ⟨v, col, .select⟩ else none

/-- The working state in which DRAW_LINE begins (R163). -/
def startLine (c : Config) (x0 y0 x1 y1 : Int) (col : Half) : Work :=
  if x0 = x1 then ⟨openTx c (vlineWindow c x0 (min y0 y1) ((y1 - y0).natAbs + 1)) col, .finish⟩
  else if y0 = y1 then ⟨openTx c (hlineWindow c (min x0 x1) y0 ((x1 - x0).natAbs + 1)) col, .finish⟩
  else ⟨none, .diagonal (Stepper.init x0 y0 x1 y1)⟩

/-- The working state in which each command begins (R37). -/
def startWork (c : Config) : Instr → Work
  | .nop => ⟨none, .finish⟩
  | .fill col => ⟨openTx c (some (panelWindow c)) col, .finish⟩
  | .drawPixel x y col => ⟨openTx c (pixelWindow c (sext16 x) (sext16 y)) col, .finish⟩
  | .drawHLine x y w col => ⟨openTx c (hlineWindow c (sext16 x) (sext16 y) (zext16 w)) col, .finish⟩
  | .drawVLine x y h col => ⟨openTx c (vlineWindow c (sext16 x) (sext16 y) (zext16 h)) col, .finish⟩
  | .drawLine x0 y0 x1 y1 col => startLine c (sext16 x0) (sext16 y0) (sext16 x1) (sext16 y1) col
  | .drawRect x y w h col => ⟨openTx c (some ⟨sext16 x, sext16 y, zext16 w, zext16 h⟩) col, .finish⟩
  | .drawText _ => ⟨none, .text .start⟩
  | .lookupGlyph _ _ => ⟨none, .finish⟩

/-- A race mark once a packet of `len` words has left the FIFO: it stays if the packet stood there when the host wrote
(R64(b)), and goes if the packet's last word came after the write (R64(a)). -/
def RaceMark.afterPacket (len : Nat) (m : RaceMark) : Option RaceMark :=
  if len ≤ m.words then some { m with words := m.words - len } else none

/-- The sequencer removes a packet, decodes it into `A` and enters `Exec(op)` (R31). A CMD write that waited is
appended (R22). -/
def accept (i : Instr) (rest : List Word) (s : State) : State :=
  { s with
    fifo := rest ++ s.waiting.toList, waiting := none, latch := i, seq := .exec (startWork s.cfg i)
    raced := s.raced.filterMap (RaceMark.afterPacket (s.fifo.length - rest.length)) }

/-- The sequencer removes an illegal header word and raises fault 1 (R31, R245). Whether a CMD write that waited still
enters the FIFO, which has room now, or is discarded by the halted block is open (log 9). -/
def takeIllegal (rest : List Word) (s : State) : State :=
  match s.waiting with
  | none => raiseFault illegalOpcodeCode { s with fifo := rest }
  | some v =>
    let fifo := if freeBit s.draws then rest ++ [v] else rest
    raiseFault illegalOpcodeCode { s with fifo := fifo, waiting := none, draws := s.draws + 1 }

/-! ### Running a command step by step -/

/-- The state with the transaction at its next place. -/
def setTx (w : Work) (t : Tx) (pos : TxPos) (s : State) : State :=
  { s with seq := .exec { w with tx := some { t with pos := pos } } }

/-- The place after the `k`-th token of `set_window`: the colour stream follows the eleventh (R131, R136). -/
def afterWindow (v : Window) (k : Nat) : TxPos := if k < 10 then .window (k + 1) else .colorHi (v.w * v.h)

/-- The place after a pixel, `n` pixels having been left with it (R134). -/
def afterPixel (n : Nat) : TxPos := if n ≤ 1 then .deselect else .colorHi (n - 1)

/-- One step of a transaction. `CMD` and `DAT` tokens wait for the transport; `SEL`, `DESEL` and the change of `dc`
before a command byte do not (R104, R107). -/
def advanceTx (ready : Bool) (w : Work) (t : Tx) (s : State) : State :=
  match t.pos with
  | .select => setTx w t (.window 0) (select s)
  | .window k =>
    match (windowTokens s.cfg t.win)[k]? with
    | some (.cmd b) =>
      if s.dc = .data then { s with dc := .command }
      else if ready then setTx w t (afterWindow t.win k) { emit (.cmd b) s with dc := .data }
      else s
    | some tok => if ready then setTx w t (afterWindow t.win k) (emit tok s) else s
    | none => s
  | .colorHi n => if ready then setTx w t (.colorLo n) (sendData (hi8 t.color) s) else s
  | .colorLo n => if ready then setTx w t (afterPixel n) (sendData (lo8 t.color) s) else s
  | .deselect => { deselect s with seq := .exec { w with tx := none } }

/-- The command completes: LOOKUP_GLYPH writes its result now (R205); back to Idle (R31). -/
def finishCommand (s : State) : State :=
  match s.latch with
  | .lookupGlyph ch t => complete { s with lookup := lookupResult (lookupGlyph t ch) }
  | _ => complete s

/-- The state at a point of a text draw, with no transaction under way. -/
def atText (pt : TextPoint) (s : State) : State := { s with seq := .exec ⟨none, .text pt⟩ }

/-- One step of DRAW_TEXT between transactions (R207). A read waits for the platform (R54). -/
def advanceText (ready : Bool) (a : TextArgs) (pt : TextPoint) (s : State) : State :=
  match pt with
  | .start =>
    if zext8 a.fw > 8 then raiseFault fontFormatCode s
    else atText (.char a.text (cursorOf (sext16 a.x))) s
  | .char p cx =>
    if ready then
      match memRead p s with
      | .fail => raiseFault srcReadErrorCode s
      | .byte ch s =>
        if ch = 0x00 then endText cx s
        else
          match lookupGlyph a.table ch with
          | none => atText (.char (p + 1) cx) s
          | some ref => atText (.row (p + 1) cx ref 0) s
    else s
  | .row p cx ref row =>
    if zext8 a.table.gh ≤ row then atText (.char p (advanceCursor cx a.fw)) s
    else if ready then
      match memRead ref s with
      | .fail => raiseFault srcReadErrorCode s
      | .byte b s => atText (.col p cx ref row b 0) s
    else s
  | .col p cx ref row b col =>
    if zext8 a.fw ≤ col then atText (.row p cx (rowBefore a ref) (row + 1)) s
    else
      let tx := openTx s.cfg (pixelWindow s.cfg (cursorVal cx + col) (sext16 a.y + row)) (columnColor a b col)
      { s with seq := .exec ⟨tx, .text (.col p cx ref row b (col + 1))⟩ }

/-- The operands of the DRAW_TEXT in the latch. -/
def latchText : Instr → Option TextArgs
  | .drawText a => some a
  | _ => none

/-- The colour operand in the latch, 0 for a command that has none. -/
def latchColor : Instr → Half
  | .fill c => c
  | .drawPixel _ _ c => c
  | .drawHLine _ _ _ c => c
  | .drawVLine _ _ _ c => c
  | .drawLine _ _ _ _ c => c
  | .drawRect _ _ _ _ c => c
  | .nop => 0
  | .drawText _ => 0
  | .lookupGlyph _ _ => 0

/-- One step of the diagonal stepper between transactions: a point plotted, or the line's end (R166). -/
def advanceLine (c : Half) (st : Stepper) (s : State) : State :=
  if st.p ≤ st.last then
    { s with seq := .exec ⟨openTx s.cfg (pixelWindow s.cfg st.point.1 st.point.2) c, .diagonal st.next⟩ }
  else finishCommand s

/-- One step of the executing command (R14, R31): the transaction under way, or else the task's next step. -/
def advance (ready : Bool) (s : State) : State :=
  match s.seq with
  | .exec ⟨some t, task⟩ => advanceTx ready ⟨some t, task⟩ t s
  | .exec ⟨none, .finish⟩ => finishCommand s
  | .exec ⟨none, .diagonal st⟩ => advanceLine (latchColor s.latch) st s
  | .exec ⟨none, .text pt⟩ =>
    match latchText s.latch with
    | some a => advanceText ready a pt s
    | none => s
  | .idle => s
  | .halted => s

/-- `k` steps of the executing command with the transport and the read port ready. -/
def advanceMany : Nat → State → State
  | 0, s => s
  | k + 1, s => advanceMany k (advance true s)

/-- One move of the block (R31): Idle, it takes the packet at the FIFO head if there is one; executing, it goes one
step; Halted, nothing. -/
def blockMove (ready : Bool) (s : State) : State :=
  match s.seq with
  | .idle =>
    match decode s.fifo with
    | .wait => s
    | .illegal rest => takeIllegal rest s
    | .packet i rest => accept i rest s
  | .exec _ => advance ready s
  | .halted => s

end Sys2Proof.Machine
end

