-- ==== Sys2Proof/Machine/HostPort.lean ====
section
/-! DEFINITION. The host's side: the register window (spec/10_state.md R21-R28), the two resets
(spec/70_reset_and_hazards.md R270-R272), writes to source memory (spec/20_memory.md R64), and which agent moves next. -/

namespace Sys2Proof.Machine

/-! ### The register window -/

/-- The word a host read of the slot at byte offset `off` returns; no side effect (R21-R28, R61). -/
def readReg (off : Nat) (s : State) : Word :=
  if off = 0x04 then status s
  else if off = 0x08 then s.lookup.addr
  else if off = 0x0C then s.resultX
  else 0x00000000

/-- A host write of `v` to CMD: appended, waiting for room, or discarded (R22). -/
def writeCmd (v : Word) (s : State) : State :=
  if halted s then s
  else if s.fifo.length < s.cfg.depth then { s with fifo := s.fifo ++ [v] }
  else { s with waiting := some v }

/-- Soft reset: exactly the effect of a hard reset, at once (R271). -/
def softReset (s : State) : State := resetBlock s

/-- A host write of `v` to CTRL: bit 0 resets, the other bits are ignored (R27). -/
def writeCtrl (v : Word) (s : State) : State := if v.getLsbD 0 then softReset s else s

/-- A host write of `v` to the slot at byte offset `off`; every slot but CMD and CTRL ignores it (R21-R28). -/
def writeReg (off : Nat) (v : Word) (s : State) : State :=
  if off = 0x00 then writeCmd v s
  else if off = 0x10 then writeCtrl v s
  else s

/-- The reset input (R270). What becomes of a CMD write that waits is open (log 8). -/
def hardReset (s : State) : State :=
  match s.waiting with
  | none => resetBlock s
  | some v =>
    { resetBlock s with waiting := if freeBit s.draws then some v else none, draws := s.draws + 1 }

/-- An access of the host. Only the 32 bytes from BLOCK_BASE on reach the block (R51), and only aligned 32-bit accesses
are defined (R57). -/
def hostAccess (a : HostAccess) (s : State) : Host.Outcome State Fault Refusal :=
  match a with
  | .read addr width =>
    if ¬(s.cfg.base ≤ addr ∧ addr < s.cfg.base + 32) then .refused .outsideWindow
    else if ¬(width = .word ∧ addr % 4 = 0) then .refused .narrowOrMisaligned
    else .next { s with readData := readReg (addr - s.cfg.base) s }
  | .write addr width v =>
    if ¬(s.cfg.base ≤ addr ∧ addr < s.cfg.base + 32) then .refused .outsideWindow
    else if ¬(width = .word ∧ addr % 4 = 0) then .refused .narrowOrMisaligned
    else .next (writeReg (addr - s.cfg.base) v s)

/-- A CMD write that waits ends as soon as it can: appended when there is room, discarded when the block is Halted
(R22, log 7). None where no write waits or it must wait on. -/
def settleWaiting (s : State) : Option State :=
  match s.waiting with
  | none => none
  | some v =>
    if halted s then some { s with waiting := none }
    else if s.fifo.length < s.cfg.depth then some { s with fifo := s.fifo ++ [v], waiting := none }
    else none

/-! ### Source memory, written by the host -/

/-- A host write to source memory becomes visible. While commands are queued or running it races their reads of that
byte (R64, R285, log 6). -/
def srcWrite (a : Word) (b : Byte) (s : State) : State :=
  { s with
    mem := Memory.write s.mem a.toNat b
    raced := if busy s then s.raced ++ [⟨a, s.fifo.length⟩] else s.raced }

/-! ### Who moves next -/

/-- One turn of the plan, the rest of it being `rest`. While a CMD write waits the host port is taken (R67), so a host
access waits behind it and the block moves (log 7). -/
def takeTurn (t : Turn) (rest : List Turn) (s : State) : Host.Outcome State Fault Refusal :=
  match t with
  | .host a => if s.waiting.isSome then .next (blockMove true s) else hostAccess a { s with plan := rest }
  | .srcWrite a b => .next (srcWrite a b { s with plan := rest })
  | .hardReset => .next (hardReset { s with plan := rest })
  | .block ready => .next (blockMove ready { s with plan := rest })

/-- What a step does: run a command whole, or end with an outcome. -/
inductive Move where
  | run (i : Instr) (s : State)
  | done (o : Host.Outcome State Fault Refusal)

/-- The move of a block that nothing in the environment disturbs: an idle block takes the packet at the FIFO head and
runs it whole; a command already under way goes one step; a block that can only wait stays as it is (log 4, log 13). -/
def quietMove (s : State) : Move :=
  match s.seq with
  | .idle =>
    match decode s.fifo with
    | .wait => .done (.next s)
    | .illegal rest => .done (.next (takeIllegal rest s))
    | .packet i rest => .run i (accept i rest s)
  | .exec _ => .done (.next (advance true s))
  | .halted => .done (.next s)

/-- Who moves next: a waiting CMD write that can end, the next turn of the plan, or the undisturbed block (log 4). -/
def nextMove (s : State) : Move :=
  match settleWaiting s with
  | some s' => .done (.next s')
  | none =>
    match s.plan with
    | t :: rest => .done (takeTurn t rest s)
    | [] => quietMove s

/-- The state with the packet `ws` at the FIFO head of an idle, undisturbed block (log 15). -/
def placePacket (ws : List Word) (s : State) : State :=
  { s with fifo := ws, seq := .idle, waiting := none, plan := [] }

end Sys2Proof.Machine
end

