-- ==== Sys2Proof/Machine/Step.lean ====
section
/-! DEFINITION. One step of the machine, and where its next instruction comes from. -/

namespace Sys2Proof.Machine

/-- One step: the move of whoever moves next; a packet the sequencer takes is run by `exec`. -/
def step (s : State) : Host.Outcome State Fault Refusal :=
  match nextMove s with
  | .run i s' => exec i s'
  | .done o => o

/-- `s` with the instruction of bits `w` as the packet at the FIFO head, so that the next step runs it (log 15). -/
def State.withFetchWord (s : State) (nbits w : Nat) : State := placePacket (tablePacket nbits w) s

end Sys2Proof.Machine
end

