-- ==== Sys2Proof/Machine/Assembler.lean ====
section
/-! DEFINITION. The text of the spec's assembler (spec/30_encoding.md R85): one packet per line, mnemonics
case-insensitive, operands separated by commas, `;` starting a comment. The ranges are checked in WellFormed.lean and
the words made in Decode.lean. No part of the block. -/

namespace Sys2Proof

namespace Asm

/-- The pieces of a line: a run of letters, digits, `_` and `-`; a character literal; punctuation. -/
inductive Lexeme where
  | word (cs : List Char)
  | char (c : Char)
  | comma
  | lparen
  | rparen
  | bad
  deriving DecidableEq, Repr

/-- The run read so far, if any, as a lexeme before `rest`. -/
def flush (run : List Char) (rest : List Lexeme) : List Lexeme :=
  if run.isEmpty then rest else .word run.reverse :: rest

/-- A character that may stand in a mnemonic or a number. -/
def wordChar (c : Char) : Bool := c.isAlphanum || c == '_' || c == '-'

/-- The lexemes of a line up to its comment; `run` is the run under way, last character first. -/
def lex : List Char → List Char → List Lexeme
  | run, [] => flush run []
  | run, '\'' :: c :: '\'' :: rest => flush run (.char c :: lex [] rest)
  | run, c :: rest =>
    if c == ';' then flush run []
    else if c == ' ' || c == '\t' then flush run (lex [] rest)
    else if c == ',' then flush run (.comma :: lex [] rest)
    else if c == '(' then flush run (.lparen :: lex [] rest)
    else if c == ')' then flush run (.rparen :: lex [] rest)
    else if wordChar c then lex (c :: run) rest
    else flush run [.bad]

/-- The value of a digit in base 10 or 16. -/
def digit (base : Nat) (c : Char) : Option Nat :=
  let v :=
    if c.isDigit then c.toNat - '0'.toNat
    else if 'a' ≤ c && c ≤ 'f' then c.toNat - 'a'.toNat + 10
    else if 'A' ≤ c && c ≤ 'F' then c.toNat - 'A'.toNat + 10
    else base
  if v < base then some v else none

/-- The number the digits spell, `acc` being the value so far. -/
def digits (base : Nat) : Nat → List Char → Option Nat
  | acc, [] => some acc
  | acc, c :: cs => (digit base c).bind fun d => digits base (acc * base + d) cs

/-- A number: decimal with an optional `-`, or hexadecimal `0x..` (R85). -/
def number (cs : List Char) : Option Int :=
  match cs with
  | [] => none
  | '0' :: 'x' :: c :: ds => (digits 16 0 (c :: ds)).map (↑·)
  | '-' :: c :: ds => (digits 10 0 (c :: ds)).map fun n => -(n : Int)
  | c :: ds => (digits 10 0 (c :: ds)).map (↑·)

/-- The value of a one-lexeme operand; `'A'` stands for its ASCII code (R85). -/
def value : Lexeme → Option Int
  | .word cs => number cs
  | .char c => if c.toNat < 128 then some c.toNat else none
  | _ => none

/-- Operands separated by commas: plain values. -/
def values : List Lexeme → Option (List Int)
  | [] => none
  | [a] => (value a).map fun n => [n]
  | a :: .comma :: rest => (value a).bind fun n => (values rest).map fun ns => n :: ns
  | _ => none

/-- The word's letters as capitals: mnemonics are case-insensitive. -/
def upper (cs : List Char) : List Char := cs.map Char.toUpper

/-- Operands whose last one is `font(...)`: the values before it and those inside. -/
def withFont : List Lexeme → Option (List Int × List Int)
  | .word f :: .lparen :: rest =>
    if upper f == "FONT".toList && rest.getLast? == some .rparen then
      (values rest.dropLast).map fun inner => ([], inner)
    else none
  | a :: .comma :: rest => (value a).bind fun n => (withFont rest).map fun (ns, inner) => (n :: ns, inner)
  | _ => none

/-- The line of a mnemonic and its operands (R85). -/
def lineOf (m : List Char) (ops : List Lexeme) : Option AsmLine :=
  if m == "NOP".toList then if ops.isEmpty then some .nop else none
  else if m == "FILL".toList then
    match values ops with
    | some [c] => some (.fill c)
    | _ => none
  else if m == "DRAW_PIXEL".toList then
    match values ops with
    | some [x, y, c] => some (.drawPixel x y c)
    | _ => none
  else if m == "DRAW_HLINE".toList then
    match values ops with
    | some [x, y, w, c] => some (.drawHLine x y w c)
    | _ => none
  else if m == "DRAW_VLINE".toList then
    match values ops with
    | some [x, y, h, c] => some (.drawVLine x y h c)
    | _ => none
  else if m == "DRAW_LINE".toList then
    match values ops with
    | some [x0, y0, x1, y1, c] => some (.drawLine x0 y0 x1 y1 c)
    | _ => none
  else if m == "DRAW_RECT".toList then
    match values ops with
    | some [x, y, w, h, c] => some (.drawRect x y w h c)
    | _ => none
  else if m == "DRAW_TEXT".toList then
    match withFont ops with
    | some ([text, x, y, fg, bg], [base, first, count, gh, gbw, fw]) =>
      some (.drawText text x y fg bg ⟨base, first, count, gh, gbw⟩ fw)
    | _ => none
  else if m == "LOOKUP_GLYPH".toList then
    match withFont ops with
    | some ([ch], [base, first, count, gh, gbw]) => some (.lookupGlyph ch ⟨base, first, count, gh, gbw⟩)
    | _ => none
  else none

/-- The line a text spells, none where it spells none (R85). -/
def parseLine (cs : List Char) : Option AsmLine :=
  match lex [] cs with
  | .word m :: ops => lineOf (upper m) ops
  | _ => none

end Asm

/-- The words of a line of assembler text (R85). -/
def assembleText (cs : List Char) : Option (List Word) := (Asm.parseLine cs).bind assemble

end Sys2Proof
end

