-- ==== Sys2Proof/Machine/Controller.lean ====
section
/-! DEFINITION. The controller-side reference reading of the token stream (spec/40_protocol.md R110-R115): a consumer
of the block, outside it and outside `State`, in whose terms a claim about pixels is stated. It assumes the controller
was initialised to 16-bit colour, column = x, row = y (R110, R281). -/

namespace Sys2Proof.Machine

namespace Controller

/-- One pixel write: column, row, colour (R113). -/
structure PixelWrite where
  col   : Nat
  row   : Nat
  color : Half
  deriving DecidableEq, Repr

/-- The phase (R111). `lost` stands for a phase the reading does not give: before the first command, and after `SEL` or
`DESEL` (R114; log 16). -/
inductive Phase where
  | lost
  | idle
  | casetParam (got : List Byte)
  | rasetParam (got : List Byte)
  | memWrite (held : Option Byte)
  deriving DecidableEq, Repr

/-- The controller's state in the reading (R111). `gram` lists the pixel writes, newest first: a cell that no write
names holds whatever it held at first (log 16). -/
structure Ctl where
  gram  : List PixelWrite
  xs    : Half
  xe    : Half
  ys    : Half
  ye    : Half
  px    : Nat
  py    : Nat
  phase : Phase
  deriving DecidableEq, Repr

/-- A case in which the reading gives no result (R114, R272). -/
inductive NoReading where
  /-- A pixel write below the window's last row. -/
  | beyondWindow
  /-- A memory write into an inverted or off-panel window, or of a cell that the panel does not have. -/
  | badWindow
  /-- An odd number of data bytes at the end of a memory write. -/
  | oddBytes
  /-- A data byte to which the phase gives no meaning: in a phase that `SEL` or `DESEL` left open, with no command
  before it, or in `Idle`, a fifth byte after an address command (DESIGN CHOICE, log 16; safe). -/
  | unknownPhase
  /-- A command byte other than the three. -/
  | otherCommand
  /-- `SEL` or `DESEL` before the last pixel of a memory write, so mid-command (R114, item 24 of
  93_implementation_defined.md): among others a transaction cut short by a reset (R272, item 26). -/
  | truncated
  deriving DecidableEq, Repr

/-- The colour the reading gives the cell `(col, row)`, none where no write named it. -/
def cell (g : List PixelWrite) (col row : Nat) : Option Half :=
  (g.find? fun w => w.col == col && w.row == row).map (·.color)

/-- `{hi, lo}`. -/
def pair (hi lo : Byte) : Half := hi ++ lo

/-- The window is on the panel and not inverted (R114). -/
def windowOk (c : Config) (k : Ctl) : Bool :=
  decide (k.xs ≤ k.xe ∧ k.ys ≤ k.ye ∧ k.xe.toNat < c.xMax ∧ k.ye.toNat < c.yMax)

/-- A memory write left with a held byte has an odd number of data bytes (R114). -/
def oddHeld (p : Phase) : Bool :=
  match p with
  | .memWrite (some _) => true
  | _ => false

/-- `GRAM[(px, py)] <- {hi, lo}` and the row-major increment (R113). The window is checked here too, since the open
state before the first token may be a memory write into any window (R111, R114). -/
def writePixel (c : Config) (hi lo : Byte) (k : Ctl) : Except NoReading Ctl :=
  if !windowOk c k || c.xMax ≤ k.px then .error .badWindow
  else if k.ye.toNat < k.py then .error .beyondWindow
  else
    let k1 := { k with gram := ⟨k.px, k.py, pair hi lo⟩ :: k.gram, phase := .memWrite none }
    if k.xe.toNat < k.px + 1 then .ok { k1 with px := k.xs.toNat, py := k.py + 1 }
    else .ok { k1 with px := k.px + 1 }

/-- A command byte (R112, R113). DESIGN CHOICE (log 16, unsafe): where two of the three parameters are the same byte,
which R7 allows, it is taken as OPC_CASET before OPC_RASET before OPC_RAMWR. DESIGN CHOICE (log 16, unsafe): a command
byte before the fourth parameter byte of an address command drops the parameter bytes received and leaves the pair of
coordinates as it was. -/
def onCommand (c : Config) (b : Byte) (k : Ctl) : Except NoReading Ctl :=
  if oddHeld k.phase then .error .oddBytes
  else if b = c.opcCaset then .ok { k with phase := .casetParam [] }
  else if b = c.opcRaset then .ok { k with phase := .rasetParam [] }
  else if b = c.opcRamwr then
    if windowOk c k then .ok { k with px := k.xs.toNat, py := k.ys.toNat, phase := .memWrite none }
    else .error .badWindow
  else .error .otherCommand

/-- A data byte (R112, R113). After the fourth parameter byte the pair of coordinates is set, big-endian. A data byte
in `Idle` has no meaning in the spec; DESIGN CHOICE (log 16, safe): the reading ends. -/
def onData (c : Config) (b : Byte) (k : Ctl) : Except NoReading Ctl :=
  match k.phase with
  | .casetParam [d0, d1, d2] => .ok { k with xs := pair d0 d1, xe := pair d2 b, phase := .idle }
  | .casetParam got => .ok { k with phase := .casetParam (got ++ [b]) }
  | .rasetParam [d0, d1, d2] => .ok { k with ys := pair d0 d1, ye := pair d2 b, phase := .idle }
  | .rasetParam got => .ok { k with phase := .rasetParam (got ++ [b]) }
  | .memWrite none => .ok { k with phase := .memWrite (some b) }
  | .memWrite (some hi) => writePixel c hi b k
  | .idle => .error .unknownPhase
  | .lost => .error .unknownPhase

/-- The end of a memory write at `SEL` or `DESEL`: after the window's last pixel the phase is left open (R114). A held
byte is an odd number of data bytes (R114), and any other place is mid-command (R114, R272; log 16). -/
def endWrite (k : Ctl) : Except NoReading Ctl :=
  match k.phase with
  | .memWrite (some _) => .error .oddBytes
  | .memWrite none => if k.ye.toNat < k.py then .ok { k with phase := .lost } else .error .truncated
  | .lost => .error .truncated
  | .idle => .error .truncated
  | .casetParam _ => .error .truncated
  | .rasetParam _ => .error .truncated

/-- `SEL`: between transactions it leaves the phase open, and elsewhere it has no reading (R114). -/
def onSelect (k : Ctl) : Except NoReading Ctl := if k.phase = .lost then .ok k else endWrite k

/-- `DESEL` (R114). -/
def onDeselect (k : Ctl) : Except NoReading Ctl := endWrite k

/-- One token. -/
def consume (c : Config) (k : Ctl) (t : Token) : Except NoReading Ctl :=
  match t with
  | .sel => onSelect k
  | .desel => onDeselect k
  | .cmd b => onCommand c b k
  | .dat b => onData c b k

/-- The reading of the tokens `ts` in the midst of a stream. -/
def readOn (c : Config) : Ctl → List Token → Except NoReading Ctl
  | k, [] => .ok k
  | k, t :: ts =>
    match consume c k t with
    | .ok k' => readOn c k' ts
    | .error e => .error e

/-- The controller before the first token of `ts`. Its phase is open (R111), and a stream that begins with `SEL` does
not depend on it: `SEL` would lose it, and a byte held from before the stream is none of the stream's. -/
def before (k : Ctl) (ts : List Token) : Ctl :=
  match ts with
  | .sel :: _ => { k with phase := .lost }
  | _ => k

/-- The reading of a stream by a controller that is in the state `k` before it. -/
def reading (c : Config) (k : Ctl) (ts : List Token) : Except NoReading Ctl := readOn c (before k ts) ts

/-- The pixel writes of one block transaction: `j` outer, `i` inner (R115). -/
def windowWrites (v : Window) (col : Half) : List PixelWrite :=
  (List.range v.h).flatMap fun j => (List.range v.w).map fun i => ⟨v.x.toNat + i, v.y.toNat + j, col⟩

end Controller

end Sys2Proof.Machine
end

