-- ==== Sys2Proof/Safety.lean ====
section
/-! DEFINITION. The words the claims are stated in: token streams as functions of the parameters, what a source read
finds, what a well-kept state is, and the shape of the output stream. No step uses them. -/

namespace Sys2Proof.Machine

/-- The state after `k` steps, none where one of them has no next state. -/
def stepMany : Nat → State → Option State
  | 0, s => some s
  | k + 1, s =>
    match step s with
    | .next t => stepMany k t
    | .fault _ => none
    | .refused _ => none

/-! ### Streams -/

/-- The output lines at rest, as they are outside a transaction (R34, R104). -/
def AtRest (s : State) : Prop := s.cs = .inactive ∧ s.dc = .data

/-- The state with `toks` emitted and nothing else changed. -/
def State.addOut (s : State) (toks : List Token) : State := { s with out := s.out ++ toks }

/-- The state with the command completed and `toks` emitted by it, nothing else changed. -/
def State.completed (s : State) (toks : List Token) : State := { s with out := s.out ++ toks, seq := .idle }

/-- A `CMD` token. -/
def Token.isCmd : Token → Bool
  | .cmd _ => true
  | _ => false

/-- A `DAT` token. -/
def Token.isDat : Token → Bool
  | .dat _ => true
  | _ => false

/-- What `draw_pixel_tx` emits: `PX(x, y; c)` on-panel, nothing off-panel (R152). -/
def pixelStream (c : Config) (x y : Int) (col : Half) : List Token :=
  if 0 ≤ x ∧ x < c.xMax ∧ 0 ≤ y ∧ y < c.yMax then txTokens c ⟨x, y, 1, 1⟩ col else []

/-- What the pixel transactions of the points `ps` emit, in order (R169). -/
def pointsStream (c : Config) (ps : List (Int × Int)) (col : Half) : List Token :=
  ps.flatMap fun p => pixelStream c p.1 p.2 col

/-- What `hline` emits: `min(w, X_MAX - x)` pixels from an on-panel start, nothing for an off-panel start or `w = 0`
(R155). -/
def hlineStream (c : Config) (x y : Int) (w : Nat) (col : Half) : List Token :=
  if (0 ≤ x ∧ x < c.xMax ∧ 0 ≤ y ∧ y < c.yMax) ∧ w ≠ 0 then
    txTokens c ⟨x, y, min w (c.xMax - x).toNat, 1⟩ col
  else []

/-- What `vline` emits: `min(h, Y_MAX - y)` pixels from an on-panel start, nothing for an off-panel start or `h = 0`
(R159). -/
def vlineStream (c : Config) (x y : Int) (h : Nat) (col : Half) : List Token :=
  if (0 ≤ x ∧ x < c.xMax ∧ 0 ≤ y ∧ y < c.yMax) ∧ h ≠ 0 then
    txTokens c ⟨x, y, 1, min h (c.yMax - y).toNat⟩ col
  else []

/-- What a rectangle emits: the transaction of a window that is wholly on the panel and not empty, nothing otherwise
(R131, R175). -/
def rectStream (c : Config) (x y : Int) (w h : Nat) (col : Half) : List Token :=
  if 0 ≤ x ∧ 1 ≤ w ∧ x + w - 1 < c.xMax ∧ 0 ≤ y ∧ 1 ≤ h ∧ y + h - 1 < c.yMax then txTokens c ⟨x, y, w, h⟩ col
  else []

/-- The points of a diagonal line in closed form: primary coordinate `p0 + k`, and the secondary one moved by `ystep` as
often as `err` has gone negative in `k` decrements (R166, R167). -/
def linePoint (steep : Bool) (p0 y0 dx dy ystep : Int) (k : Nat) : Int × Int :=
  let y := y0 + ystep * ((k * dy + (dx - 1 - dx / 2)) / dx)
  if steep then (y, p0 + k) else (p0 + k, y)

/-! ### Text -/

/-- A read of `a` succeeds and returns the byte `b` of memory, no host write racing it (R54, R64). -/
def ReadsAs (s : State) (a : Word) (b : Byte) : Prop :=
  srcReadable s.cfg a = true ∧ racing s a = false ∧ Memory.read s.mem a.toNat = b

/-- The characters `cs` stand at `p` on (R208). -/
def HasChars (s : State) : Word → List Byte → Prop
  | _, [] => True
  | p, c :: cs => c ≠ 0x00 ∧ ReadsAs s p c ∧ HasChars s (p + 1) cs

/-- The address after `n` characters from `p`, modulo 2^32 (R53, R208). -/
def textEnd (p : Word) (n : Nat) : Word := p + BitVec.ofNat 32 n

/-- The text at `p` is the characters `cs` and their terminator (R208). -/
def HasText (s : State) (p : Word) (cs : List Byte) : Prop :=
  HasChars s p cs ∧ ReadsAs s (textEnd p cs.length) 0x00

/-- `FIRST <= c < FIRST + COUNT` on exact integers (R202). -/
def inTable (t : GlyphTable) (ch : Byte) : Bool :=
  decide (t.first.toNat ≤ ch.toNat ∧ ch.toNat < t.first.toNat + t.count.toNat)

/-- The address of the byte of display row `r` of the glyph of `ch`: stored row GH - 1 - r (R215). -/
def rowAddr (t : GlyphTable) (ch : Byte) (r : Nat) : Word :=
  BitVec.ofInt 32 (t.base.toNat + ((ch.toNat : Int) - t.first.toNat) * t.gh.toNat * t.gbw.toNat
    + ((t.gh.toNat : Int) - 1 - r) * t.gbw.toNat)

/-- The row bytes of every character of `cs` that the table has can be read (R211). -/
def GlyphsReadable (s : State) (t : GlyphTable) (cs : List Byte) : Prop :=
  ∀ ch ∈ cs, inTable t ch = true → ∀ r < t.gh.toNat,
    srcReadable s.cfg (rowAddr t ch r) = true ∧ racing s (rowAddr t ch r) = false

/-- The colour of column `col` of display row `row` of a character: bit 7 - col of the row byte (R210, R215). -/
def cellColor (s : State) (a : TextArgs) (ch : Byte) (row col : Nat) : Half :=
  if (Memory.read s.mem (rowAddr a.table ch row).toNat).getLsbD (7 - col) then a.fg else a.bg

/-- What the first `n` display rows of a found character at cursor `cx` emit: rows top to bottom, columns left to
right (R207, R212). -/
def glyphRows (s : State) (a : TextArgs) (cx : Int) (ch : Byte) (n : Nat) : List Token :=
  (List.range n).flatMap fun (row : Nat) =>
    (List.range a.fw.toNat).flatMap fun (col : Nat) =>
      pixelStream s.cfg (cx + col) (a.y.toInt + row) (cellColor s a ch row col)

/-- What the characters `cs` emit from cursor `cx` on; a character the table lacks has zero width (R207, R209), and the
cursor is a signed 32-bit register that wraps (R214). -/
def textStream (s : State) (a : TextArgs) : Word → List Byte → List Token
  | _, [] => []
  | cx, ch :: cs =>
    if inTable a.table ch then
      glyphRows s a cx.toInt ch a.table.gh.toNat ++ textStream s a (cx + a.fw.setWidth 32) cs
    else textStream s a cx cs

/-- How many characters of `cs` the table has. -/
def foundCount (t : GlyphTable) (cs : List Byte) : Nat := (cs.filter (inTable t)).length

/-- The cursor of a text draw after the characters `cs`: `sext_16(X)` and FW for each found one, modulo 2^32 (R214). -/
def cursorAfter (a : TextArgs) (cs : List Byte) : Word :=
  a.x.signExtend 32 + BitVec.ofNat 32 (a.fw.toNat * foundCount a.table cs)

/-! ### Well-kept states -/

/-- The lines are as the sequencer says: at rest outside a transaction, selected within one, `dc = command` only
before a command byte (R34, R104, R106). -/
def linesOk (c : Config) (q : Seq) (cs : SelectLine) (dc : DataLine) : Bool :=
  match q with
  | .exec ⟨some t, _⟩ =>
    match t.pos with
    | .select => cs == .inactive && dc == .data
    | .window k =>
      cs == .active && (dc == .data || match (windowTokens c t.win)[k]? with
        | some (.cmd _) => true
        | _ => false)
    | _ => cs == .active && dc == .data
  | _ => cs == .inactive && dc == .data

/-- The transaction under way has an accepted window, a place inside `set_window`, and no more pixels left than the
window holds, nor none (R131, R134). -/
def txOk (c : Config) (t : Tx) : Bool :=
  winOk c t.win &&
    match t.pos with
    | .window k => decide (k ≤ 10)
    | .colorHi n => decide (1 ≤ n ∧ n ≤ t.win.w * t.win.h)
    | .colorLo n => decide (1 ≤ n ∧ n ≤ t.win.w * t.win.h)
    | _ => true

/-- The stepper's bounds (R167): `1 ≤ dy ≤ dx`, `0 ≤ err < dx`, a unit step, and a primary coordinate no further than
one past the last. -/
def stepperOk (st : Stepper) : Bool :=
  decide (1 ≤ st.dy ∧ st.dy ≤ st.dx ∧ 0 ≤ st.err ∧ st.err < st.dx ∧ st.p ≤ st.last + 1
    ∧ (st.ystep = 1 ∨ st.ystep = -1))

/-- The counters of a text draw are in range; a font wider than 8 has been refused (R207). -/
def textPointOk (a : TextArgs) (pt : TextPoint) : Bool :=
  match pt with
  | .start => true
  | .char _ _ => decide (a.fw.toNat ≤ 8)
  | .row _ _ _ row => decide (a.fw.toNat ≤ 8 ∧ row ≤ a.table.gh.toNat)
  | .col _ _ _ row _ col => decide (a.fw.toNat ≤ 8 ∧ row < a.table.gh.toNat ∧ col ≤ a.fw.toNat)

/-- The task belongs to the command in the latch. -/
def taskOk (i : Instr) (k : Task) : Bool :=
  match k with
  | .finish => true
  | .diagonal st => stepperOk st
  | .text pt =>
    match i with
    | .drawText a => textPointOk a pt
    | _ => false

/-- The working state is in order (R37). -/
def workOk (c : Config) (i : Instr) (q : Seq) : Bool :=
  match q with
  | .exec w => w.tx.all (txOk c) && taskOk i w.task
  | _ => true

/-- The fault code: 1, 2 or 3 when Halted, 0 otherwise (R243). -/
def codeOk (q : Seq) (code : BitVec 4) : Bool :=
  if q = .halted then code == 1 || code == 2 || code == 3 else code == 0

/-- A well-kept state. -/
structure Inv (s : State) : Prop where
  /-- The parameters are legal (R7). -/
  config : s.cfg.wf = true
  /-- The FIFO holds at most CMDQ_DEPTH words (R29). -/
  fifo   : s.fifo.length ≤ s.cfg.depth
  /-- Source memory is in canonical form. -/
  memory : Memory.wf s.mem = true
  /-- The output lines are as the sequencer says (R34, R104, R106). -/
  lines  : linesOk s.cfg s.seq s.cs s.dc = true
  /-- The working state is in order (R37, R167). -/
  work   : workOk s.cfg s.latch s.seq = true
  /-- The fault code is one of R243. -/
  code   : codeOk s.seq s.faultCode = true

/-! ### The shape of the stream -/

/-- The tokens of a transaction under way that have been emitted (R106, R136). -/
def sentTokens (c : Config) (t : Tx) : List Token :=
  match t.pos with
  | .select => []
  | .window k => .sel :: (windowTokens c t.win).take k
  | .colorHi n => .sel :: windowTokens c t.win ++ colorTokens t.color (t.win.w * t.win.h - n)
  | .colorLo n =>
    .sel :: windowTokens c t.win ++ colorTokens t.color (t.win.w * t.win.h - n) ++ [.dat (hi8 t.color)]
  | .deselect => .sel :: windowTokens c t.win ++ colorTokens t.color (t.win.w * t.win.h)

/-- The tokens of the transaction under way, none outside one. -/
def openTokens (s : State) : List Token :=
  match s.seq with
  | .exec ⟨some t, _⟩ => sentTokens s.cfg t
  | _ => []

/-- The stream since the last reset is whole transactions of accepted windows, in the form of R106, and then the
transaction under way so far. -/
def WholeTransactions (s : State) : Prop :=
  s.outBase ≤ s.out.length ∧ ∃ txs : List (Window × Half), (∀ t ∈ txs, winOk s.cfg t.1 = true) ∧
    s.out.drop s.outBase = (txs.flatMap fun t => txTokens s.cfg t.1 t.2) ++ openTokens s

/-- A turn of the plan that resets the block: the reset input, or a CTRL write with bit 0 set (R270, R271). -/
def Turn.resets (c : Config) (t : Turn) : Bool :=
  match t with
  | .hardReset => true
  | .host (.write addr .word v) => addr == c.base + 0x10 && v.getLsbD 0
  | _ => false

/-- The bits of each word of a packet that its format uses; the others are ignored (R73-R79, R82). -/
def usedBits : Instr → List Word
  | .nop => [0xFF000000]
  | .fill _ => [0xFF00FFFF]
  | .drawPixel _ _ _ => [0xFF00FFFF, 0xFFFFFFFF]
  | .drawHLine _ _ _ _ => [0xFF00FFFF, 0xFFFFFFFF, 0xFFFF0000]
  | .drawVLine _ _ _ _ => [0xFF00FFFF, 0xFFFFFFFF, 0x0000FFFF]
  | .drawLine _ _ _ _ _ => [0xFF00FFFF, 0xFFFFFFFF, 0xFFFFFFFF]
  | .drawRect _ _ _ _ _ => [0xFF00FFFF, 0xFFFFFFFF, 0xFFFFFFFF]
  | .drawText _ => [0xFFFFFFFF, 0xFFFFFFFF, 0xFFFFFFFF, 0xFFFFFFFF, 0xFFFFFFFF, 0xFF00FFFF]
  | .lookupGlyph _ _ => [0xFFFFFFFF, 0xFFFFFFFF, 0xFF00FFFF]

/-- The words of a packet with its ignored bits cleared (R82). -/
def clearIgnored (i : Instr) (ps : List Word) : List Word := List.zipWith (· &&& ·) ps (usedBits i)

end Sys2Proof.Machine
end

