-- ==== Sys2Proof/Certificates/Slice0/Obligations.lean ====
section
/-! DEFINITION. The statements for the provers. Each docstring names the rule of spec/ it formalises. -/

open Sys2Proof Sys2Proof.Machine

/-! ### Encoding -/

/-- Decoding the packet of an instruction gives it back, whatever follows in the FIFO (R72-R79, R81, R83). -/
def Obligations.DecodeOfEncode : Prop :=
  ∀ (i : Instr) (rest : List Word), decode (encode i ++ rest) = .packet i rest

/-- A packet the decoder accepts is the packet of the instruction it gives, but for ignored bits (R73-R79, R82). -/
def Obligations.EncodeOfDecodeClearsIgnoredBits : Prop :=
  ∀ (ws rest : List Word) (i : Instr), decode ws = .packet i rest →
    ∃ ps, ws = ps ++ rest ∧ ps.length = (encode i).length ∧ encode i = clearIgnored i ps

/-- "a packet with non-zero ignored bits behaves exactly as the same packet with those bits zero" (R82). -/
def Obligations.IgnoredBitsChangeNothing : Prop :=
  ∀ (ps rest : List Word) (i : Instr), decode (ps ++ rest) = .packet i rest →
    decode (clearIgnored i ps ++ rest) = .packet i rest

/-- The opcode alone decides whether a header is illegal and how many words the packet has; the sequencer waits until
they are present (R80, R83, R88). -/
def Obligations.DecodeByOpcodeAndLength : Prop :=
  decode [] = .wait ∧ ∀ (w0 : Word) (ws : List Word),
    (packetLen (byte3 w0) = none ↔ 0x09 ≤ (byte3 w0).toNat) ∧
    (packetLen (byte3 w0) = none → decode (w0 :: ws) = .illegal ws) ∧
    ∀ n, packetLen (byte3 w0) = some n →
      (ws.length + 1 < n → decode (w0 :: ws) = .wait) ∧
      (n ≤ ws.length + 1 → ∃ i : Instr, i.opc = byte3 w0 ∧ decode (w0 :: ws) = .packet i ((w0 :: ws).drop n))

/-- "For every row, `W0 & mask == match` selects the opcode" (R84). -/
def Obligations.OpcodeRowsSelectByMask : Prop :=
  ∀ (w0 : Word), ∀ r ∈ opcodeMap,
    (r.selects w0 = true ↔ byte3 w0 = r.opc) ∧ (r.selects w0 = true → packetLen (byte3 w0) = some r.len)

/-- The worked encodings of R87: the words of each line, and what they decode to. The model's choice: log 17. -/
def Obligations.WorkedEncodings : Prop :=
  (decode [0x00000000] = .packet .nop [] ∧ assembleText "NOP".toList = some [0x00000000]) ∧
  (decode [0x01000000] = .packet (.fill 0x0000) [] ∧ assembleText "FILL 0x0000".toList = some [0x01000000]) ∧
  (decode [0x0200F800, 0x000A0014] = .packet (.drawPixel 10 20 0xF800) [] ∧
    assembleText "DRAW_PIXEL 10, 20, 0xF800".toList = some [0x0200F800, 0x000A0014]) ∧
  (decode [0x030007E0, 0x00EB0007, 0x000A0000] = .packet (.drawHLine 235 7 10 0x07E0) [] ∧
    assembleText "DRAW_HLINE 235, 7, 10, 0x07E0".toList = some [0x030007E0, 0x00EB0007, 0x000A0000]) ∧
  (decode [0x0400001F, 0x0003012C, 0x00000032] = .packet (.drawVLine 3 300 50 0x001F) [] ∧
    assembleText "DRAW_VLINE 3, 300, 50, 0x001F".toList = some [0x0400001F, 0x0003012C, 0x00000032]) ∧
  (decode [0x0500FFFF, 0x00000000, 0x000A0005] = .packet (.drawLine 0 0 10 5 0xFFFF) [] ∧
    assembleText "DRAW_LINE 0, 0, 10, 5, 0xFFFF".toList = some [0x0500FFFF, 0x00000000, 0x000A0005]) ∧
  (decode [0x0600001F, 0xFFFF0000, 0x00050005] = .packet (.drawRect 0xFFFF 0 5 5 0x001F) [] ∧
    assembleText "DRAW_RECT -1, 0, 5, 5, 0x001F".toList = some [0x0600001F, 0xFFFF0000, 0x00050005]) ∧
  (decode [0x07080801, 0xFFFF0000, 0x00000000, 0x20000000, 0x20001000, 0x2000005F] =
      .packet (.drawText { table := ⟨0x20001000, 0x20, 95, 8, 1⟩, fw := 8, fg := 0xFFFF, bg := 0x0000
                           x := 0, y := 0, text := 0x20000000 }) [] ∧
    assembleText
      "DRAW_TEXT 0x20000000, 0, 0, 0xFFFF, 0x0000, font(0x20001000, 0x20, 95, 8, 1, 8)".toList =
      some [0x07080801, 0xFFFF0000, 0x00000000, 0x20000000, 0x20001000, 0x2000005F]) ∧
  (decode [0x08410801, 0x20001000, 0x2000005F] =
      .packet (.lookupGlyph 0x41 ⟨0x20001000, 0x20, 95, 8, 1⟩) [] ∧
    assembleText "LOOKUP_GLYPH 'A', font(0x20001000, 0x20, 95, 8, 1)".toList =
      some [0x08410801, 0x20001000, 0x2000005F])

/-- The assembler makes words exactly of the lines whose operands are in range, and an operand in range reads back as
the number written: coordinates above 32767 are raw bits (R85, R81), in decimal too (the model's choice: log 17). -/
def Obligations.AssemblerRanges : Prop :=
  (∀ l : AsmLine, (assemble l = none ↔ l.wellFormed = false) ∧
    (l.wellFormed = true → ∀ rest, ∃ ws, assemble l = some ws ∧ decode (ws ++ rest) = .packet l.instr rest)) ∧
  (∀ n : Int, Asm.coordOk n = true → sext16 (Asm.half n) = if n ≤ 32767 then n else n - 65536) ∧
  (∀ n : Int, Asm.halfOk n = true → (zext16 (Asm.half n) : Int) = n) ∧
  (∀ n : Int, Asm.byteOk n = true → (zext8 (Asm.byte n) : Int) = n) ∧
  (∀ n : Int, Asm.addrOk n = true → ((Asm.addr n).toNat : Int) = n)

/-! ### The sequencer -/

/-- A step of an idle, undisturbed block whose FIFO starts with a whole packet runs `exec` of its instruction, the
packet's words removed, the instruction in the latch, the sequencer executing (R31). A move of the block, and so a
`block` turn of the plan, takes the packet and runs nothing of it yet. What happens to a CMD write that waits is
`WaitingWriteEnters`. The model's choice: log 4, log 6. -/
def Obligations.StepRunsDecodedPacket : Prop :=
  ∀ (s : State) (i : Instr) (rest : List Word),
    s.seq = .idle → s.waiting = none → decode s.fifo = .packet i rest →
    (s.plan = [] → step s = exec i (accept i rest s)) ∧
    (∀ ready, blockMove ready s = accept i rest s) ∧
    (∀ ready p, s.plan = .block ready :: p → step s = .next (accept i rest { s with plan := p })) ∧
    accept i rest s =
      { s with
        fifo := rest, latch := i, seq := .exec (startWork s.cfg i)
        raced := s.raced.filterMap (RaceMark.afterPacket (encode i).length) }

/-- A FIFO that holds no whole packet keeps the sequencer Idle; BUSY is 1 while it holds a packet's first words (R31,
R287). The model's choice: log 4, log 13. -/
def Obligations.PacketPrefixWaits : Prop :=
  ∀ s : State, s.seq = .idle → s.waiting = none → s.plan = [] → decode s.fifo = .wait →
    step s = .next s ∧ (∀ ready, blockMove ready s = s) ∧ (busy s = true ↔ s.fifo ≠ [])

/-- A step of an executing command (R14, R31, R107): an undisturbed step is one `advance` with the transport and the
read port ready, and a `block` turn of the plan one `advance` as the turn says they are; also while a CMD write waits
on a full FIFO. The model's choice: log 4, log 5. -/
def Obligations.StepAdvancesTheCommand : Prop :=
  ∀ (s : State) (w : Work), s.seq = .exec w → (s.waiting = none ∨ s.cfg.depth ≤ s.fifo.length) →
    (s.plan = [] → step s = .next (advance true s)) ∧
    (∀ ready p, s.plan = .block ready :: p → step s = .next (advance ready { s with plan := p }))

/-- Fault 1 (R245): the illegal header word is removed, nothing is emitted, no further word is waited for. Where a CMD
write waits on the full FIFO it ends, its word appended or discarded as the free bit says, and all else is the same.
The model's choice: log 4, log 9. -/
def Obligations.IllegalOpcodeFaults : Prop :=
  ∀ (s : State) (w0 : Word) (ws : List Word),
    s.seq = .idle → s.cs = .inactive → s.fifo = w0 :: ws → 0x09 ≤ (byte3 w0).toNat →
    let becomes := fun t : State => (s.plan = [] → step s = .next t) ∧ (∀ ready, blockMove ready s = t) ∧
      ∀ ready p, s.plan = .block ready :: p → step s = .next { t with plan := p }
    (s.waiting = none → becomes { s with fifo := ws, faultCode := 1, seq := .halted }) ∧
    ∀ v, s.waiting = some v → s.cfg.depth ≤ s.fifo.length → ∃ q, (q = ws ∨ q = ws ++ [v]) ∧
      becomes { s with fifo := q, waiting := none, draws := s.draws + 1, faultCode := 1, seq := .halted }

/-- While Halted the sequencer consumes nothing, CMD writes are discarded and complete at once, STATUS shows BUSY 0 and
FAULT 1, FIFO_FULL and FIFO_EMPTY as the FIFO holds, the result registers read as they are, and `cs` is inactive
(R251; the last in a well-kept state, the others in every state). The model's choice: log 4, log 7, log 13. -/
def Obligations.HaltedBlockStands : Prop :=
  ∀ s : State, s.seq = .halted →
    (s.waiting = none → s.plan = [] → step s = .next s) ∧
    (∀ ready, blockMove ready s = s) ∧
    (∀ v, writeReg 0x00 v s = s) ∧
    (∀ v, s.waiting = some v → step s = .next { s with waiting := none }) ∧
    (status s).getLsbD 0 = false ∧ (status s).getLsbD 3 = true ∧
    ((status s).getLsbD 1 = true ↔ s.fifo.length = s.cfg.depth) ∧ ((status s).getLsbD 2 = true ↔ s.fifo = []) ∧
    readReg 0x08 s = s.lookup.addr ∧ readReg 0x0C s = s.resultX ∧ (Inv s → s.cs = .inactive)

/-- "The only way out of Halted is a reset" (R252): any other step leaves the block halted with its code, its stream,
its FIFO and its results. The model's choice: log 4. -/
def Obligations.OnlyResetLeavesHalted : Prop :=
  ∀ s s' : State, s.seq = .halted → (∀ t ∈ s.plan.head?, t.resets s.cfg = false) → step s = .next s' →
    s'.seq = .halted ∧ s'.faultCode = s.faultCode ∧ s'.out = s.out ∧ s'.fifo = s.fifo ∧ s'.lookup = s.lookup ∧
      s'.resultX = s.resultX

/-- The meaning of a command is what its observable steps add up to (R14, R31, R290): from the state in which the
sequencer has taken the packet, finitely many steps with the transport and the read port ready reach the state `exec`
answers. The model's choice: log 4, log 5, log 14. -/
def Obligations.CommandRunsAsItsSteps : Prop :=
  ∀ (i : Instr) (rest : List Word) (s : State), s.cfg.wf = true → AtRest s →
    ∃ (k : Nat) (t : State), exec i (accept i rest s) = .next t ∧ advanceMany k (accept i rest s) = t

/-- No command stops the machine: the block's faults are states (R240, R243, R250). The model's choice: log 13 (no
`Fault`) and log 14 (a text that never ends is left running, R290). -/
def Obligations.EveryCommandAnswersNext : Prop :=
  ∀ (i : Instr) (s : State), ∃ t, exec i s = .next t

/-- Each step of an executing command emits at most one token (R14). The model's choice: log 5. -/
def Obligations.AdvanceEmitsAtMostOneToken : Prop :=
  ∀ (ready : Bool) (s : State), (advance ready s).out = s.out ∨ ∃ t, (advance ready s).out = s.out ++ [t]

/-- While the transport does not accept and the platform does not answer, no byte is emitted and no source byte is
read: a byte token that is due, and a text or row byte that is to be read, keep the block where it is. `SEL` and
`DESEL` do not wait (R107, R54).
The model's choice: log 5, log 13. -/
def Obligations.StalledBlockEmitsNoByte : Prop :=
  ∀ s : State,
    ((advance false s).out = s.out ∨ (advance false s).out = s.out ++ [.sel] ∨
      (advance false s).out = s.out ++ [.desel]) ∧
    (advance false s).draws = s.draws ∧
    (∀ t task n, s.seq = .exec ⟨some t, task⟩ → t.pos = .colorHi n ∨ t.pos = .colorLo n → advance false s = s) ∧
    (∀ t task k, s.seq = .exec ⟨some t, task⟩ → t.pos = .window k →
      advance false s = s ∨ advance false s = { s with dc := .command }) ∧
    (∀ t task, s.seq = .exec ⟨some t, task⟩ → t.pos = .select → (advance false s).out = s.out ++ [.sel]) ∧
    (∀ t task, s.seq = .exec ⟨some t, task⟩ → t.pos = .deselect → (advance false s).out = s.out ++ [.desel]) ∧
    (∀ a p cx, s.latch = .drawText a → s.seq = .exec ⟨none, .text (.char p cx)⟩ → advance false s = s) ∧
    (∀ a p cx ref row, s.latch = .drawText a → s.seq = .exec ⟨none, .text (.row p cx ref row)⟩ →
      row < a.table.gh.toNat → advance false s = s)

/-! ### Invariants -/

/-- The state after reset is well kept, for every legal configuration (R40, R275), and its stream has the shape of
R106. The model's choice: log 12. -/
def Obligations.ResetIsWellKept : Prop :=
  Inv State.reset ∧ (∀ c : Config, c.wf = true → Inv (State.resetOf c) ∧ WholeTransactions (State.resetOf c))

/-- Every step keeps a well-kept state well kept. -/
def Obligations.StepKeepsInv : Prop :=
  ∀ s s' : State, Inv s → step s = .next s' → Inv s'

/-- Every step keeps the shape of R106: since the last reset, whole transactions in one form, never nested, and then the
one under way. The model's choice: log 12. -/
def Obligations.StepKeepsWholeTransactions : Prop :=
  ∀ s s' : State, Inv s → WholeTransactions s → step s = .next s' → WholeTransactions s'

/-- "No register changes them at run time" (R282): no step changes the build-time parameters. -/
def Obligations.StepKeepsParameters : Prop :=
  ∀ s s' : State, step s = .next s' → s'.cfg = s.cfg

/-- A token once emitted stays in the stream in its place (R14, R101, R249). The model's choice: log 12, a reset keeps the
stream. -/
def Obligations.StreamOnlyGrows : Prop :=
  ∀ s s' : State, step s = .next s' → s.out <+: s'.out

/-! ### Output primitives and the window unit -/

/-- `set_window` on an accepted window: the eleven tokens of R131 with each coordinate as two bytes, high byte first
(R58, R132); no `SEL` or `DESEL` (R133); a rejected window emits nothing. -/
def Obligations.SetWindowTokens : Prop :=
  ∀ (x y : Int) (w h : Nat) (s : State), s.dc = .data →
    (0 ≤ x ∧ 1 ≤ w ∧ x + w - 1 < s.cfg.xMax ∧ 0 ≤ y ∧ 1 ≤ h ∧ y + h - 1 < s.cfg.yMax →
      setWindow ⟨x, y, w, h⟩ s = (true, s.addOut
        [.cmd s.cfg.opcCaset, .dat (BitVec.ofInt 8 (x / 256)), .dat (BitVec.ofInt 8 x),
         .dat (BitVec.ofInt 8 ((x + w - 1) / 256)), .dat (BitVec.ofInt 8 (x + w - 1)),
         .cmd s.cfg.opcRaset, .dat (BitVec.ofInt 8 (y / 256)), .dat (BitVec.ofInt 8 y),
         .dat (BitVec.ofInt 8 ((y + h - 1) / 256)), .dat (BitVec.ofInt 8 (y + h - 1)),
         .cmd s.cfg.opcRamwr])) ∧
    (¬(0 ≤ x ∧ 1 ≤ w ∧ x + w - 1 < s.cfg.xMax ∧ 0 ≤ y ∧ 1 ≤ h ∧ y + h - 1 < s.cfg.yMax) →
      setWindow ⟨x, y, w, h⟩ s = (false, s))

/-- `send16` is big-endian, and the four coordinates of an accepted window are in `0..X_MAX-1` or `0..Y_MAX-1`, at most
65534, so that "`enc16` never truncates" (R132). -/
def Obligations.WindowCoordinatesFit : Prop :=
  (∀ (n : Int) (s : State), send16 n s = s.addOut [.dat (hi8 (enc16 n)), .dat (lo8 (enc16 n))]) ∧
  ∀ (c : Config) (v : Window), c.wf = true → winOk c v = true →
    (∀ n ∈ [v.x, v.x + v.w - 1], 0 ≤ n ∧ n ≤ c.xMax - 1) ∧ (∀ n ∈ [v.y, v.y + v.h - 1], 0 ≤ n ∧ n ≤ c.yMax - 1) ∧
    ∀ n ∈ [v.x, v.x + v.w - 1, v.y, v.y + v.h - 1], n ≤ 65534 ∧ ((enc16 n).toNat : Int) = n

/-- `window_tx` (R136): an accepted window is one transaction of `3 + 8 + 2·w·h` byte tokens, 3 of them commands,
between `SEL` and `DESEL`; a rejected one is nothing at all. -/
def Obligations.WindowTransaction : Prop :=
  ∀ (v : Window) (c : Half) (s : State), AtRest s →
    (winOk s.cfg v = true →
      ∃ bytes : List Token, windowTx v c s = s.addOut (.sel :: bytes ++ [.desel]) ∧
        bytes = windowTokens s.cfg v ++ (List.replicate (v.w * v.h) [Token.dat (hi8 c), Token.dat (lo8 c)]).flatten ∧
        bytes.length = 3 + 8 + 2 * (v.w * v.h) ∧
        (bytes.filter Token.isCmd).length = 3 ∧
        (bytes.filter Token.isDat).length = 8 + 2 * (v.w * v.h)) ∧
    (winOk s.cfg v = false → windowTx v c s = s)

/-! ### The rasterizer -/

/-- NOP (R108): every header word with opcode 0 is one, W0[23:0] ignored; no token, no register; only the sequencer
returns to Idle, one FIFO word consumed. -/
def Obligations.NopDoesNothing : Prop :=
  (∀ (w0 : Word) (ws : List Word), byte3 w0 = 0x00 → decode (w0 :: ws) = .packet .nop ws) ∧
  ∀ (w0 : Word) (ws : List Word) (s : State), byte3 w0 = 0x00 → s.fifo = w0 :: ws → s.waiting = none →
    exec .nop (accept .nop ws s) = .next { accept .nop ws s with seq := .idle } ∧ (accept .nop ws s).fifo = ws ∧
    (accept .nop ws s).out = s.out ∧ (accept .nop ws s).lookup = s.lookup ∧
    (accept .nop ws s).resultX = s.resultX

/-- FILL (R150): one transaction of the whole panel, never rejected, the stream of DRAW_RECT 0, 0, X_MAX, Y_MAX. -/
def Obligations.FillStreamsThePanel : Prop :=
  ∀ (c : Half) (s : State), s.cfg.wf = true → AtRest s →
    exec (.fill c) s = .next (s.completed (txTokens s.cfg ⟨0, 0, s.cfg.xMax, s.cfg.yMax⟩ c)) ∧
    exec (.drawRect 0 0 (BitVec.ofNat 16 s.cfg.xMax) (BitVec.ofNat 16 s.cfg.yMax) c) s = exec (.fill c) s

/-- DRAW_PIXEL (R151, R152): one pixel transaction on-panel, nothing off-panel. -/
def Obligations.PixelDrawnOnPanelOnly : Prop :=
  ∀ (x y c : Half) (s : State), AtRest s →
    exec (.drawPixel x y c) s = .next (s.completed (pixelStream s.cfg x.toInt y.toInt c))

/-- DRAW_HLINE (R155): from an on-panel start, `min(w, X_MAX - x)` pixels; otherwise nothing. -/
def Obligations.HLineClipsAtTheEdge : Prop :=
  ∀ (x y w c : Half) (s : State), AtRest s →
    exec (.drawHLine x y w c) s = .next (s.completed (hlineStream s.cfg x.toInt y.toInt w.toNat c))

/-- DRAW_VLINE (R159): from an on-panel start, `min(h, Y_MAX - y)` pixels; otherwise nothing. -/
def Obligations.VLineClipsAtTheEdge : Prop :=
  ∀ (x y h c : Half) (s : State), AtRest s →
    exec (.drawVLine x y h c) s = .next (s.completed (vlineStream s.cfg x.toInt y.toInt h.toNat c))

/-- DRAW_RECT (R175): the rectangle whole if it is on the panel and not empty, otherwise nothing at all. -/
def Obligations.RectangleWholeOrNothing : Prop :=
  ∀ (x y w h c : Half) (s : State), AtRest s →
    exec (.drawRect x y w h c) s = .next (s.completed (rectStream s.cfg x.toInt y.toInt w.toNat h.toNat c))

/-- DRAW_LINE on an axis (R163, R164): the vertical line with both endpoints, or the horizontal one. -/
def Obligations.AxisLineIsHOrVLine : Prop :=
  ∀ (x0 y0 x1 y1 c : Half) (s : State), AtRest s →
    (x0 = x1 → exec (.drawLine x0 y0 x1 y1 c) s = .next (s.completed
      (vlineStream s.cfg x0.toInt (min y0.toInt y1.toInt) ((y1.toInt - y0.toInt).natAbs + 1) c))) ∧
    (y0 = y1 → exec (.drawLine x0 y0 x1 y1 c) s = .next (s.completed
      (hlineStream s.cfg (min x0.toInt x1.toInt) y0.toInt ((x1.toInt - x0.toInt).natAbs + 1) c)))

/-- A diagonal DRAW_LINE (R163, R166, R169): one pixel transaction for each on-panel point of the stepper, in order of
increasing primary coordinate, `dx + 1` points in the closed form of `linePoint`. The four cases are shallow and steep,
each with its endpoints in order or exchanged. -/
def Obligations.DiagonalLinePlotsItsPoints : Prop :=
  ∀ (x0 y0 x1 y1 c : Half) (s : State), AtRest s → x0 ≠ x1 → y0 ≠ y1 →
    let dx := x1.toInt - x0.toInt
    let dy := y1.toInt - y0.toInt
    let plots := fun (steep : Bool) (p q dp dq sgn : Int) =>
      exec (.drawLine x0 y0 x1 y1 c) s = .next (s.completed (pointsStream s.cfg
        ((List.range (dp.toNat + 1)).map (linePoint steep p q dp dq sgn)) c))
    (|dy| ≤ |dx| → 0 < dx → plots false x0.toInt y0.toInt dx |dy| dy.sign) ∧
    (|dy| ≤ |dx| → dx < 0 → plots false x1.toInt y1.toInt (-dx) |dy| (-dy).sign) ∧
    (|dx| < |dy| → 0 < dy → plots true y0.toInt x0.toInt dy |dx| dx.sign) ∧
    (|dx| < |dy| → dy < 0 → plots true y1.toInt x1.toInt (-dy) |dx| (-dx).sign)

/-- The points of a diagonal line (R167): they start at the normalised start and end at the normalised end, the
primary coordinate goes up by one, and the secondary one by 0 or `ystep`. -/
def Obligations.LinePointsAreConnected : Prop :=
  ∀ (p q dx dy sgn : Int), 1 ≤ dy → dy ≤ dx →
    linePoint false p q dx dy sgn 0 = (p, q) ∧
    linePoint false p q dx dy sgn dx.toNat = (p + dx, q + sgn * dy) ∧
    ∀ k : Nat, (linePoint false p q dx dy sgn (k + 1)).1 = (linePoint false p q dx dy sgn k).1 + 1 ∧
      ((linePoint false p q dx dy sgn (k + 1)).2 = (linePoint false p q dx dy sgn k).2 ∨
       (linePoint false p q dx dy sgn (k + 1)).2 = (linePoint false p q dx dy sgn k).2 + sgn) ∧
      linePoint true p q dx dy sgn k = ((linePoint false p q dx dy sgn k).2, (linePoint false p q dx dy sgn k).1)

/-- Order independence (R165): exchanging the endpoints gives the same outcome, so the same token stream. -/
def Obligations.LineOrderDoesNotMatter : Prop :=
  ∀ (x0 y0 x1 y1 c : Half) (s : State), exec (.drawLine x1 y1 x0 y0 c) s = exec (.drawLine x0 y0 x1 y1 c) s

/-- Silent no-ops (R240, R241): off-panel or empty geometry changes nothing but the sequencer, which goes on; of STATUS
only BUSY follows. -/
def Obligations.BadGeometryIsSilent : Prop :=
  ∀ (s : State) (x y w h c : Half),
    let out := ¬(0 ≤ x.toInt ∧ x.toInt < s.cfg.xMax ∧ 0 ≤ y.toInt ∧ y.toInt < s.cfg.yMax)
    let nothing := fun (i : Instr) => exec i s = .next { s with seq := .idle }
    (out → nothing (.drawPixel x y c)) ∧
    (out ∨ w = 0 → nothing (.drawHLine x y w c)) ∧
    (out ∨ h = 0 → nothing (.drawVLine x y h c)) ∧
    (winOk s.cfg ⟨x.toInt, y.toInt, w.toNat, h.toNat⟩ = false → nothing (.drawRect x y w h c)) ∧
    (s.seq ≠ .halted → status { s with seq := .idle } >>> 1 = status s >>> 1)

/-! ### Glyphs and text -/

/-- LOOKUP_GLYPH (R201, R202, R204, R205): found and the address of the glyph's last stored row, or not found and 0; no
token, no other register. -/
def Obligations.LookupGlyphResult : Prop :=
  ∀ (ch : Byte) (t : GlyphTable) (s : State),
    exec (.lookupGlyph ch t) s = .next { s with
      lookup :=
        if t.first.toNat ≤ ch.toNat ∧ ch.toNat < t.first.toNat + t.count.toNat then
          ⟨true, BitVec.ofInt 32 (t.base.toNat + ((ch.toNat : Int) - t.first.toNat) * t.gh.toNat * t.gbw.toNat
            + ((t.gh.toNat : Int) - 1) * t.gbw.toNat)⟩
        else ⟨false, 0x00000000⟩
      seq := .idle }

/-- "It gives the same result as rule R202 for every input" (R203). -/
def Obligations.BinarySearchAgrees : Prop :=
  ∀ (t : GlyphTable) (ch : Byte), searchGlyph t ch = lookupGlyph t ch

/-- Display row `r` uses stored row `GH - 1 - r` (R215): stepping back `r` times from the glyph reference. -/
def Obligations.DisplayRowUsesStoredRow : Prop :=
  ∀ (a : TextArgs) (ch : Byte) (r : Nat), inTable a.table ch = true →
    ((rowBefore a)^[r]) (glyphRef a.table (ch.toNat - a.table.first.toNat)) = rowAddr a.table ch r

/-- DRAW_TEXT that completes (R207-R215): the tokens of its characters in order, RESULT_X the cursor after the found
ones, and nothing else changed. No text is longer: its terminator would lie within it. -/
def Obligations.TextDrawsItsGlyphs : Prop :=
  ∀ (a : TextArgs) (s : State) (cs : List Byte), AtRest s → a.fw.toNat ≤ 8 → cs.length < 2 ^ 32 →
    HasText s a.text cs → GlyphsReadable s a.table cs →
    exec (.drawText a) s = .next { s with
      out := s.out ++ textStream s a (a.x.signExtend 32) cs, resultX := cursorAfter a cs, seq := .idle }

/-- Fault 3 (R247): FW > 8 halts before the first read and the first token. -/
def Obligations.WideFontFaults : Prop :=
  ∀ (a : TextArgs) (s : State), s.cs = .inactive → 8 < a.fw.toNat →
    exec (.drawText a) s = .next { s with faultCode := 3, seq := .halted }

/-- Fault 2 at a text byte (R246, R249): the pixels of the characters before it stay, no later token, RESULT_X
unchanged. -/
def Obligations.UnreadableTextFaults : Prop :=
  ∀ (a : TextArgs) (s : State) (cs : List Byte), AtRest s → a.fw.toNat ≤ 8 → cs.length < 2 ^ 32 →
    HasChars s a.text cs → GlyphsReadable s a.table cs →
    srcReadable s.cfg (textEnd a.text cs.length) = false →
    exec (.drawText a) s = .next { s with
      out := s.out ++ textStream s a (a.x.signExtend 32) cs, faultCode := 2, seq := .halted }

/-- Fault 2 at a row byte (R246, R249): the characters and the display rows before it stay, no later token, RESULT_X
unchanged. -/
def Obligations.UnreadableGlyphFaults : Prop :=
  ∀ (a : TextArgs) (s : State) (cs : List Byte) (ch : Byte) (r : Nat), AtRest s → a.fw.toNat ≤ 8 →
    cs.length < 2 ^ 32 → HasChars s a.text (cs ++ [ch]) → GlyphsReadable s a.table cs →
    inTable a.table ch = true → r < a.table.gh.toNat →
    (∀ k < r, srcReadable s.cfg (rowAddr a.table ch k) = true ∧ racing s (rowAddr a.table ch k) = false) →
    srcReadable s.cfg (rowAddr a.table ch r) = false →
    exec (.drawText a) s = .next { s with
      out := s.out ++ textStream s a (a.x.signExtend 32) cs ++ glyphRows s a (cursorAfter a cs).toInt ch r
      faultCode := 2, seq := .halted }

/-- What no command changes, and who writes the result registers (R25, R26, R35, R36, R52): whatever a command does, the
parameters, FIFO, latch, source memory and the environment's fields stay; only LOOKUP_GLYPH writes the lookup result;
only a completed DRAW_TEXT writes RESULT_X; a fault comes only from DRAW_TEXT, with code 2 or 3.
The model's choice: log 4, log 6, log 7, log 11, log 12. -/
def Obligations.CommandFrame : Prop :=
  ∀ (i : Instr) (s t : State), exec i s = .next t →
    t.cfg = s.cfg ∧ t.fifo = s.fifo ∧ t.latch = s.latch ∧ t.mem = s.mem ∧ t.waiting = s.waiting ∧
    t.readData = s.readData ∧ t.plan = s.plan ∧ t.raced = s.raced ∧ t.outBase = s.outBase ∧ s.out <+: t.out ∧
    ((∀ ch tb, i ≠ .lookupGlyph ch tb) → t.lookup = s.lookup) ∧
    ((∀ a, i ≠ .drawText a) → t.resultX = s.resultX ∧ t.draws = s.draws ∧ t.seq = .idle ∧
      t.faultCode = s.faultCode) ∧
    (t.seq = .halted → t.resultX = s.resultX ∧ (t.faultCode = 2 ∨ t.faultCode = 3)) ∧
    (t.seq ≠ .halted → t.faultCode = s.faultCode)

/-- While a command executes the result registers keep the values of earlier commands; LOOKUP_GLYPH writes both parts
in the step that completes it (R205, R213, R286). The model's choice: log 5. -/
def Obligations.ResultsChangeAtCompletionOnly : Prop :=
  ∀ (ready : Bool) (s : State), ((advance ready s).lookup ≠ s.lookup ∨ (advance ready s).resultX ≠ s.resultX) →
    s.seq ≠ .idle ∧ s.seq ≠ .halted ∧ (advance ready s).seq = .idle ∧
    ((advance ready s).lookup ≠ s.lookup → ∃ ch t, s.latch = .lookupGlyph ch t) ∧
    ((advance ready s).resultX ≠ s.resultX → ∃ a, s.latch = .drawText a)

/-- A host write to source memory (R64): a step performs it; with no command queued or running it is seen; while
commands are, it is marked, so that their reads of the byte are free. As the undisturbed block then runs on, the words
`ws` standing behind those queued at the write, the command running at the write races it, and of the packets taken
later exactly those race it whose last word was queued then: `rest` still holds all of `ws`. The model's choice: log 4,
log 6. -/
def Obligations.HostSourceWrites : Prop :=
  ∀ (a : Word) (b : Byte) (s : State), Memory.wf s.mem = true →
    Memory.read (srcWrite a b s).mem a.toNat = b ∧
    (∀ a' : Word, a' ≠ a → Memory.read (srcWrite a b s).mem a'.toNat = Memory.read s.mem a'.toNat) ∧
    (busy s = false → (srcWrite a b s).raced = s.raced) ∧
    (busy s = true → racing (srcWrite a b s) a = true) ∧
    (∀ p, s.plan = .srcWrite a b :: p → (s.waiting = none ∨ (s.seq ≠ .halted ∧ s.cfg.depth ≤ s.fifo.length)) →
      step s = .next (srcWrite a b { s with plan := p })) ∧
    (∀ (ws : List Word) (k : Nat) (u : State), s.waiting = none → s.plan = [] → racing s a = false →
      stepMany k { srcWrite a b s with fifo := s.fifo ++ ws } = some u →
      (busy s = true → u.fifo = s.fifo ++ ws → racing u a = true) ∧
      ∀ (i : Instr) (rest : List Word), u.seq = .idle → decode u.fifo = .packet i rest →
        (racing (accept i rest u) a = true ↔ ws.length ≤ rest.length))

/-! ### The host's side -/

/-- Reads of the register window (R21-R28, R61): each slot's value, and no side effect.
The model's choice: log 4, log 11. -/
def Obligations.RegisterReads : Prop :=
  ∀ (s : State) (k : Nat) (p : List Turn), s.cfg.wf = true → k < 8 → s.waiting = none →
    s.plan = .host (.read (s.cfg.base + 4 * k) .word) :: p →
    step s = .next { s with
      plan := p
      readData := if k = 1 then status s else if k = 2 then s.lookup.addr else if k = 3 then s.resultX else 0 }

/-- The fields of STATUS (R23, R24). -/
def Obligations.StatusFields : Prop :=
  ∀ s : State,
    ((status s).getLsbD 0 = true ↔ s.seq ≠ .halted ∧ (s.seq ≠ .idle ∨ 0 < s.fifo.length)) ∧
    ((status s).getLsbD 1 = true ↔ s.fifo.length = s.cfg.depth) ∧
    ((status s).getLsbD 2 = true ↔ s.fifo.length = 0) ∧
    ((status s).getLsbD 3 = true ↔ s.seq = .halted) ∧
    (status s).extractLsb' 4 4 = (if s.seq = .halted then s.faultCode else 0) ∧
    (status s).getLsbD 8 = s.lookup.found ∧
    (status s).extractLsb' 9 23 = 0

/-- A host write of `v` to CMD (R22): appended while there is room, waiting while the FIFO is full, discarded while
Halted. The model's choice: log 4, log 7. -/
def Obligations.CmdWriteAppendsWaitsOrIsDiscarded : Prop :=
  ∀ (s : State) (v : Word) (p : List Turn), s.cfg.wf = true → s.waiting = none →
    s.plan = .host (.write s.cfg.base .word v) :: p →
    (s.seq ≠ .halted → s.fifo.length < s.cfg.depth →
      step s = .next { s with fifo := s.fifo ++ [v], plan := p }) ∧
    (s.seq ≠ .halted → s.cfg.depth ≤ s.fifo.length → step s = .next { s with waiting := some v, plan := p }) ∧
    (s.seq = .halted → step s = .next { s with plan := p })

/-- A CMD write that waits (R22): it enters as soon as there is room, and in the very move in which the sequencer
removes a packet; until then the host's next access waits behind it and the block moves (log 7).
The model's choice: log 4, log 7. -/
def Obligations.WaitingWriteEnters : Prop :=
  ∀ (s : State) (v : Word), s.waiting = some v → s.seq ≠ .halted →
    (s.fifo.length < s.cfg.depth → step s = .next { s with fifo := s.fifo ++ [v], waiting := none }) ∧
    (s.cfg.depth ≤ s.fifo.length → s.seq = .idle → s.plan = [] →
      ∀ i rest, decode s.fifo = .packet i rest →
        step s = exec i (accept i rest s) ∧ (accept i rest s).fifo = rest ++ [v] ∧
          (accept i rest s).waiting = none) ∧
    (s.cfg.depth ≤ s.fifo.length → ∀ a p, s.plan = .host a :: p → step s = .next (blockMove true s))

/-- Writes to STATUS, LOOKUP_ADDR, RESULT_X and the reserved slots change nothing (R23, R25, R26, R28).
The model's choice: log 4. -/
def Obligations.OtherWritesIgnored : Prop :=
  ∀ (s : State) (v : Word) (k : Nat) (p : List Turn), s.cfg.wf = true → s.waiting = none → k < 8 → k ≠ 0 → k ≠ 4 →
    s.plan = .host (.write (s.cfg.base + 4 * k) .word v) :: p → step s = .next { s with plan := p }

/-- CTRL (R27): a write with bit 0 set is the reset of the block, whatever the sequencer is doing; with bit 0 clear it is
nothing; a read returns 0 and has no side effect. The model's choice: log 4, log 12. -/
def Obligations.CtrlBitZeroResets : Prop :=
  ∀ (s : State) (v : Word) (p : List Turn), s.cfg.wf = true → s.waiting = none →
    (s.plan = .host (.write (s.cfg.base + 0x10) .word v) :: p →
      (v.getLsbD 0 = true → step s = .next (resetBlock { s with plan := p })) ∧
      (v.getLsbD 0 = false → step s = .next { s with plan := p })) ∧
    (s.plan = .host (.read (s.cfg.base + 0x10) .word) :: p → step s = .next { s with plan := p, readData := 0 })

/-- A byte, halfword or misaligned access to the register window is refused (R57). -/
def Obligations.NarrowAccessRefused : Prop :=
  ∀ (s : State) (addr : Nat) (width : AccessWidth) (v : Word),
    s.cfg.base ≤ addr → addr < s.cfg.base + 32 → width ≠ .word ∨ addr % 4 ≠ 0 →
    hostAccess (.read addr width) s = .refused .narrowOrMisaligned ∧
    hostAccess (.write addr width v) s = .refused .narrowOrMisaligned

/-- After a reset, hard or soft, every part of the block is at its reset value (R40), STATUS 0x00000004; `DESEL` is the
last token if a transaction was open (R272), otherwise there is no token; source memory and the parameters are
untouched; left alone, the block then waits for the first CMD word. A hard reset may find a CMD write waiting on the
full FIFO. The model's choice: log 4, log 8, log 12 (the stream is kept), log 13. -/
def Obligations.ResetValues : Prop :=
  ∀ (s : State) (p : List Turn), s.cfg.wf = true →
    (s.plan = .hardReset :: p ∧ (s.waiting = none ∨ (s.seq ≠ .halted ∧ s.cfg.depth ≤ s.fifo.length))) ∨
      (∃ v : Word, v.getLsbD 0 = true ∧ s.waiting = none ∧
        s.plan = .host (.write (s.cfg.base + 0x10) .word v) :: p) →
    ∃ t, step s = .next t ∧ t.fifo = [] ∧ t.seq = .idle ∧ t.faultCode = 0 ∧ t.lookup = ⟨false, 0x00000000⟩ ∧
      t.resultX = 0x00000000 ∧ t.cs = .inactive ∧ t.dc = .data ∧ status t = 0x00000004 ∧
      t.cfg = s.cfg ∧ t.mem = s.mem ∧ t.plan = p ∧
      t.out = s.out ++ (if s.cs = .active then [.desel] else []) ∧
      (t.waiting = none → p = [] → step t = .next t)

/-- `raise Fault(code)` (R244): the code, Halted, `DESEL` if a transaction is open, and nothing else. -/
def Obligations.RaiseFaultHalts : Prop :=
  ∀ (code : BitVec 4) (s : State),
    (s.cs = .inactive → raiseFault code s = { s with faultCode := code, seq := .halted }) ∧
    (s.cs = .active →
      raiseFault code s = { s with out := s.out ++ [.desel], cs := .inactive, faultCode := code, seq := .halted })

/-! ### Pixels, through the controller's reference reading -/

/-- The reading of one block transaction (R115): it writes the window's cells in row-major order with the colour, from
whatever the controller held and was doing before (R111), and no other cell. The three command bytes are distinct, as
the reading needs. The model's choice: log 16. -/
def Obligations.ControllerReadsTransaction : Prop :=
  ∀ (c : Config) (v : Window) (col : Half) (k : Controller.Ctl), c.wf = true → winOk c v = true →
    c.opcCaset ≠ c.opcRaset → c.opcCaset ≠ c.opcRamwr → c.opcRaset ≠ c.opcRamwr →
    ∃ k', Controller.reading c k (txTokens c v col) = .ok k' ∧
      k'.gram = (Controller.windowWrites v col).reverse ++ k.gram ∧ k'.phase = .lost

/-- A transaction that a reset cuts short has no reading (R272, R114, item 26 of 93_implementation_defined.md), whatever
the controller did before: where it stopped after a whole pixel, or before any, as `truncated`, and in the middle of a
pixel as `oddBytes`. The model's choice: log 16. -/
def Obligations.TruncatedTransactionHasNoReading : Prop :=
  ∀ (c : Config) (v : Window) (col : Half) (k : Controller.Ctl) (n : Nat), c.wf = true → winOk c v = true →
    c.opcCaset ≠ c.opcRaset → c.opcCaset ≠ c.opcRamwr → c.opcRaset ≠ c.opcRamwr →
    0 < n → n + 1 < (txTokens c v col).length →
    Controller.reading c k ((txTokens c v col).take n ++ [.desel]) =
      .error (if 12 < n ∧ n % 2 = 1 then .oddBytes else .truncated)

/-- DRAW_RECT at the pixels (R115, R175): read by the controller, the command's tokens give the cells of an on-panel
rectangle its colour and leave every other cell alone. The model's choice: log 16. -/
def Obligations.RectanglePixels : Prop :=
  ∀ (x y w h col : Half) (s : State) (k : Controller.Ctl), s.cfg.wf = true → AtRest s →
    s.cfg.opcCaset ≠ s.cfg.opcRaset → s.cfg.opcCaset ≠ s.cfg.opcRamwr → s.cfg.opcRaset ≠ s.cfg.opcRamwr →
    winOk s.cfg ⟨x.toInt, y.toInt, w.toNat, h.toNat⟩ = true →
    ∃ t k', exec (.drawRect x y w h col) s = .next t ∧
      Controller.reading s.cfg k (t.out.drop s.out.length) = .ok k' ∧
      ∀ i j : Nat, Controller.cell k'.gram i j =
        if x.toInt ≤ i ∧ (i : Int) < x.toInt + w.toNat ∧ y.toInt ≤ j ∧ (j : Int) < y.toInt + h.toNat then some col
        else Controller.cell k.gram i j
end

