-- ==== Sys2Proof/Laws/State.lean ====
section
/-! SUPPORT. What each named update does to each field of the state. -/

namespace Sys2Proof.Machine

/-! ### `emit` -/

@[simp] theorem emit_cfg (t : Token) (s : State) : (emit t s).cfg = s.cfg := rfl
@[simp] theorem emit_fifo (t : Token) (s : State) : (emit t s).fifo = s.fifo := rfl
@[simp] theorem emit_latch (t : Token) (s : State) : (emit t s).latch = s.latch := rfl
@[simp] theorem emit_seq (t : Token) (s : State) : (emit t s).seq = s.seq := rfl
@[simp] theorem emit_faultCode (t : Token) (s : State) : (emit t s).faultCode = s.faultCode := rfl
@[simp] theorem emit_lookup (t : Token) (s : State) : (emit t s).lookup = s.lookup := rfl
@[simp] theorem emit_resultX (t : Token) (s : State) : (emit t s).resultX = s.resultX := rfl
@[simp] theorem emit_cs (t : Token) (s : State) : (emit t s).cs = s.cs := rfl
@[simp] theorem emit_dc (t : Token) (s : State) : (emit t s).dc = s.dc := rfl
@[simp] theorem emit_out (t : Token) (s : State) : (emit t s).out = s.out ++ [t] := rfl
@[simp] theorem emit_mem (t : Token) (s : State) : (emit t s).mem = s.mem := rfl
@[simp] theorem emit_waiting (t : Token) (s : State) : (emit t s).waiting = s.waiting := rfl
@[simp] theorem emit_readData (t : Token) (s : State) : (emit t s).readData = s.readData := rfl
@[simp] theorem emit_plan (t : Token) (s : State) : (emit t s).plan = s.plan := rfl
@[simp] theorem emit_raced (t : Token) (s : State) : (emit t s).raced = s.raced := rfl
@[simp] theorem emit_draws (t : Token) (s : State) : (emit t s).draws = s.draws := rfl
@[simp] theorem emit_outBase (t : Token) (s : State) : (emit t s).outBase = s.outBase := rfl

/-! ### `select` -/

@[simp] theorem select_cfg (s : State) : (select s).cfg = s.cfg := rfl
@[simp] theorem select_fifo (s : State) : (select s).fifo = s.fifo := rfl
@[simp] theorem select_latch (s : State) : (select s).latch = s.latch := rfl
@[simp] theorem select_seq (s : State) : (select s).seq = s.seq := rfl
@[simp] theorem select_faultCode (s : State) : (select s).faultCode = s.faultCode := rfl
@[simp] theorem select_lookup (s : State) : (select s).lookup = s.lookup := rfl
@[simp] theorem select_resultX (s : State) : (select s).resultX = s.resultX := rfl
@[simp] theorem select_cs (s : State) : (select s).cs = .active := rfl
@[simp] theorem select_dc (s : State) : (select s).dc = s.dc := rfl
@[simp] theorem select_out (s : State) : (select s).out = s.out ++ [.sel] := rfl
@[simp] theorem select_mem (s : State) : (select s).mem = s.mem := rfl
@[simp] theorem select_waiting (s : State) : (select s).waiting = s.waiting := rfl
@[simp] theorem select_readData (s : State) : (select s).readData = s.readData := rfl
@[simp] theorem select_plan (s : State) : (select s).plan = s.plan := rfl
@[simp] theorem select_raced (s : State) : (select s).raced = s.raced := rfl
@[simp] theorem select_draws (s : State) : (select s).draws = s.draws := rfl
@[simp] theorem select_outBase (s : State) : (select s).outBase = s.outBase := rfl

/-! ### `deselect` -/

@[simp] theorem deselect_cfg (s : State) : (deselect s).cfg = s.cfg := rfl
@[simp] theorem deselect_fifo (s : State) : (deselect s).fifo = s.fifo := rfl
@[simp] theorem deselect_latch (s : State) : (deselect s).latch = s.latch := rfl
@[simp] theorem deselect_seq (s : State) : (deselect s).seq = s.seq := rfl
@[simp] theorem deselect_faultCode (s : State) : (deselect s).faultCode = s.faultCode := rfl
@[simp] theorem deselect_lookup (s : State) : (deselect s).lookup = s.lookup := rfl
@[simp] theorem deselect_resultX (s : State) : (deselect s).resultX = s.resultX := rfl
@[simp] theorem deselect_cs (s : State) : (deselect s).cs = .inactive := rfl
@[simp] theorem deselect_dc (s : State) : (deselect s).dc = s.dc := rfl
@[simp] theorem deselect_out (s : State) : (deselect s).out = s.out ++ [.desel] := rfl
@[simp] theorem deselect_mem (s : State) : (deselect s).mem = s.mem := rfl
@[simp] theorem deselect_waiting (s : State) : (deselect s).waiting = s.waiting := rfl
@[simp] theorem deselect_readData (s : State) : (deselect s).readData = s.readData := rfl
@[simp] theorem deselect_plan (s : State) : (deselect s).plan = s.plan := rfl
@[simp] theorem deselect_raced (s : State) : (deselect s).raced = s.raced := rfl
@[simp] theorem deselect_draws (s : State) : (deselect s).draws = s.draws := rfl
@[simp] theorem deselect_outBase (s : State) : (deselect s).outBase = s.outBase := rfl

/-! ### `sendCommand` -/

@[simp] theorem sendCommand_cfg (b : Byte) (s : State) : (sendCommand b s).cfg = s.cfg := rfl
@[simp] theorem sendCommand_fifo (b : Byte) (s : State) : (sendCommand b s).fifo = s.fifo := rfl
@[simp] theorem sendCommand_latch (b : Byte) (s : State) : (sendCommand b s).latch = s.latch := rfl
@[simp] theorem sendCommand_seq (b : Byte) (s : State) : (sendCommand b s).seq = s.seq := rfl
@[simp] theorem sendCommand_faultCode (b : Byte) (s : State) : (sendCommand b s).faultCode = s.faultCode := rfl
@[simp] theorem sendCommand_lookup (b : Byte) (s : State) : (sendCommand b s).lookup = s.lookup := rfl
@[simp] theorem sendCommand_resultX (b : Byte) (s : State) : (sendCommand b s).resultX = s.resultX := rfl
@[simp] theorem sendCommand_cs (b : Byte) (s : State) : (sendCommand b s).cs = s.cs := rfl
@[simp] theorem sendCommand_dc (b : Byte) (s : State) : (sendCommand b s).dc = .data := rfl
@[simp] theorem sendCommand_out (b : Byte) (s : State) : (sendCommand b s).out = s.out ++ [.cmd b] := rfl
@[simp] theorem sendCommand_mem (b : Byte) (s : State) : (sendCommand b s).mem = s.mem := rfl
@[simp] theorem sendCommand_waiting (b : Byte) (s : State) : (sendCommand b s).waiting = s.waiting := rfl
@[simp] theorem sendCommand_readData (b : Byte) (s : State) : (sendCommand b s).readData = s.readData := rfl
@[simp] theorem sendCommand_plan (b : Byte) (s : State) : (sendCommand b s).plan = s.plan := rfl
@[simp] theorem sendCommand_raced (b : Byte) (s : State) : (sendCommand b s).raced = s.raced := rfl
@[simp] theorem sendCommand_draws (b : Byte) (s : State) : (sendCommand b s).draws = s.draws := rfl
@[simp] theorem sendCommand_outBase (b : Byte) (s : State) : (sendCommand b s).outBase = s.outBase := rfl

/-! ### `sendData` -/

@[simp] theorem sendData_cfg (b : Byte) (s : State) : (sendData b s).cfg = s.cfg := rfl
@[simp] theorem sendData_fifo (b : Byte) (s : State) : (sendData b s).fifo = s.fifo := rfl
@[simp] theorem sendData_latch (b : Byte) (s : State) : (sendData b s).latch = s.latch := rfl
@[simp] theorem sendData_seq (b : Byte) (s : State) : (sendData b s).seq = s.seq := rfl
@[simp] theorem sendData_faultCode (b : Byte) (s : State) : (sendData b s).faultCode = s.faultCode := rfl
@[simp] theorem sendData_lookup (b : Byte) (s : State) : (sendData b s).lookup = s.lookup := rfl
@[simp] theorem sendData_resultX (b : Byte) (s : State) : (sendData b s).resultX = s.resultX := rfl
@[simp] theorem sendData_cs (b : Byte) (s : State) : (sendData b s).cs = s.cs := rfl
@[simp] theorem sendData_dc (b : Byte) (s : State) : (sendData b s).dc = s.dc := rfl
@[simp] theorem sendData_out (b : Byte) (s : State) : (sendData b s).out = s.out ++ [.dat b] := rfl
@[simp] theorem sendData_mem (b : Byte) (s : State) : (sendData b s).mem = s.mem := rfl
@[simp] theorem sendData_waiting (b : Byte) (s : State) : (sendData b s).waiting = s.waiting := rfl
@[simp] theorem sendData_readData (b : Byte) (s : State) : (sendData b s).readData = s.readData := rfl
@[simp] theorem sendData_plan (b : Byte) (s : State) : (sendData b s).plan = s.plan := rfl
@[simp] theorem sendData_raced (b : Byte) (s : State) : (sendData b s).raced = s.raced := rfl
@[simp] theorem sendData_draws (b : Byte) (s : State) : (sendData b s).draws = s.draws := rfl
@[simp] theorem sendData_outBase (b : Byte) (s : State) : (sendData b s).outBase = s.outBase := rfl

/-! ### `complete` -/

@[simp] theorem complete_cfg (s : State) : (complete s).cfg = s.cfg := rfl
@[simp] theorem complete_fifo (s : State) : (complete s).fifo = s.fifo := rfl
@[simp] theorem complete_latch (s : State) : (complete s).latch = s.latch := rfl
@[simp] theorem complete_seq (s : State) : (complete s).seq = .idle := rfl
@[simp] theorem complete_faultCode (s : State) : (complete s).faultCode = s.faultCode := rfl
@[simp] theorem complete_lookup (s : State) : (complete s).lookup = s.lookup := rfl
@[simp] theorem complete_resultX (s : State) : (complete s).resultX = s.resultX := rfl
@[simp] theorem complete_cs (s : State) : (complete s).cs = s.cs := rfl
@[simp] theorem complete_dc (s : State) : (complete s).dc = s.dc := rfl
@[simp] theorem complete_out (s : State) : (complete s).out = s.out := rfl
@[simp] theorem complete_mem (s : State) : (complete s).mem = s.mem := rfl
@[simp] theorem complete_waiting (s : State) : (complete s).waiting = s.waiting := rfl
@[simp] theorem complete_readData (s : State) : (complete s).readData = s.readData := rfl
@[simp] theorem complete_plan (s : State) : (complete s).plan = s.plan := rfl
@[simp] theorem complete_raced (s : State) : (complete s).raced = s.raced := rfl
@[simp] theorem complete_draws (s : State) : (complete s).draws = s.draws := rfl
@[simp] theorem complete_outBase (s : State) : (complete s).outBase = s.outBase := rfl

/-! ### `addOut` -/

@[simp] theorem addOut_cfg (s : State) (o : List Token) : (s.addOut o).cfg = s.cfg := rfl
@[simp] theorem addOut_fifo (s : State) (o : List Token) : (s.addOut o).fifo = s.fifo := rfl
@[simp] theorem addOut_latch (s : State) (o : List Token) : (s.addOut o).latch = s.latch := rfl
@[simp] theorem addOut_seq (s : State) (o : List Token) : (s.addOut o).seq = s.seq := rfl
@[simp] theorem addOut_faultCode (s : State) (o : List Token) : (s.addOut o).faultCode = s.faultCode := rfl
@[simp] theorem addOut_lookup (s : State) (o : List Token) : (s.addOut o).lookup = s.lookup := rfl
@[simp] theorem addOut_resultX (s : State) (o : List Token) : (s.addOut o).resultX = s.resultX := rfl
@[simp] theorem addOut_cs (s : State) (o : List Token) : (s.addOut o).cs = s.cs := rfl
@[simp] theorem addOut_dc (s : State) (o : List Token) : (s.addOut o).dc = s.dc := rfl
@[simp] theorem addOut_out (s : State) (o : List Token) : (s.addOut o).out = s.out ++ o := rfl
@[simp] theorem addOut_mem (s : State) (o : List Token) : (s.addOut o).mem = s.mem := rfl
@[simp] theorem addOut_waiting (s : State) (o : List Token) : (s.addOut o).waiting = s.waiting := rfl
@[simp] theorem addOut_readData (s : State) (o : List Token) : (s.addOut o).readData = s.readData := rfl
@[simp] theorem addOut_plan (s : State) (o : List Token) : (s.addOut o).plan = s.plan := rfl
@[simp] theorem addOut_raced (s : State) (o : List Token) : (s.addOut o).raced = s.raced := rfl
@[simp] theorem addOut_draws (s : State) (o : List Token) : (s.addOut o).draws = s.draws := rfl
@[simp] theorem addOut_outBase (s : State) (o : List Token) : (s.addOut o).outBase = s.outBase := rfl

/-! ### `completed` -/

@[simp] theorem completed_cfg (s : State) (o : List Token) : (s.completed o).cfg = s.cfg := rfl
@[simp] theorem completed_fifo (s : State) (o : List Token) : (s.completed o).fifo = s.fifo := rfl
@[simp] theorem completed_latch (s : State) (o : List Token) : (s.completed o).latch = s.latch := rfl
@[simp] theorem completed_seq (s : State) (o : List Token) : (s.completed o).seq = .idle := rfl
@[simp] theorem completed_faultCode (s : State) (o : List Token) : (s.completed o).faultCode = s.faultCode := rfl
@[simp] theorem completed_lookup (s : State) (o : List Token) : (s.completed o).lookup = s.lookup := rfl
@[simp] theorem completed_resultX (s : State) (o : List Token) : (s.completed o).resultX = s.resultX := rfl
@[simp] theorem completed_cs (s : State) (o : List Token) : (s.completed o).cs = s.cs := rfl
@[simp] theorem completed_dc (s : State) (o : List Token) : (s.completed o).dc = s.dc := rfl
@[simp] theorem completed_out (s : State) (o : List Token) : (s.completed o).out = s.out ++ o := rfl
@[simp] theorem completed_mem (s : State) (o : List Token) : (s.completed o).mem = s.mem := rfl
@[simp] theorem completed_waiting (s : State) (o : List Token) : (s.completed o).waiting = s.waiting := rfl
@[simp] theorem completed_readData (s : State) (o : List Token) : (s.completed o).readData = s.readData := rfl
@[simp] theorem completed_plan (s : State) (o : List Token) : (s.completed o).plan = s.plan := rfl
@[simp] theorem completed_raced (s : State) (o : List Token) : (s.completed o).raced = s.raced := rfl
@[simp] theorem completed_draws (s : State) (o : List Token) : (s.completed o).draws = s.draws := rfl
@[simp] theorem completed_outBase (s : State) (o : List Token) : (s.completed o).outBase = s.outBase := rfl

/-! ### `setTx` -/

@[simp] theorem setTx_cfg (w : Work) (t : Tx) (p : TxPos) (s : State) : (setTx w t p s).cfg = s.cfg := rfl
@[simp] theorem setTx_fifo (w : Work) (t : Tx) (p : TxPos) (s : State) : (setTx w t p s).fifo = s.fifo := rfl
@[simp] theorem setTx_latch (w : Work) (t : Tx) (p : TxPos) (s : State) : (setTx w t p s).latch = s.latch := rfl
@[simp] theorem setTx_seq (w : Work) (t : Tx) (p : TxPos) (s : State) : (setTx w t p s).seq = .exec { w with tx := some { t with pos := p } } := rfl
@[simp] theorem setTx_faultCode (w : Work) (t : Tx) (p : TxPos) (s : State) : (setTx w t p s).faultCode = s.faultCode := rfl
@[simp] theorem setTx_lookup (w : Work) (t : Tx) (p : TxPos) (s : State) : (setTx w t p s).lookup = s.lookup := rfl
@[simp] theorem setTx_resultX (w : Work) (t : Tx) (p : TxPos) (s : State) : (setTx w t p s).resultX = s.resultX := rfl
@[simp] theorem setTx_cs (w : Work) (t : Tx) (p : TxPos) (s : State) : (setTx w t p s).cs = s.cs := rfl
@[simp] theorem setTx_dc (w : Work) (t : Tx) (p : TxPos) (s : State) : (setTx w t p s).dc = s.dc := rfl
@[simp] theorem setTx_out (w : Work) (t : Tx) (p : TxPos) (s : State) : (setTx w t p s).out = s.out := rfl
@[simp] theorem setTx_mem (w : Work) (t : Tx) (p : TxPos) (s : State) : (setTx w t p s).mem = s.mem := rfl
@[simp] theorem setTx_waiting (w : Work) (t : Tx) (p : TxPos) (s : State) : (setTx w t p s).waiting = s.waiting := rfl
@[simp] theorem setTx_readData (w : Work) (t : Tx) (p : TxPos) (s : State) : (setTx w t p s).readData = s.readData := rfl
@[simp] theorem setTx_plan (w : Work) (t : Tx) (p : TxPos) (s : State) : (setTx w t p s).plan = s.plan := rfl
@[simp] theorem setTx_raced (w : Work) (t : Tx) (p : TxPos) (s : State) : (setTx w t p s).raced = s.raced := rfl
@[simp] theorem setTx_draws (w : Work) (t : Tx) (p : TxPos) (s : State) : (setTx w t p s).draws = s.draws := rfl
@[simp] theorem setTx_outBase (w : Work) (t : Tx) (p : TxPos) (s : State) : (setTx w t p s).outBase = s.outBase := rfl

/-! ### `atText` -/

@[simp] theorem atText_cfg (pt : TextPoint) (s : State) : (atText pt s).cfg = s.cfg := rfl
@[simp] theorem atText_fifo (pt : TextPoint) (s : State) : (atText pt s).fifo = s.fifo := rfl
@[simp] theorem atText_latch (pt : TextPoint) (s : State) : (atText pt s).latch = s.latch := rfl
@[simp] theorem atText_seq (pt : TextPoint) (s : State) : (atText pt s).seq = .exec ⟨none, .text pt⟩ := rfl
@[simp] theorem atText_faultCode (pt : TextPoint) (s : State) : (atText pt s).faultCode = s.faultCode := rfl
@[simp] theorem atText_lookup (pt : TextPoint) (s : State) : (atText pt s).lookup = s.lookup := rfl
@[simp] theorem atText_resultX (pt : TextPoint) (s : State) : (atText pt s).resultX = s.resultX := rfl
@[simp] theorem atText_cs (pt : TextPoint) (s : State) : (atText pt s).cs = s.cs := rfl
@[simp] theorem atText_dc (pt : TextPoint) (s : State) : (atText pt s).dc = s.dc := rfl
@[simp] theorem atText_out (pt : TextPoint) (s : State) : (atText pt s).out = s.out := rfl
@[simp] theorem atText_mem (pt : TextPoint) (s : State) : (atText pt s).mem = s.mem := rfl
@[simp] theorem atText_waiting (pt : TextPoint) (s : State) : (atText pt s).waiting = s.waiting := rfl
@[simp] theorem atText_readData (pt : TextPoint) (s : State) : (atText pt s).readData = s.readData := rfl
@[simp] theorem atText_plan (pt : TextPoint) (s : State) : (atText pt s).plan = s.plan := rfl
@[simp] theorem atText_raced (pt : TextPoint) (s : State) : (atText pt s).raced = s.raced := rfl
@[simp] theorem atText_draws (pt : TextPoint) (s : State) : (atText pt s).draws = s.draws := rfl
@[simp] theorem atText_outBase (pt : TextPoint) (s : State) : (atText pt s).outBase = s.outBase := rfl

/-! ### `endText` -/

@[simp] theorem endText_cfg (x : Word) (s : State) : (endText x s).cfg = s.cfg := rfl
@[simp] theorem endText_fifo (x : Word) (s : State) : (endText x s).fifo = s.fifo := rfl
@[simp] theorem endText_latch (x : Word) (s : State) : (endText x s).latch = s.latch := rfl
@[simp] theorem endText_seq (x : Word) (s : State) : (endText x s).seq = .idle := rfl
@[simp] theorem endText_faultCode (x : Word) (s : State) : (endText x s).faultCode = s.faultCode := rfl
@[simp] theorem endText_lookup (x : Word) (s : State) : (endText x s).lookup = s.lookup := rfl
@[simp] theorem endText_resultX (x : Word) (s : State) : (endText x s).resultX = x := rfl
@[simp] theorem endText_cs (x : Word) (s : State) : (endText x s).cs = s.cs := rfl
@[simp] theorem endText_dc (x : Word) (s : State) : (endText x s).dc = s.dc := rfl
@[simp] theorem endText_out (x : Word) (s : State) : (endText x s).out = s.out := rfl
@[simp] theorem endText_mem (x : Word) (s : State) : (endText x s).mem = s.mem := rfl
@[simp] theorem endText_waiting (x : Word) (s : State) : (endText x s).waiting = s.waiting := rfl
@[simp] theorem endText_readData (x : Word) (s : State) : (endText x s).readData = s.readData := rfl
@[simp] theorem endText_plan (x : Word) (s : State) : (endText x s).plan = s.plan := rfl
@[simp] theorem endText_raced (x : Word) (s : State) : (endText x s).raced = s.raced := rfl
@[simp] theorem endText_draws (x : Word) (s : State) : (endText x s).draws = s.draws := rfl
@[simp] theorem endText_outBase (x : Word) (s : State) : (endText x s).outBase = s.outBase := rfl

end Sys2Proof.Machine
end

