-- ==== Sys2Proof/Laws/Memory.lean ====
section
/-! SUPPORT. Source memory: reads after writes, the canonical form, and what a `MemRead` can do. -/

namespace Sys2Proof.Machine

namespace Memory

theorem wfFrom_mono {lo lo' : Nat} {m : List Host.Cell} (h : wfFrom lo m = true) (hl : lo' ≤ lo) :
    wfFrom lo' m = true := by
  cases m with
  | nil => rfl
  | cons c m =>
    obtain ⟨k, b⟩ := c
    simp only [wfFrom, Bool.and_eq_true, decide_eq_true_eq] at h ⊢
    exact ⟨⟨⟨by omega, h.1.1.2⟩, h.1.2⟩, h.2⟩

theorem read_below {lo a : Nat} {m : List Host.Cell} (h : wfFrom lo m = true) (ha : a < lo) :
    read m a = unlisted := by
  induction m generalizing lo with
  | nil => rfl
  | cons c m ih =>
    obtain ⟨k, b⟩ := c
    simp only [wfFrom, Bool.and_eq_true, decide_eq_true_eq] at h
    rw [read, if_neg (by omega)]
    exact ih h.2 (by omega)

theorem write_wfFrom {lo a : Nat} {m : List Host.Cell} {b : Byte} (h : wfFrom lo m = true) (hl : lo ≤ a)
    (ha : a < 2 ^ 32) : wfFrom lo (write m a b) = true := by
  induction m generalizing lo with
  | nil =>
    by_cases hb : b = unlisted
    · simp [write, hb, wfFrom]
    · simp [write, hb, wfFrom, hl]; omega
  | cons c m ih =>
    obtain ⟨k, v⟩ := c
    have h' := h
    simp only [wfFrom, Bool.and_eq_true, decide_eq_true_eq] at h'
    obtain ⟨⟨⟨h1, h2⟩, h3⟩, h4⟩ := h'
    by_cases hlt : a < k
    · by_cases hb : b = unlisted
      · simp [write, hlt, hb, h]
      · simp only [write, hlt, if_true, hb, if_false, wfFrom, Bool.and_eq_true, decide_eq_true_eq]
        exact ⟨⟨⟨hl, ha⟩, by simpa using hb⟩, ⟨⟨by omega, h2⟩, h3⟩, h4⟩
    · by_cases he : a = k
      · subst he
        by_cases hb : b = unlisted
        · simp only [write, Nat.lt_irrefl, if_false, if_true, hb]
          exact wfFrom_mono h4 (by omega)
        · simp only [write, Nat.lt_irrefl, if_false, if_true, hb, wfFrom, Bool.and_eq_true, decide_eq_true_eq]
          exact ⟨⟨⟨hl, ha⟩, by simpa using hb⟩, h4⟩
      · simp only [write, hlt, he, if_false, wfFrom, Bool.and_eq_true, decide_eq_true_eq]
        exact ⟨⟨⟨h1, h2⟩, h3⟩, ih h4 (by omega)⟩

/-- A write keeps the canonical form. -/
theorem write_wf {m : List Host.Cell} (h : wf m = true) (a : Word) (b : Byte) : wf (write m a.toNat b) = true :=
  write_wfFrom h (Nat.zero_le _) a.isLt

theorem read_write_same_from {lo a : Nat} {m : List Host.Cell} {b : Byte} (h : wfFrom lo m = true) :
    read (write m a b) a = b := by
  induction m generalizing lo with
  | nil =>
    by_cases hb : b = unlisted <;> simp [write, read, hb]
  | cons c m ih =>
    obtain ⟨k, v⟩ := c
    have h' := h
    simp only [wfFrom, Bool.and_eq_true, decide_eq_true_eq] at h'
    by_cases hlt : a < k
    · by_cases hb : b = unlisted
      · simp only [write, hlt, if_true, hb]
        exact read_below (lo := k) (by simp [wfFrom, h'.2, by simpa using h'.1.2]; omega) hlt
      · simp [write, hlt, hb, read]
    · by_cases he : a = k
      · subst he
        by_cases hb : b = unlisted
        · simp only [write, Nat.lt_irrefl, if_false, if_true, hb]
          exact read_below h'.2 (by omega)
        · simp [write, hb, read]
      · simp only [write, hlt, he, if_false, read]
        rw [if_neg (by omega)]
        exact ih h'.2

/-- A read at another address sees no write. -/
theorem read_write_other {a c : Nat} (m : List Host.Cell) (b : Byte) (hne : c ≠ a) :
    read (write m a b) c = read m c := by
  induction m with
  | nil =>
    by_cases hb : b = unlisted
    · simp [write, hb]
    · simp [write, hb, read, Ne.symm hne]
  | cons e m ih =>
    obtain ⟨k, v⟩ := e
    by_cases hlt : a < k
    · by_cases hb : b = unlisted
      · simp [write, hlt, hb]
      · simp [write, hlt, hb, read, Ne.symm hne]
    · by_cases he : a = k
      · subst he
        by_cases hb : b = unlisted
        · simp [write, hb, read, Ne.symm hne]
        · simp [write, hb, read, Ne.symm hne]
      · simp only [write, hlt, he, if_false, read, ih]

end Memory

/-- What a `MemRead` can do: fail outside SRC_MAP, or give a byte and at most count one free value more. -/
theorem memRead_cases (a : Word) (s : State) :
    (srcReadable s.cfg a = false ∧ memRead a s = .fail) ∨
    (srcReadable s.cfg a = true ∧ racing s a = true ∧
      memRead a s = .byte (freeByte s.draws) { s with draws := s.draws + 1 }) ∨
    (srcReadable s.cfg a = true ∧ racing s a = false ∧ memRead a s = .byte (Memory.read s.mem a.toNat) s) := by
  cases h : srcReadable s.cfg a <;> cases hr : racing s a <;> simp [memRead, h, hr]

/-- A read that succeeds changes the count of free values and nothing else. -/
theorem memRead_byte {a : Word} {s s' : State} {b : Byte} (h : memRead a s = .byte b s') :
    s' = s ∨ s' = { s with draws := s.draws + 1 } := by
  rcases memRead_cases a s with ⟨-, e⟩ | ⟨-, -, e⟩ | ⟨-, -, e⟩ <;> rw [e] at h
  · cases h
  · exact .inr (by injection h with _ h; exact h.symm)
  · exact .inl (by injection h with _ h; exact h.symm)

/-- A plain read. -/
theorem memRead_of_readsAs {s : State} {a : Word} {b : Byte} (h : ReadsAs s a b) : memRead a s = .byte b s := by
  obtain ⟨h1, h2, h3⟩ := h
  simp [memRead, h1, h2, h3]

end Sys2Proof.Machine
end

