-- ==== Sys2Proof/Laws/Window.lean ====
section
/-! SUPPORT. The window unit and the rasterizer's windows as token lists. -/

namespace Sys2Proof.Machine

@[simp] theorem colorTokens_zero (c : Half) : colorTokens c 0 = [] := rfl

theorem colorTokens_succ (c : Half) (n : Nat) : colorTokens c (n + 1) = pixelTokens c ++ colorTokens c n := by
  simp [colorTokens, List.replicate_succ]

theorem colorTokens_succ' (c : Half) (n : Nat) : colorTokens c (n + 1) = colorTokens c n ++ pixelTokens c := by
  induction n with
  | zero => simp [colorTokens]
  | succ n ih =>
    rw [colorTokens_succ c (n + 1), colorTokens_succ c n, List.append_assoc]
    exact congrArg _ (by rw [← ih, colorTokens_succ])

@[simp] theorem colorTokens_length (c : Half) (n : Nat) : (colorTokens c n).length = 2 * n := by
  induction n with
  | zero => rfl
  | succ n ih => rw [colorTokens_succ, List.length_append, ih]; simp [pixelTokens]; omega

@[simp] theorem windowTokens_length (c : Config) (v : Window) : (windowTokens c v).length = 11 := rfl

theorem txTokens_length (c : Config) (v : Window) (col : Half) :
    (txTokens c v col).length = 2 * (v.w * v.h) + 13 := by
  simp [txTokens]; omega

/-- `stream_color` emits its pixels and does nothing else. -/
theorem streamColor_eq (c : Half) (n : Nat) (s : State) : streamColor c n s = s.addOut (colorTokens c n) := by
  induction n generalizing s with
  | zero => simp [streamColor, State.addOut]
  | succ n ih =>
    rw [streamColor, ih, colorTokens_succ]
    simp [State.addOut, pixelTokens, sendData, emit]

/-- `set_window` on an accepted window emits its eleven tokens and leaves `dc` at data. -/
theorem setWindow_eq {v : Window} {s : State} (h : winOk s.cfg v = true) :
    setWindow v s = (true, { s with out := s.out ++ windowTokens s.cfg v, dc := .data }) := by
  simp [setWindow, h, windowTokens, send16, sendCommand, sendData, emit]

theorem setWindow_rejects {v : Window} {s : State} (h : winOk s.cfg v = false) : setWindow v s = (false, s) := by
  simp [setWindow, h]

/-- `window_tx` on an accepted window emits one transaction and leaves the lines at rest. -/
theorem windowTx_accepts {v : Window} {c : Half} {s : State} (h : winOk s.cfg v = true) :
    windowTx v c s = { s with out := s.out ++ txTokens s.cfg v c, cs := .inactive, dc := .data } := by
  have h' : winOk (select s).cfg v = true := h
  simp only [windowTx, h, if_true, setWindow_eq h', streamColor_eq]
  simp [State.addOut, txTokens, deselect, select, emit]

theorem windowTx_rejects {v : Window} {c : Half} {s : State} (h : winOk s.cfg v = false) : windowTx v c s = s := by
  simp [windowTx, h]

/-- From lines at rest a transaction changes the stream alone. -/
theorem windowTx_atRest {v : Window} {c : Half} {s : State} (hr : AtRest s) :
    windowTx v c s = s.addOut (if winOk s.cfg v then txTokens s.cfg v c else []) := by
  cases h : winOk s.cfg v with
  | true => rw [windowTx_accepts h]; simp [State.addOut, ← hr.1, ← hr.2]
  | false => rw [windowTx_rejects h]; simp [State.addOut]

theorem winOk_iff (c : Config) (v : Window) : winOk c v = true ↔
    0 ≤ v.x ∧ 1 ≤ v.w ∧ v.x + v.w - 1 < c.xMax ∧ 0 ≤ v.y ∧ 1 ≤ v.h ∧ v.y + v.h - 1 < c.yMax := by
  simp [winOk]

theorem onPanel_iff (c : Config) (x y : Int) : onPanel c x y = true ↔
    0 ≤ x ∧ x < c.xMax ∧ 0 ≤ y ∧ y < c.yMax := by
  simp [onPanel]

/-- A one-pixel window is accepted exactly on the panel (R152). -/
theorem winOk_pixel (c : Config) (x y : Int) : winOk c ⟨x, y, 1, 1⟩ = onPanel c x y := by
  rw [Bool.eq_iff_iff, winOk_iff, onPanel_iff]
  constructor <;> intro h <;> refine ⟨?_, ?_⟩ <;> simp at h ⊢ <;> omega

/-- The panel's own window is accepted (R150). -/
theorem winOk_panel {c : Config} (h : c.wf = true) : winOk c (panelWindow c) = true := by
  simp [Config.wf] at h
  rw [winOk_iff]
  simp [panelWindow]
  omega

/-- The clipped window of `hline` is accepted (R155). -/
theorem winOk_hline {c : Config} {x y : Int} {w : Nat} {v : Window} (h : hlineWindow c x y w = some v) :
    winOk c v = true := by
  unfold hlineWindow at h
  split at h
  · cases h
  · rename_i hc
    simp only [Bool.or_eq_true, Bool.not_eq_true', beq_iff_eq, not_or, Bool.not_eq_false] at hc
    rw [onPanel_iff] at hc
    cases h
    rw [winOk_iff]
    dsimp only
    split <;> refine ⟨hc.1.1, ?_, ?_, hc.1.2.2.1, ?_, ?_⟩ <;> omega

/-- The clipped window of `vline` is accepted (R159). -/
theorem winOk_vline {c : Config} {x y : Int} {w : Nat} {v : Window} (h : vlineWindow c x y w = some v) :
    winOk c v = true := by
  unfold vlineWindow at h
  split at h
  · cases h
  · rename_i hc
    simp only [Bool.or_eq_true, Bool.not_eq_true', beq_iff_eq, not_or, Bool.not_eq_false] at hc
    rw [onPanel_iff] at hc
    cases h
    rw [winOk_iff]
    dsimp only
    split <;> refine ⟨hc.1.1, ?_, ?_, hc.1.2.2.1, ?_, ?_⟩ <;> omega

theorem winOk_pixelWindow {c : Config} {x y : Int} {v : Window} (h : pixelWindow c x y = some v) :
    winOk c v = true := by
  unfold pixelWindow at h
  split at h
  · cases h; rw [winOk_pixel]; assumption
  · cases h

/-- What an operation's window emits: the transaction of an accepted window, nothing otherwise. -/
def windowStream (c : Config) (v : Option Window) (col : Half) : List Token :=
  match v with
  | none => []
  | some v => if winOk c v then txTokens c v col else []

/-- From lines at rest an operation that sets a window changes the stream alone. -/
theorem drawWindow_atRest {v : Option Window} {c : Half} {s : State} (hr : AtRest s) :
    drawWindow v c s = s.addOut (windowStream s.cfg v c) := by
  cases v with
  | none => simp [drawWindow, windowStream, State.addOut]
  | some v => rw [drawWindow, windowTx_atRest hr]; rfl

theorem windowStream_pixel (c : Config) (x y : Int) (col : Half) :
    windowStream c (pixelWindow c x y) col = pixelStream c x y col := by
  unfold pixelWindow pixelStream
  cases h : onPanel c x y with
  | true =>
    have h' := (onPanel_iff c x y).1 h
    simp [windowStream, winOk_pixel, h, h']
  | false =>
    have h' : ¬ _ := fun hh => by have := (onPanel_iff c x y).2 hh; simp [h] at this
    rw [if_neg h']; simp [windowStream]

/-- `draw_pixel_tx` from lines at rest (R152). -/
theorem drawPixelTx_atRest {x y : Int} {c : Half} {s : State} (hr : AtRest s) :
    drawPixelTx x y c s = s.addOut (pixelStream s.cfg x y c) := by
  rw [drawPixelTx, drawWindow_atRest hr, windowStream_pixel]

theorem addOut_addOut (s : State) (a b : List Token) : (s.addOut a).addOut b = s.addOut (a ++ b) := by
  simp [State.addOut]

@[simp] theorem addOut_nil (s : State) : s.addOut [] = s := by simp [State.addOut]

theorem AtRest.addOut {s : State} (h : AtRest s) (a : List Token) : AtRest (s.addOut a) := h

end Sys2Proof.Machine
end

