-- ==== Sys2Proof/Laws/Controller.lean ====
section
/-! SUPPORT. What the controller's reference reading does with each part of a transaction. -/

namespace Sys2Proof.Machine

namespace Controller

theorem readOn_cons {c : Config} {k k' : Ctl} {t : Token} {ts : List Token} (h : consume c k t = .ok k') :
    readOn c k (t :: ts) = readOn c k' ts := by rw [readOn, h]

theorem readOn_stops {c : Config} {k : Ctl} {t : Token} {ts : List Token} {e : NoReading}
    (h : consume c k t = .error e) : readOn c k (t :: ts) = .error e := by rw [readOn, h]

/-- A stream is read piece by piece. -/
theorem readOn_append {c : Config} {k k' : Ctl} {ts us : List Token} (h : readOn c k ts = .ok k') :
    readOn c k (ts ++ us) = readOn c k' us := by
  induction ts generalizing k with
  | nil => cases h; rfl
  | cons t ts ih =>
    rw [readOn] at h
    rw [List.cons_append, readOn]
    cases hc : consume c k t with
    | ok k1 => rw [hc] at h; exact ih h
    | error e => rw [hc] at h; cases h

/-- A stream that begins with `SEL` is read the same in every phase, the one before the first token being open (R111). -/
theorem reading_sel (c : Config) (k : Ctl) (ts : List Token) :
    reading c k (.sel :: ts) = readOn c { k with phase := .lost } ts := rfl

@[simp] theorem pair_halves (v : Half) : pair (hi8 v) (lo8 v) = v := by
  apply BitVec.eq_of_getLsbD_eq
  intro i hi
  simp only [pair, hi8, lo8, BitVec.getLsbD_append, BitVec.getLsbD_extractLsb']
  by_cases h : i < 8
  · simp [h]
  · simp [h, show i - 8 < 8 by omega, show 8 + (i - 8) = i by omega]

/-- The eleven tokens of an accepted window set it and begin its memory write (R112, R113). -/
theorem readOn_windowTokens {c : Config} {v : Window} {k : Ctl} (hc : c.wf = true) (hv : winOk c v = true)
    (h1 : c.opcCaset ≠ c.opcRaset) (h2 : c.opcCaset ≠ c.opcRamwr) (h3 : c.opcRaset ≠ c.opcRamwr)
    (hk : k.phase = .lost) :
    readOn c k (windowTokens c v) = .ok { k with
      xs := enc16 v.x, xe := enc16 (v.x + v.w - 1), ys := enc16 v.y, ye := enc16 (v.y + v.h - 1)
      px := v.x.toNat, py := v.y.toNat, phase := .memWrite none } := by
  have hb := (winOk_iff c v).1 hv
  simp only [Config.wf, Bool.and_eq_true, decide_eq_true_eq] at hc
  have e : ∀ n : Int, 0 ≤ n → n < 65536 → (enc16 n).toNat = n.toNat := by
    intro n _ _
    rw [enc16, BitVec.toNat_ofInt]
    omega
  have ex := e v.x (by omega) (by omega)
  have ex' := e (v.x + v.w - 1) (by omega) (by omega)
  have ey := e v.y (by omega) (by omega)
  have ey' := e (v.y + v.h - 1) (by omega) (by omega)
  have hw : ∀ k' : Ctl, k'.xs = enc16 v.x → k'.xe = enc16 (v.x + v.w - 1) → k'.ys = enc16 v.y →
      k'.ye = enc16 (v.y + v.h - 1) → windowOk c k' = true := by
    intro k' a1 a2 a3 a4
    rw [windowOk, a1, a2, a3, a4, decide_eq_true_eq, BitVec.le_def, BitVec.le_def, ex, ex', ey, ey']
    omega
  obtain ⟨g, xs, xe, ys, ye, px, py, ph⟩ := k
  cases hk
  simp [windowTokens, readOn, consume, onCommand, onData, oddHeld, h1.symm, h2.symm, h3.symm, hw, ex, ey]

/-- The two tokens of a pixel write one cell and move the pointer on (R113). -/
theorem readOn_pixelTokens {c : Config} {col : Half} {k : Ctl} (hp : k.phase = .memWrite none)
    (hw : windowOk c k = true) (hx : k.px < c.xMax) (hy : k.py ≤ k.ye.toNat) :
    readOn c k (pixelTokens col) = .ok { k with
      gram := ⟨k.px, k.py, col⟩ :: k.gram
      px := if k.xe.toNat < k.px + 1 then k.xs.toNat else k.px + 1
      py := if k.xe.toNat < k.px + 1 then k.py + 1 else k.py } := by
  obtain ⟨g, xs, xe, ys, ye, px, py, ph⟩ := k
  cases hp
  simp only [pixelTokens, readOn, consume, onData, writePixel, pair_halves]
  have hw' : windowOk c ⟨g, xs, xe, ys, ye, px, py, .memWrite (some (hi8 col))⟩ = true := hw
  rw [hw', if_neg (by simpa using hx), if_neg (Nat.not_lt.2 hy)]
  by_cases h : xe.toNat < px + 1 <;> simp [h]

/-- The `m`-th pixel of a window in the order of the stream (R113). -/
def windowCell (v : Window) (col : Half) (m : Nat) : PixelWrite := ⟨v.x.toNat + m % v.w, v.y.toNat + m / v.w, col⟩

theorem windowWrites_eq (v : Window) (col : Half) :
    windowWrites v col = (List.range (v.w * v.h)).map (windowCell v col) := by
  rw [windowWrites]
  induction v.h with
  | zero => rfl
  | succ h ih =>
    rw [List.range_succ, List.flatMap_append, ih, Nat.mul_succ, List.range_add, List.map_append, List.map_map]
    congr 1
    simp only [List.flatMap_cons, List.flatMap_nil, List.append_nil]
    refine List.map_congr_left fun i hi => ?_
    have hi := List.mem_range.1 hi
    simp [windowCell, Nat.mod_eq_of_lt hi, Nat.mul_add_div (by omega : v.w > 0), Nat.div_eq_of_lt hi]

/-- The first `m` pixels of a window that has just been set (R113). -/
theorem readOn_colorTokens {c : Config} {v : Window} {col : Half} {k : Ctl} (hp : k.phase = .memWrite none)
    (hok : windowOk c k = true) (hw : 1 ≤ v.w) (hxs : k.xs.toNat = v.x.toNat) (hxe : k.xe.toNat = v.x.toNat + v.w - 1)
    (hye : k.ye.toNat = v.y.toNat + v.h - 1) (hpx : k.px = v.x.toNat) (hpy : k.py = v.y.toNat) {m : Nat}
    (hm : m ≤ v.w * v.h) :
    readOn c k (colorTokens col m) = .ok { k with
      gram := ((List.range m).map (windowCell v col)).reverse ++ k.gram
      px := v.x.toNat + m % v.w, py := v.y.toNat + m / v.w } := by
  induction m with
  | zero =>
    rw [Nat.zero_mod, Nat.zero_div, Nat.add_zero, Nat.add_zero, ← hpx, ← hpy]
    rfl
  | succ m ih =>
    have hd : m / v.w < v.h := Nat.div_lt_of_lt_mul (by omega)
    rw [colorTokens_succ', readOn_append (ih (by omega))]
    have hlt := Nat.mod_lt m (show v.w > 0 by omega)
    have hdm := Nat.div_add_mod m v.w
    have hin : k.xe.toNat < c.xMax := by
      simp only [windowOk, decide_eq_true_eq] at hok
      exact hok.2.2.1
    refine (readOn_pixelTokens (by exact hp) (by exact hok) (by dsimp only; omega) (by dsimp only; omega)).trans ?_
    dsimp only
    simp only [List.range_succ, List.map_append, List.map_cons, List.map_nil, List.reverse_append,
      List.reverse_cons, List.reverse_nil, List.nil_append, List.cons_append]
    by_cases h : m % v.w + 1 = v.w
    · have hs : m + 1 = v.w * (m / v.w + 1) := by rw [Nat.mul_add]; omega
      have e1 : (m + 1) % v.w = 0 := by rw [hs]; exact Nat.mul_mod_right ..
      have e2 : (m + 1) / v.w = m / v.w + 1 := by rw [hs]; exact Nat.mul_div_cancel_left _ (by omega)
      rw [if_pos (by omega), if_pos (by omega), e1, e2, hxs]
      rfl
    · have hs : m + 1 = v.w * (m / v.w) + (m % v.w + 1) := by omega
      have e1 : (m + 1) % v.w = m % v.w + 1 := by
        rw [hs, Nat.mul_add_mod]; exact Nat.mod_eq_of_lt (by omega)
      have e2 : (m + 1) / v.w = m / v.w := by
        rw [hs, Nat.mul_add_div (by omega), Nat.div_eq_of_lt (by omega : m % v.w + 1 < v.w)]; omega
      rw [if_neg (by omega), if_neg (by omega), e1, e2]
      rfl

end Controller

end Sys2Proof.Machine
end

