-- ==== Sys2Proof/Laws/Decode.lean ====
section
/-! SUPPORT. Fields of assembled words, and what the decoder can answer. -/

namespace Sys2Proof

/-! ### Fields of words put together -/

theorem extract_append_left {m n : Nat} (x : BitVec m) (y : BitVec n) (s l : Nat) :
    (x ++ y).extractLsb' (n + s) l = x.extractLsb' s l := by
  ext i hi
  simp [BitVec.getLsbD_append, show ¬(n + s + i < n) by omega, show n + s + i - n = s + i by omega]

theorem extract_append_right {m n : Nat} (x : BitVec m) (y : BitVec n) {s l : Nat} (h : s + l ≤ n) :
    (x ++ y).extractLsb' s l = y.extractLsb' s l := by
  ext i hi
  simp [BitVec.getLsbD_append, show s + i < n by omega]

theorem extract_whole {n : Nat} (x : BitVec n) : x.extractLsb' 0 n = x := by
  ext i hi
  simp

@[simp] theorem half1_ofHalves (hi lo : Half) : half1 (ofHalves hi lo) = hi :=
  (extract_append_left hi lo 0 16).trans (extract_whole hi)

@[simp] theorem half0_ofHalves (hi lo : Half) : half0 (ofHalves hi lo) = lo :=
  (extract_append_right hi lo (s := 0) (by decide)).trans (extract_whole lo)

@[simp] theorem byte3_ofByteHalf (b : Byte) (lo : Half) : byte3 (ofByteHalf b lo) = b :=
  (extract_append_left (b ++ 0#8) lo 8 8).trans ((extract_append_left b 0#8 0 8).trans (extract_whole b))

@[simp] theorem half0_ofByteHalf (b : Byte) (lo : Half) : half0 (ofByteHalf b lo) = lo :=
  (extract_append_right (b ++ 0#8) lo (s := 0) (by decide)).trans (extract_whole lo)

@[simp] theorem byte3_ofBytes (b3 b2 b1 b0 : Byte) : byte3 (ofBytes b3 b2 b1 b0) = b3 :=
  (extract_append_left (b3 ++ b2 ++ b1) b0 16 8).trans ((extract_append_left (b3 ++ b2) b1 8 8).trans
    ((extract_append_left b3 b2 0 8).trans (extract_whole b3)))

@[simp] theorem byte2_ofBytes (b3 b2 b1 b0 : Byte) : byte2 (ofBytes b3 b2 b1 b0) = b2 :=
  (extract_append_left (b3 ++ b2 ++ b1) b0 8 8).trans ((extract_append_left (b3 ++ b2) b1 0 8).trans
    ((extract_append_right b3 b2 (s := 0) (by decide)).trans (extract_whole b2)))

@[simp] theorem byte1_ofBytes (b3 b2 b1 b0 : Byte) : byte1 (ofBytes b3 b2 b1 b0) = b1 :=
  (extract_append_left (b3 ++ b2 ++ b1) b0 0 8).trans
    ((extract_append_right (b3 ++ b2) b1 (s := 0) (by decide)).trans (extract_whole b1))

@[simp] theorem byte0_ofBytes (b3 b2 b1 b0 : Byte) : byte0 (ofBytes b3 b2 b1 b0) = b0 :=
  (extract_append_right (b3 ++ b2 ++ b1) b0 (s := 0) (by decide)).trans (extract_whole b0)

/-! ### Bits of words put together -/

theorem getLsbD_ofHalves (hi lo : Half) (i : Nat) :
    (ofHalves hi lo).getLsbD i = if i < 16 then lo.getLsbD i else hi.getLsbD (i - 16) := by
  have h := BitVec.getLsbD_append (x := hi) (y := lo) (i := i)
  rw [← h]; rfl

theorem getLsbD_ofByteHalf (b : Byte) (lo : Half) (i : Nat) :
    (ofByteHalf b lo).getLsbD i =
      if i < 16 then lo.getLsbD i else if i < 24 then false else b.getLsbD (i - 24) := by
  have h := BitVec.getLsbD_append (x := b ++ 0#8) (y := lo) (i := i)
  have h' := BitVec.getLsbD_append (x := b) (y := 0#8) (i := i - 16)
  have e : (ofByteHalf b lo).getLsbD i = (b ++ 0#8 ++ lo).getLsbD i := rfl
  rw [e, h, h']
  by_cases h1 : i < 16
  · simp [h1]
  · by_cases h2 : i < 24
    · simp [h1, h2, show i - 16 < 8 by omega]
    · simp [h1, h2, show ¬(i - 16 < 8) by omega, show i - 16 - 8 = i - 24 by omega]

theorem getLsbD_ofBytes (b3 b2 b1 b0 : Byte) (i : Nat) :
    (ofBytes b3 b2 b1 b0).getLsbD i =
      if i < 8 then b0.getLsbD i else if i < 16 then b1.getLsbD (i - 8)
      else if i < 24 then b2.getLsbD (i - 16) else b3.getLsbD (i - 24) := by
  have h := BitVec.getLsbD_append (x := b3 ++ b2 ++ b1) (y := b0) (i := i)
  have h1 := BitVec.getLsbD_append (x := b3 ++ b2) (y := b1) (i := i - 8)
  have h2 := BitVec.getLsbD_append (x := b3) (y := b2) (i := i - 8 - 8)
  have e : (ofBytes b3 b2 b1 b0).getLsbD i = (b3 ++ b2 ++ b1 ++ b0).getLsbD i := rfl
  rw [e, h, h1, h2]
  by_cases a : i < 8
  · simp [a]
  · by_cases b : i < 16
    · simp [a, b, show i - 8 < 8 by omega]
    · by_cases c : i < 24
      · simp [a, b, c, show ¬(i - 8 < 8) by omega, show i - 8 - 8 = i - 16 by omega,
          show i - 16 < 8 by omega]
      · simp [a, b, c, show ¬(i - 8 < 8) by omega, show ¬(i - 8 - 8 < 8) by omega,
          show i - 8 - 8 - 8 = i - 24 by omega]

/-! ### What the decoder can answer -/

/-- A whole packet: its opcode is the header's, and its words are those of its length. -/
theorem decode_packet_opc {w0 : Word} {ws rest : List Word} {i : Instr}
    (h : decode (w0 :: ws) = .packet i rest) :
    byte3 w0 = i.opc ∧ ∃ ps, ws = ps ++ rest ∧ ps.length + 1 = (encode i).length := by
  have key : ∀ n : Nat, (byte3 w0).toNat = n → byte3 w0 = BitVec.ofNat 8 n := fun n hn => by
    rw [← hn]; simp
  simp only [decode, decodeAfter] at h
  split at h
  case h_1 e => cases h; exact ⟨key _ e, [], rfl, rfl⟩
  case h_2 e => cases h; exact ⟨key _ e, [], rfl, rfl⟩
  case h_3 e =>
    match ws, h with
    | w1 :: r, h => cases h; exact ⟨key _ e, [w1], rfl, rfl⟩
  case h_4 e =>
    match ws, h with
    | w1 :: w2 :: r, h => cases h; exact ⟨key _ e, [w1, w2], rfl, rfl⟩
  case h_5 e =>
    match ws, h with
    | w1 :: w2 :: r, h => cases h; exact ⟨key _ e, [w1, w2], rfl, rfl⟩
  case h_6 e =>
    match ws, h with
    | w1 :: w2 :: r, h => cases h; exact ⟨key _ e, [w1, w2], rfl, rfl⟩
  case h_7 e =>
    match ws, h with
    | w1 :: w2 :: r, h => cases h; exact ⟨key _ e, [w1, w2], rfl, rfl⟩
  case h_8 e =>
    match ws, h with
    | w1 :: w2 :: w3 :: w4 :: w5 :: r, h => cases h; exact ⟨key _ e, [w1, w2, w3, w4, w5], rfl, rfl⟩
  case h_9 e =>
    match ws, h with
    | w1 :: w2 :: r, h => cases h; exact ⟨key _ e, [w1, w2], rfl, rfl⟩
  case h_10 => cases h

end Sys2Proof
end

