-- ==== Sys2Proof/Laws/Frame.lean ====
section
/-! SUPPORT. What the shared operations leave unchanged. -/

namespace Sys2Proof.Machine

/-- A transaction changes the stream and the lines alone. -/
theorem windowTx_frame (v : Window) (c : Half) (s : State) :
    ∃ o d e, windowTx v c s = { s with out := s.out ++ o, cs := d, dc := e } := by
  cases h : winOk s.cfg v with
  | true => exact ⟨_, _, _, windowTx_accepts h⟩
  | false => exact ⟨[], s.cs, s.dc, by rw [windowTx_rejects h]; simp⟩

/-- So does an operation that sets a window, or none. -/
theorem drawWindow_frame (v : Option Window) (c : Half) (s : State) :
    ∃ o d e, drawWindow v c s = { s with out := s.out ++ o, cs := d, dc := e } := by
  cases v with
  | none => exact ⟨[], s.cs, s.dc, by simp [drawWindow]⟩
  | some v => exact windowTx_frame v c s

/-- So does a run of the stepper. -/
theorem plotPoints_frame (c : Half) (n : Nat) (st : Stepper) (s : State) :
    ∃ o d e, plotPoints c n st s = { s with out := s.out ++ o, cs := d, dc := e } := by
  induction n generalizing st s with
  | zero => exact ⟨[], s.cs, s.dc, by simp [plotPoints]⟩
  | succ n ih =>
    obtain ⟨o, d, e, h⟩ := drawWindow_frame (pixelWindow s.cfg st.point.1 st.point.2) c s
    obtain ⟨o', d', e', h'⟩ := ih st.next (drawPixelTx st.point.1 st.point.2 c s)
    refine ⟨o ++ o', d', e', ?_⟩
    rw [plotPoints, h', drawPixelTx, h]; simp

/-- So does a line. -/
theorem drawLine_frame (a b c d : Int) (col : Half) (s : State) :
    ∃ o f e, drawLine a b c d col s = { s with out := s.out ++ o, cs := f, dc := e } := by
  unfold drawLine
  split
  · exact drawWindow_frame _ _ _
  · split
    · exact drawWindow_frame _ _ _
    · exact plotPoints_frame _ _ _ _

/-- So do the columns of a display row. -/
theorem drawColumns_frame (a : TextArgs) (cx : Word) (row : Nat) (b : Byte) (n col : Nat) (s : State) :
    ∃ o d e, drawColumns a cx row b n col s = { s with out := s.out ++ o, cs := d, dc := e } := by
  induction n generalizing col s with
  | zero => exact ⟨[], s.cs, s.dc, by simp [drawColumns]⟩
  | succ n ih =>
    obtain ⟨o, d, e, h⟩ := drawWindow_frame (pixelWindow s.cfg (cursorVal cx + col) (sext16 a.y + row))
      (columnColor a b col) s
    obtain ⟨o', d', e', h'⟩ := ih (col + 1) (drawColumn a cx row b col s)
    refine ⟨o ++ o', d', e', ?_⟩
    rw [drawColumns, h', drawColumn, drawPixelTx, h]; simp

/-- A read that succeeds changes the count of free values alone. -/
theorem memRead_frame {p : Word} {s s' : State} {b : Byte} (h : memRead p s = .byte b s') : ∃ n, s' = { s with draws := n } := by
  rcases memRead_byte h with rfl | rfl
  · exact ⟨_, rfl⟩
  · exact ⟨_, rfl⟩

/-- A fault changes the stream, the select line, the code and the sequencer alone (R244). -/
theorem raiseFault_frame (c : BitVec 4) (s : State) :
    ∃ o d, raiseFault c s = { s with out := s.out ++ o, cs := d, faultCode := c, seq := .halted } := by
  unfold raiseFault closeTransaction
  split
  · exact ⟨[.desel], .inactive, rfl⟩
  · exact ⟨[], s.cs, by simp⟩

/-- Display rows go on, or end in fault 2 (R246). -/
theorem drawRows_frame (a : TextArgs) (cx : Word) (n row : Nat) (ref : Word) (s : State) :
    match drawRows a cx n row ref s with
    | .go t => ∃ o d e k, t = { s with out := s.out ++ o, cs := d, dc := e, draws := k }
    | .stop t => ∃ o d e k,
      t = { s with out := s.out ++ o, cs := d, dc := e, draws := k, faultCode := 2, seq := .halted } := by
  induction n generalizing row ref s with
  | zero => exact ⟨[], s.cs, s.dc, s.draws, by simp⟩
  | succ n ih =>
    simp only [drawRows]
    cases h : memRead ref s with
    | fail =>
      obtain ⟨o, d, h⟩ := raiseFault_frame srcReadErrorCode s
      exact ⟨o, d, s.dc, s.draws, h⟩
    | byte b s' =>
      obtain ⟨k, rfl⟩ := memRead_frame h
      simp only
      obtain ⟨o, d, e, h⟩ := drawColumns_frame a cx row b (zext8 a.fw) 0 { s with draws := k }
      have I := ih (row + 1) (rowBefore a ref) (drawColumns a cx row b (zext8 a.fw) 0 { s with draws := k })
      split at I
      all_goals
        obtain ⟨o', d', e', k', rfl⟩ := I
        exact ⟨o ++ o', d', e', k', by rw [h]; simp⟩

/-- A text loop is still running, or has completed and written RESULT_X (R213), or has ended in fault 2 (R246); `t` is
its state, begun in `s`. -/
def TextOutcome (s t : State) : Prop :=
  (∃ o d e k q, t = { s with out := s.out ++ o, cs := d, dc := e, draws := k, seq := .exec q }) ∨
  (∃ o d e k x, t = { s with out := s.out ++ o, cs := d, dc := e, draws := k, resultX := x, seq := .idle }) ∨
  (∃ o d e k, t = { s with out := s.out ++ o, cs := d, dc := e, draws := k, faultCode := 2, seq := .halted })

/-- What was drawn before a text loop's outcome belongs to it. -/
theorem TextOutcome.after {s t : State} {o : List Token} {d : SelectLine} {e : DataLine} {k : Nat}
    (h : TextOutcome { s with out := s.out ++ o, cs := d, dc := e, draws := k } t) : TextOutcome s t := by
  rcases h with ⟨o', d', e', k', q, rfl⟩ | ⟨o', d', e', k', q, rfl⟩ | ⟨o', d', e', k', rfl⟩
  · exact .inl ⟨o ++ o', d', e', k', q, by simp⟩
  · exact .inr (.inl ⟨o ++ o', d', e', k', q, by simp⟩)
  · exact .inr (.inr ⟨o ++ o', d', e', k', by simp⟩)

theorem textLoop_frame (a : TextArgs) (n : Nat) (p cx : Word) (s : State) : TextOutcome s (textLoop a n p cx s) := by
  induction n generalizing p cx s with
  | zero => exact .inl ⟨[], s.cs, s.dc, s.draws, _, by rw [textLoop]; simp; rfl⟩
  | succ n ih =>
    rw [textLoop]
    cases h : memRead p s with
    | fail =>
      obtain ⟨o, d, h⟩ := raiseFault_frame srcReadErrorCode s
      exact .inr (.inr ⟨o, d, s.dc, s.draws, h⟩)
    | byte ch s' =>
      obtain ⟨k, rfl⟩ := memRead_frame h
      simp only
      split
      · exact .inr (.inl ⟨[], s.cs, s.dc, k, cx, by simp [endText, complete]⟩)
      · split
        · exact TextOutcome.after (o := []) (by simpa using ih _ _ { s with draws := k })
        · have I := drawRows_frame a cx (zext8 a.table.gh) 0 (by assumption) { s with draws := k }
          split at I <;> rename_i e <;> simp only [e]
          · obtain ⟨o', d', e', k', rfl⟩ := I
            exact TextOutcome.after (ih _ _ _)
          · obtain ⟨o', d', e', k', rfl⟩ := I
            exact .inr (.inr ⟨o', d', e', k', rfl⟩)

end Sys2Proof.Machine
end

