-- ==== Sys2Proof/Laws/Glyph.lean ====
section
/-! SUPPORT. What glyph lookup and the text loop can do. -/

namespace Sys2Proof.Machine

/-! ### Glyph addresses -/

theorem lookupGlyph_some {t : GlyphTable} {ch : Byte} (h : inTable t ch = true) :
    lookupGlyph t ch = some (glyphRef t (ch.toNat - t.first.toNat)) := by
  simp only [inTable, decide_eq_true_eq] at h
  simp [lookupGlyph, zext8, zext16, h]

theorem lookupGlyph_none {t : GlyphTable} {ch : Byte} (h : inTable t ch = false) : lookupGlyph t ch = none := by
  simp only [inTable, decide_eq_false_iff_not] at h
  exact if_neg h

/-- The glyph reference is the address of display row 0 (R201, R215). -/
theorem glyphRef_eq_rowAddr {t : GlyphTable} {ch : Byte} (h : inTable t ch = true) :
    glyphRef t (ch.toNat - t.first.toNat) = rowAddr t ch 0 := by
  simp only [inTable, decide_eq_true_eq] at h
  simp only [glyphRef, srcAddr, rowAddr, zext8]
  congr 1
  push_cast [h.1]
  ring

/-- One row up in memory is one display row down (R207, R215). -/
theorem rowBefore_rowAddr (a : TextArgs) (ch : Byte) (r : Nat) :
    rowBefore a (rowAddr a.table ch r) = rowAddr a.table ch (r + 1) := by
  have e : a.table.gbw.setWidth 32 = BitVec.ofInt 32 a.table.gbw.toNat := by
    apply BitVec.eq_of_toNat_eq
    have := a.table.gbw.isLt
    simp
  have key : rowAddr a.table ch r = rowAddr a.table ch (r + 1) + a.table.gbw.setWidth 32 := by
    rw [e, rowAddr, rowAddr, ← BitVec.ofInt_add]
    congr 1
    push_cast
    ring
  rw [rowBefore, key, BitVec.add_sub_cancel]

/-! ### The cursor -/

theorem advanceCursor_eq (cx : Word) (fw : Byte) : advanceCursor cx fw = cx + fw.setWidth 32 := by
  have e : fw.setWidth 32 = BitVec.ofInt 32 fw.toNat := by
    apply BitVec.eq_of_toNat_eq
    have := fw.isLt
    simp
  rw [advanceCursor, cursorOf, cursorVal, zext8, BitVec.ofInt_add, BitVec.ofInt_toInt, e]

theorem cursorOf_sext16 (x : Half) : cursorOf (sext16 x) = x.signExtend 32 := rfl

/-! ### The loops of DRAW_TEXT -/

/-- Columns drawn from lines at rest (R207, R210). -/
theorem drawColumns_atRest {a : TextArgs} {cx : Word} {row : Nat} {b : Byte} (n col : Nat) {s : State}
    (hr : AtRest s) :
    drawColumns a cx row b n col s = s.addOut ((List.range n).flatMap fun (k : Nat) =>
      pixelStream s.cfg (cx.toInt + (col + k : Nat)) (a.y.toInt + row) (columnColor a b (col + k))) := by
  induction n generalizing s col with
  | zero => simp [drawColumns]
  | succ n ih =>
    rw [drawColumns, drawColumn, drawPixelTx_atRest hr, ih _ (hr.addOut _), addOut_addOut, List.range_succ_eq_map,
      List.flatMap_cons, List.flatMap_map]
    simp only [cursorVal, sext16, State.addOut]
    congr 4
    funext k
    rw [show col + 1 + k = col + (k + 1) by omega]

theorem ReadsAs.addOut {s : State} {p : Word} {b : Byte} (h : ReadsAs s p b) (o : List Token) :
    ReadsAs (s.addOut o) p b := h

theorem HasChars.addOut {s : State} {p : Word} {cs : List Byte} (h : HasChars s p cs) (o : List Token) :
    HasChars (s.addOut o) p cs := by
  induction cs generalizing p with
  | nil => trivial
  | cons c cs ih => exact ⟨h.1, h.2.1, ih h.2.2⟩

/-- The row bytes of a character can be read from display row `row` for `n` rows (R211). -/
def RowsReadable (s : State) (t : GlyphTable) (ch : Byte) (row n : Nat) : Prop :=
  ∀ k < n, srcReadable s.cfg (rowAddr t ch (row + k)) = true ∧ racing s (rowAddr t ch (row + k)) = false

/-- What display rows `row` to `row + n - 1` emit. -/
def rowsStream (s : State) (a : TextArgs) (cx : Int) (ch : Byte) (row n : Nat) : List Token :=
  (List.range n).flatMap fun (k : Nat) => (List.range a.fw.toNat).flatMap fun (col : Nat) =>
    pixelStream s.cfg (cx + col) (a.y.toInt + (row + k : Nat)) (cellColor s a ch (row + k) col)

theorem rowsStream_zero (s : State) (a : TextArgs) (cx : Int) (ch : Byte) (n : Nat) :
    rowsStream s a cx ch 0 n = glyphRows s a cx ch n := by
  simp only [rowsStream, glyphRows, Nat.zero_add]

/-- Rows whose bytes can be read are drawn, and the loop goes on after them (R207). -/
theorem drawRows_readable {a : TextArgs} {cx : Word} {ch : Byte} (n m row : Nat) {s : State} (hr : AtRest s)
    (hm : RowsReadable s a.table ch row n) :
    drawRows a cx (n + m) row (rowAddr a.table ch row) s =
      drawRows a cx m (row + n) (rowAddr a.table ch (row + n))
        (s.addOut (rowsStream s a cx.toInt ch row n)) := by
  induction n generalizing s row with
  | zero => simp [rowsStream]
  | succ n ih =>
    have h0 := hm 0 (by omega)
    rw [Nat.add_zero] at h0
    rw [show n + 1 + m = (n + m) + 1 by omega, drawRows, memRead_of_readsAs ⟨h0.1, h0.2, rfl⟩]
    dsimp only
    rw [drawColumns_atRest _ _ hr, rowBefore_rowAddr, ih (row + 1) (hr.addOut _)
      (fun k hk => by
        have := hm (k + 1) (by omega)
        rwa [show row + (k + 1) = row + 1 + k by omega] at this)]
    rw [addOut_addOut, show row + 1 + n = row + (n + 1) by omega]
    congr 2
    rw [rowsStream, rowsStream, List.range_succ_eq_map, List.flatMap_cons, List.flatMap_map]
    congr 1
    · congr 1
      funext k
      simp [cellColor, columnColor]
    · congr 1
      funext k
      rw [show row + 1 + k = row + (k + 1) by omega]
      rfl

theorem textStream_addOut (s : State) (o : List Token) (a : TextArgs) (cx : Word) (cs : List Byte) :
    textStream (s.addOut o) a cx cs = textStream s a cx cs := by
  induction cs generalizing cx with
  | nil => rfl
  | cons c cs ih => simp only [textStream, ih]; rfl

/-- Characters and glyph rows that can be read are drawn, and the loop goes on after them (R207-R214). -/
theorem textLoop_readable {a : TextArgs} (n : Nat) {cs : List Byte} {p cx : Word} {s : State} (hr : AtRest s)
    (ht : HasChars s p cs) (hg : GlyphsReadable s a.table cs) :
    textLoop a (cs.length + n) p cx s =
      textLoop a n (textEnd p cs.length) (cx + BitVec.ofNat 32 (a.fw.toNat * foundCount a.table cs))
        (s.addOut (textStream s a cx cs)) := by
  induction cs generalizing p cx s with
  | nil => simp [textEnd, foundCount, textStream]
  | cons c cs ih =>
    obtain ⟨h1, h2, h3⟩ := ht
    have hg' : GlyphsReadable s a.table cs := fun ch hc => hg ch (List.mem_cons_of_mem _ hc)
    have hend : textEnd (p + 1) cs.length = textEnd p (cs.length + 1) := by
      rw [textEnd, textEnd, BitVec.add_assoc, BitVec.ofNat_add, BitVec.add_comm (1 : Word)]
      rfl
    rw [List.length_cons, show cs.length + 1 + n = (cs.length + n) + 1 by omega, textLoop, memRead_of_readsAs h2]
    simp only [h1, if_false]
    cases hi : inTable a.table c with
    | false =>
      have hf : foundCount a.table (c :: cs) = foundCount a.table cs := by simp [foundCount, hi]
      rw [lookupGlyph_none hi, textStream, hi, hf, ← hend]
      exact ih hr h3 hg'
    | true =>
      have hf : foundCount a.table (c :: cs) = foundCount a.table cs + 1 := by simp [foundCount, hi]
      have hd := drawRows_readable (a := a) (cx := cx) a.table.gh.toNat 0 0 hr
        (fun k hk => by simpa using hg c List.mem_cons_self hi k hk)
      rw [lookupGlyph_some hi, glyphRef_eq_rowAddr hi]
      simp only [zext8]
      rw [Nat.add_zero] at hd
      rw [hd, drawRows]
      dsimp only
      rw [ih (hr.addOut _) (h3.addOut _) hg', addOut_addOut, advanceCursor_eq, hf, ← hend, textStream, hi, if_pos rfl,
        textStream_addOut, rowsStream_zero, BitVec.add_assoc]
      congr 2
      apply BitVec.eq_of_toNat_eq
      simp [Nat.mul_add, Nat.add_comm]

end Sys2Proof.Machine
end

