-- ==== Sys2Proof/Laws/PerInstr.lean ====
section
/-! SUPPORT. Per constructor: the packet an instruction encodes to has the length of its opcode (R72, R83). -/

namespace Sys2Proof.Laws.PacketLength

/-- The packet has the length the opcode map gives its opcode. -/
def Statement : Instr → Prop := fun i => packetLen i.opc = some (encode i).length

theorem nop : Statement .nop := rfl
theorem fill (color : Half) : Statement (.fill color) := rfl
theorem drawPixel (x y color : Half) : Statement (.drawPixel x y color) := rfl
theorem drawHLine (x y w color : Half) : Statement (.drawHLine x y w color) := rfl
theorem drawVLine (x y h color : Half) : Statement (.drawVLine x y h color) := rfl
theorem drawLine (x0 y0 x1 y1 color : Half) : Statement (.drawLine x0 y0 x1 y1 color) := rfl
theorem drawRect (x y w h color : Half) : Statement (.drawRect x y w h color) := rfl
theorem drawText (a : TextArgs) : Statement (.drawText a) := rfl
theorem lookupGlyph (ch : Byte) (t : GlyphTable) : Statement (.lookupGlyph ch t) := rfl

end Sys2Proof.Laws.PacketLength
end

