-- ==== Sys2Proof/Laws/Raster.lean ====
section
/-! SUPPORT. The windows of lines and the diagonal stepper in closed form. -/

namespace Sys2Proof.Machine

/-- What `hline`'s window emits: the clipped line from an on-panel start (R155). -/
theorem windowStream_hline (c : Config) (x y : Int) (w : Nat) (col : Half) :
    windowStream c (hlineWindow c x y w) col = hlineStream c x y w col := by
  unfold hlineStream
  split
  · rename_i h
    have hp : onPanel c x y = true := (onPanel_iff _ _ _).2 h.1
    have : hlineWindow c x y w = some ⟨x, y, min w (c.xMax - x).toNat, 1⟩ := by
      simp [hlineWindow, hp, h.2]; split <;> omega
    rw [this]
    simp [windowStream, winOk_hline this]
  · rename_i h
    have : hlineWindow c x y w = none := by
      simp [hlineWindow]; intro hp; have := (onPanel_iff _ _ _).1 hp; by_contra hh; exact h ⟨this, hh⟩
    rw [this]; rfl

/-- What `vline`'s window emits: the clipped line from an on-panel start (R159). -/
theorem windowStream_vline (c : Config) (x y : Int) (w : Nat) (col : Half) :
    windowStream c (vlineWindow c x y w) col = vlineStream c x y w col := by
  unfold vlineStream
  split
  · rename_i h
    have hp : onPanel c x y = true := (onPanel_iff _ _ _).2 h.1
    have : vlineWindow c x y w = some ⟨x, y, 1, min w (c.yMax - y).toNat⟩ := by
      simp [vlineWindow, hp, h.2]; split <;> omega
    rw [this]
    simp [windowStream, winOk_vline this]
  · rename_i h
    have : vlineWindow c x y w = none := by
      simp [vlineWindow]; intro hp; have := (onPanel_iff _ _ _).1 hp; by_contra hh; exact h ⟨this, hh⟩
    rw [this]; rfl

/-- What one turn of the stepper does: `err` loses `dy`, and when that is negative it gains `dx` and the secondary
coordinate moves (R166). -/
theorem Stepper.next_cases (st : Stepper) :
    (st.err - st.dy < 0 ∧
      st.next = { st with p := st.p + 1, y := st.y + st.ystep, err := st.err - st.dy + st.dx }) ∨
    (0 ≤ st.err - st.dy ∧ st.next = { st with p := st.p + 1, err := st.err - st.dy }) := by
  by_cases h : st.err - st.dy < 0
  · exact .inl ⟨h, by simp only [Stepper.next, h, if_true]⟩
  · exact .inr ⟨by omega, by simp only [Stepper.next, h, if_false]⟩

/-- The stepper's points from lines at rest, one pixel transaction each (R166, R169). -/
theorem plotPoints_atRest (c : Half) (n : Nat) (st : Stepper) (s : State) (hr : AtRest s) :
    plotPoints c n st s = s.addOut (pointsStream s.cfg ((List.range n).map fun k => (Stepper.next^[k] st).point) c) := by
  induction n generalizing st s with
  | zero => simp [plotPoints, pointsStream]
  | succ n ih =>
    rw [plotPoints, drawPixelTx_atRest hr, ih _ _ (hr.addOut _), addOut_addOut]
    simp [pointsStream, List.range_succ_eq_map, List.map_map, Function.comp_def]

/-- A stepper before its first point, in the terms of `linePoint`. -/
def freshStepper (steep : Bool) (p q dx dy sg : Int) : Stepper := ⟨steep, p, p + dx, q, dx / 2, dx, dy, sg⟩

/-- The stepper after `k` points in closed form (R166, R167). -/
theorem stepper_iterate (steep : Bool) (p q dx dy sg : Int) (h1 : 1 ≤ dy) (h2 : dy ≤ dx) (k : Nat) :
    (Stepper.next^[k] (freshStepper steep p q dx dy sg)) =
      ⟨steep, p + k, p + dx, q + sg * ((k * dy + (dx - 1 - dx / 2)) / dx),
        dx / 2 - k * dy + dx * ((k * dy + (dx - 1 - dx / 2)) / dx), dx, dy, sg⟩ := by
  induction k with
  | zero =>
    have : (dx - 1 - dx / 2) / dx = 0 := by
      apply Int.ediv_eq_zero_of_lt <;> omega
    simp [freshStepper, this]
  | succ k ih =>
    rw [Function.iterate_succ_apply', ih]
    set j := (k * dy + (dx - 1 - dx / 2)) / dx with hj
    have e1 := Int.mul_ediv_add_emod (k * dy + (dx - 1 - dx / 2)) dx
    rw [← hj] at e1
    have e2 := Int.emod_nonneg (k * dy + (dx - 1 - dx / 2)) (show dx ≠ 0 by omega)
    have e3 := Int.emod_lt_of_pos (k * dy + (dx - 1 - dx / 2)) (show 0 < dx by omega)
    set r := (k * dy + (dx - 1 - dx / 2)) % dx
    have hk : ((k + 1 : Nat) : Int) * dy = k * dy + dy := by push_cast; ring
    by_cases hneg : dx / 2 - k * dy + dx * j - dy < 0
    · have hj' : (((k + 1 : Nat) : Int) * dy + (dx - 1 - dx / 2)) / dx = j + 1 := by
        rw [hk, Int.ediv_eq_iff_of_pos (by omega)]
        have : (j + 1) * dx = dx * j + dx := by ring
        have : (j + 1 + 1) * dx = dx * j + dx + dx := by ring
        constructor <;> nlinarith
      rw [hj']
      simp only [Stepper.next, hneg, if_true, hk]
      congr 1
      · push_cast; ring
      · ring
      · ring
    · have hj' : (((k + 1 : Nat) : Int) * dy + (dx - 1 - dx / 2)) / dx = j := by
        rw [hk, Int.ediv_eq_iff_of_pos (by omega)]
        have : j * dx = dx * j := by ring
        have : (j + 1) * dx = dx * j + dx := by ring
        constructor <;> nlinarith
      rw [hj']
      simp only [Stepper.next, hneg, if_false, hk]
      congr 1
      · push_cast; ring
      · ring

end Sys2Proof.Machine
end

