-- ==== Sys2Proof/Laws/Sequencer.lean ====
section
/-! SUPPORT. What the steps of a transaction add up to. -/

namespace Sys2Proof.Machine

/-- Finitely many steps, the transport and the read port ready, lead from `s` to `t`. -/
def Reaches (s t : State) : Prop := ∃ k, advanceMany k s = t

theorem advanceMany_add (j k : Nat) (s : State) : advanceMany (j + k) s = advanceMany k (advanceMany j s) := by
  induction j generalizing s with
  | zero => simp [advanceMany]
  | succ j ih => rw [show j + 1 + k = (j + k) + 1 by omega, advanceMany, ih, advanceMany]

theorem Reaches.refl (s : State) : Reaches s s := ⟨0, rfl⟩

theorem Reaches.trans {s t u : State} (h : Reaches s t) (h' : Reaches t u) : Reaches s u := by
  obtain ⟨j, rfl⟩ := h
  obtain ⟨k, rfl⟩ := h'
  exact ⟨j + k, advanceMany_add j k s⟩

theorem Reaches.one (s : State) : Reaches s (advance true s) := ⟨1, rfl⟩

theorem Reaches.step {s t : State} (h : advance true s = t) : Reaches s t := ⟨1, h⟩

/-- `s` in a transaction, at `pos`, with `o` emitted since `s`. -/
def inTx (s : State) (v : Window) (col : Half) (task : Task) (pos : TxPos) (o : List Token) : State :=
  { s with out := s.out ++ o, cs := .active, seq := .exec ⟨some ⟨v, col, pos⟩, task⟩ }

/-- One token of `set_window`, with the change of `dc` before a command byte (R104, R131). -/
theorem reaches_window_token (s : State) (v : Window) (col : Half) (task : Task) (o : List Token) (hd : s.dc = .data) (k : Nat) (hk : k ≤ 10) :
    Reaches (inTx s v col task (.window k) o)
      (inTx s v col task (afterWindow v k) (o ++ ((windowTokens s.cfg v)[k]?).toList)) := by
  interval_cases k
  · exact ⟨2, by simp [advanceMany, advance, advanceTx, inTx, windowTokens, hd, setTx, emit]⟩
  · exact ⟨1, by simp [advanceMany, advance, advanceTx, inTx, windowTokens, hd, setTx, emit]⟩
  · exact ⟨1, by simp [advanceMany, advance, advanceTx, inTx, windowTokens, hd, setTx, emit]⟩
  · exact ⟨1, by simp [advanceMany, advance, advanceTx, inTx, windowTokens, hd, setTx, emit]⟩
  · exact ⟨1, by simp [advanceMany, advance, advanceTx, inTx, windowTokens, hd, setTx, emit]⟩
  · exact ⟨2, by simp [advanceMany, advance, advanceTx, inTx, windowTokens, hd, setTx, emit]⟩
  · exact ⟨1, by simp [advanceMany, advance, advanceTx, inTx, windowTokens, hd, setTx, emit]⟩
  · exact ⟨1, by simp [advanceMany, advance, advanceTx, inTx, windowTokens, hd, setTx, emit]⟩
  · exact ⟨1, by simp [advanceMany, advance, advanceTx, inTx, windowTokens, hd, setTx, emit]⟩
  · exact ⟨1, by simp [advanceMany, advance, advanceTx, inTx, windowTokens, hd, setTx, emit]⟩
  · exact ⟨2, by simp [advanceMany, advance, advanceTx, inTx, windowTokens, hd, setTx, emit]⟩

/-- The rest of `set_window` (R131). -/
theorem reaches_window (s : State) (v : Window) (col : Half) (task : Task) (o : List Token) (hd : s.dc = .data) (n : Nat) (hk : n ≤ 10) :
    Reaches (inTx s v col task (.window (10 - n)) o)
      (inTx s v col task (.colorHi (v.w * v.h)) (o ++ (windowTokens s.cfg v).drop (10 - n))) := by
  induction n generalizing o with
  | zero => simpa [afterWindow, windowTokens] using reaches_window_token s v col task o hd 10 (by omega)
  | succ n ih =>
    have h1 := reaches_window_token s v col task o hd (10 - (n + 1)) (by omega)
    have h2 := ih (o ++ ((windowTokens s.cfg v)[10 - (n + 1)]?).toList) (by omega)
    refine Reaches.trans
      (t := inTx s v col task (.window (10 - n)) (o ++ ((windowTokens s.cfg v)[10 - (n + 1)]?).toList)) ?_ ?_
    · have : afterWindow v (10 - (n + 1)) = .window (10 - n) := by
        rw [afterWindow, if_pos (by omega)]; congr 1; omega
      rw [← this]; exact h1
    · convert h2 using 2
      rw [List.append_assoc]; congr 1
      have hk' : n ≤ 9 := by omega
      clear ih h1 h2
      interval_cases n <;> rfl

/-- A colour stream (R134). -/
theorem reaches_colors (s : State) (v : Window) (col : Half) (task : Task) (o : List Token) (n : Nat) :
    Reaches (inTx s v col task (.colorHi (n + 1)) o) (inTx s v col task .deselect (o ++ colorTokens col (n + 1))) := by
  induction n generalizing o with
  | zero =>
    exact ⟨2, by simp [advanceMany, advance, advanceTx, inTx, setTx, emit, sendData, afterPixel, colorTokens,
      pixelTokens]⟩
  | succ n ih =>
    refine Reaches.trans (t := inTx s v col task (.colorHi (n + 1)) (o ++ pixelTokens col)) ?_ ?_
    · exact ⟨2, by simp [advanceMany, advance, advanceTx, inTx, setTx, emit, sendData, afterPixel, pixelTokens]⟩
    · have := ih (o ++ pixelTokens col)
      rwa [List.append_assoc, ← colorTokens_succ] at this

/-- A whole transaction, step by step, is `window_tx` (R136). -/
theorem reaches_transaction (s : State) (v : Window) (col : Half) (task : Task) (hr : AtRest s) (hv : winOk s.cfg v = true) :
    Reaches { s with seq := .exec ⟨some ⟨v, col, .select⟩, task⟩ }
      { s.addOut (txTokens s.cfg v col) with seq := .exec ⟨none, task⟩ } := by
  have hn : ∃ n, v.w * v.h = n + 1 := by
    have := (winOk_iff _ _).1 hv
    have := Nat.mul_pos (show 0 < v.w by omega) (show 0 < v.h by omega)
    exact ⟨v.w * v.h - 1, by omega⟩
  obtain ⟨n, hn⟩ := hn
  refine Reaches.trans (t := inTx s v col task (.window 0) [.sel])
    ⟨1, by simp [advanceMany, advance, advanceTx, inTx, setTx, select, emit]⟩ ?_
  refine Reaches.trans (reaches_window s v col task _ hr.2 10 (by omega)) ?_
  rw [hn]
  refine Reaches.trans (reaches_colors s v col task _ n) ?_
  refine ⟨1, ?_⟩
  simp [advanceMany, advance, advanceTx, inTx, deselect, emit, State.addOut, txTokens, hn, hr.1]

/-- The transaction an operation opens, if its window is accepted (R136). -/
theorem reaches_openTx (s : State) (v : Option Window) (col : Half) (task : Task) (hr : AtRest s) :
    Reaches { s with seq := .exec ⟨openTx s.cfg v col, task⟩ }
      { s.addOut (windowStream s.cfg v col) with seq := .exec ⟨none, task⟩ } := by
  cases v with
  | none => simpa [openTx, windowStream] using Reaches.refl _
  | some v =>
    simp only [openTx, windowStream]
    cases h : winOk s.cfg v with
    | true => exact reaches_transaction s v col task hr h
    | false => simpa using Reaches.refl _

/-- The `k`-th token of `set_window`. -/
theorem windowTokens_get (c : Config) (v : Window) (k : Nat) (hk : k ≤ 10) :
    ∃ tok, (windowTokens c v)[k]? = some tok ∧ (windowTokens c v).take (k + 1) = (windowTokens c v).take k ++ [tok] := by
  have : k < (windowTokens c v).length := by simp; omega
  exact ⟨_, List.getElem?_eq_getElem this, (List.take_concat_get' _ _ this).symm⟩

/-- A transaction an operation opens is in order. -/
theorem openTx_ok {c : Config} {v : Option Window} {col : Half} : (openTx c v col).all (txOk c) = true := by
  cases v with
  | none => rfl
  | some v =>
    simp only [openTx]
    split
    · simp [txOk, *]
    · rfl

/-- Before a transaction the lines are at rest and no token of it is out. -/
theorem openTx_atRest {c : Config} {v : Option Window} {col : Half} {task : Task} :
    linesOk c (.exec ⟨openTx c v col, task⟩) .inactive .data = true ∧
    (∀ s : State, s.seq = .exec ⟨openTx c v col, task⟩ → openTokens s = []) := by
  cases v with
  | none => simp [openTx, linesOk, openTokens]; intro s h; rw [h]
  | some v =>
    simp only [openTx]
    split
    · simp [linesOk, openTokens]; intro s h; rw [h]; rfl
    · simp [linesOk, openTokens]; intro s h; rw [h]

end Sys2Proof.Machine
end

