-- ==== Sys2Proof/Laws/Step.lean ====
section
/-! SUPPORT. Which move a step makes, and the slots of the register window. -/

namespace Sys2Proof.Machine

theorem settleWaiting_none {s : State} (h : s.waiting = none) : settleWaiting s = none := by
  simp [settleWaiting, h]

/-- With no CMD write waiting, the next turn of the plan is taken (log 4). -/
theorem step_turn {s : State} {t : Turn} {rest : List Turn} (h : s.waiting = none) (hp : s.plan = t :: rest) :
    step s = takeTurn t rest s := by
  simp [step, nextMove, settleWaiting_none h, hp]

/-- With nothing in the plan, an idle block runs the packet at its FIFO head. -/
theorem step_packet {s : State} {i : Instr} {rest : List Word} (hw : settleWaiting s = none) (hp : s.plan = [])
    (hs : s.seq = .idle) (hd : decode s.fifo = .packet i rest) : step s = exec i (accept i rest s) := by
  simp [step, nextMove, hw, hp, quietMove, hs, hd]

/-- With nothing in the plan, a command under way goes one step. -/
theorem step_exec {s : State} {w : Work} (hw : settleWaiting s = none) (hp : s.plan = []) (hs : s.seq = .exec w) :
    step s = .next (advance true s) := by
  simp [step, nextMove, hw, hp, quietMove, hs]

theorem base_aligned {c : Config} (h : c.wf = true) : c.base % 32 = 0 := by
  simp only [Config.wf, Bool.and_eq_true, decide_eq_true_eq] at h
  exact h.2

/-- An aligned word read of slot `k` (R21, R57). -/
theorem hostAccess_read {s : State} {k : Nat} (hw : s.cfg.wf = true) (hk : k < 8) :
    hostAccess (.read (s.cfg.base + 4 * k) .word) s = .next { s with readData := readReg (4 * k) s } := by
  have := base_aligned hw
  rw [hostAccess, if_neg (by omega), if_neg (by simp; omega), Nat.add_sub_cancel_left]

/-- An aligned word write of slot `k` (R21, R57). -/
theorem hostAccess_write {s : State} {k : Nat} {v : Word} (hw : s.cfg.wf = true) (hk : k < 8) :
    hostAccess (.write (s.cfg.base + 4 * k) .word v) s = .next (writeReg (4 * k) v s) := by
  have := base_aligned hw
  rw [hostAccess, if_neg (by omega), if_neg (by simp; omega), Nat.add_sub_cancel_left]

/-- A packet taken from the FIFO is not empty. -/
theorem packet_shorter {ws rest : List Word} {i : Instr} (h : decode ws = .packet i rest) :
    rest.length < ws.length ∧ ws.length - rest.length = (encode i).length := by
  cases ws with
  | nil => cases h
  | cons w0 ws =>
    obtain ⟨-, ps, rfl, hl⟩ := decode_packet_opc h
    simp only [List.length_cons, List.length_append]
    omega

end Sys2Proof.Machine
end

