-- ==== Sys2Proof/Tests/Slice0.lean ====
section
/-! SUPPORT. Small tests, each against the spec's own vectors (spec/95_test_vectors.md, spec/30_encoding.md R87) or a hand
calculation from a rule, the smoke test of WellFormed, and a witness for the hypotheses of every statement. -/

namespace Sys2Proof.Tests

open Sys2Proof.Machine

/-! ### WellFormed refuses each ill-formed term -/

theorem test_wf_reference : Config.reference.wf = true := by decide
theorem test_wf_least : ({ Config.reference with xMax := 1, yMax := 1 } : Config).wf = true := by decide
theorem test_wf_largest : ({ Config.reference with xMax := 65535, yMax := 65535 } : Config).wf = true := by decide
theorem test_wf_xMax_zero : ({ Config.reference with xMax := 0 } : Config).wf = false := by decide
theorem test_wf_xMax_large : ({ Config.reference with xMax := 65536 } : Config).wf = false := by decide
theorem test_wf_yMax_zero : ({ Config.reference with yMax := 0 } : Config).wf = false := by decide
theorem test_wf_yMax_large : ({ Config.reference with yMax := 65536 } : Config).wf = false := by decide
theorem test_wf_depth : ({ Config.reference with depth := 5 } : Config).wf = false := by decide
theorem test_wf_base : ({ Config.reference with base := 16 } : Config).wf = false := by decide

/-- A font operand in range. -/
def goodFont : AsmFont := ⟨0x1000, 0x20, 95, 8, 1⟩

theorem test_wf_text : (AsmLine.drawText 0x2000 (-7) 3 0xFFFF 0 goodFont 8).wellFormed = true := by decide
theorem test_wf_coord_low : (AsmLine.drawPixel (-32769) 0 0).wellFormed = false := by decide
theorem test_wf_coord_high : (AsmLine.drawPixel 0 65536 0).wellFormed = false := by decide
theorem test_wf_color : (AsmLine.fill 65536).wellFormed = false := by decide
theorem test_wf_width : (AsmLine.drawHLine 0 0 (-1) 0).wellFormed = false := by decide
theorem test_wf_height : (AsmLine.drawVLine 0 0 65536 0).wellFormed = false := by decide
theorem test_wf_line_end : (AsmLine.drawLine 0 0 0 65536 0).wellFormed = false := by decide
theorem test_wf_rect_height : (AsmLine.drawRect 0 0 1 (-1) 0).wellFormed = false := by decide
theorem test_wf_text_addr : (AsmLine.drawText 0x100000000 0 0 0 0 goodFont 8).wellFormed = false := by decide
theorem test_wf_text_fw : (AsmLine.drawText 0 0 0 0 0 goodFont 256).wellFormed = false := by decide
theorem test_wf_font_base : (AsmLine.lookupGlyph 0 { goodFont with base := -1 }).wellFormed = false := by decide
theorem test_wf_font_first : (AsmLine.lookupGlyph 0 { goodFont with first := 256 }).wellFormed = false := by decide
theorem test_wf_font_count : (AsmLine.lookupGlyph 0 { goodFont with count := 65536 }).wellFormed = false := by decide
theorem test_wf_font_gh : (AsmLine.lookupGlyph 0 { goodFont with gh := 256 }).wellFormed = false := by decide
theorem test_wf_font_gbw : (AsmLine.lookupGlyph 0 { goodFont with gbw := 256 }).wellFormed = false := by decide
theorem test_wf_char : (AsmLine.lookupGlyph 256 goodFont).wellFormed = false := by decide

/-! ### Decoding words of the spec's own vectors -/

/-- NOP, W0[23:0] ignored (section 2.1). -/
theorem test_decode_nop : decode [0x00ABCDEF] = .packet .nop [] := by decide
/-- FILL, W0[23:16] ignored (section 2.1). -/
theorem test_decode_fill : decode [0x01FF1234, 0x00000000] = .packet (.fill 0x1234) [0x00000000] := by decide
/-- DRAW_PIXEL -32768, -32768 (section 2.4). -/
theorem test_decode_pixel : decode [0x02000001, 0x80008000] = .packet (.drawPixel 0x8000 0x8000 0x0001) [] := by decide
/-- DRAW_HLINE with a non-zero H field (section 2.5). -/
theorem test_decode_hline :
    decode [0x0300F800, 0x000A000A, 0x0005FFFF] = .packet (.drawHLine 10 10 5 0xF800) [] := by decide
/-- DRAW_VLINE 0, -3, 10 (section 2.5). -/
theorem test_decode_vline :
    decode [0x040007E0, 0x0000FFFD, 0x0000000A] = .packet (.drawVLine 0 0xFFFD 10 0x07E0) [] := by decide
/-- DRAW_LINE 0, 3, 3, 0 (section 2.6). -/
theorem test_decode_line :
    decode [0x050007E0, 0x00000003, 0x00030000] = .packet (.drawLine 0 3 3 0 0x07E0) [] := by decide
/-- DRAW_RECT 236, 0, 5, 5 (program 1). -/
theorem test_decode_rect :
    decode [0x060007E0, 0x00EC0000, 0x00050005] = .packet (.drawRect 236 0 5 5 0x07E0) [] := by decide
/-- T1 (section 2.8). -/
theorem test_decode_text :
    decode [0x07030201, 0xF800001F, 0x00050007, 0x00002000, 0x00001000, 0x41000002] =
      .packet (.drawText { table := ⟨0x1000, 0x41, 2, 2, 1⟩, fw := 3, fg := 0xF800, bg := 0x001F, x := 5, y := 7
                           text := 0x2000 }) [] := by decide
/-- LOOKUP_GLYPH 'B' (program 2), with ignored bits set. -/
theorem test_decode_lookup :
    decode [0x08420201, 0x00001000, 0x41FF0002] = .packet (.lookupGlyph 0x42 ⟨0x1000, 0x41, 2, 2, 1⟩) [] := by decide
/-- Undefined opcodes at both ends (section 2.1). -/
theorem test_decode_illegal : decode [0x09000000, 0x00000000] = .illegal [0x00000000] ∧
    decode [0xFF123456] = .illegal [] := by decide
/-- Only W0 of DRAW_PIXEL (section 2.1). -/
theorem test_decode_prefix : decode [0x02000000] = .wait := by decide
/-- The opcode table's numbering: word 0 in the low bits. -/
theorem test_decodeTableWord : decodeTableWord 64 0x000A00140200F800 = some (.drawPixel 10 20 0xF800) ∧
    decodeTableWord 32 0x0200F800 = some (.drawPixel 0 0 0xF800) ∧ decodeTableWord 32 0x09000000 = none := by decide

/-- Case, spaces, a comment, a negative number and a character literal (R85). -/
theorem test_assembleText :
    assembleText "draw_rect -1,0, 5,5, 0x1F ; off-panel".toList = some [0x0600001F, 0xFFFF0000, 0x00050005] ∧
    assembleText "LOOKUP_GLYPH 'B', font(0x1000, 0x41, 2, 2, 1)".toList =
      some [0x08420201, 0x00001000, 0x41000002] := by decide
/-- A value out of range and a wrong number of operands are refused (R85). -/
theorem test_assembleText_refuses :
    assembleText "FILL 0x10000".toList = none ∧ assembleText "DRAW_PIXEL 1, 2".toList = none := by decide

/-! ### One step of each command, from reset in the reference configuration -/

/-- The state a step answers. -/
def nextOf (o : Host.Outcome State Fault Refusal) : Option State :=
  match o with
  | .next s => some s
  | _ => none

/-- One step with the packet `ws` at the FIFO head of `s`. -/
def run (ws : List Word) (s : State) : Option State := nextOf (step (placePacket ws s))

/-- What the step shows: the tokens, STATUS, LOOKUP_ADDR, RESULT_X. -/
def shows (o : Option State) (toks : List Token) (st addr x : Word) : Bool :=
  o.any fun s => s.out == toks && status s == st && s.lookup.addr == addr && s.resultX == x

/-- `PX(x, y; c)` in bytes, with the reference command bytes (section 0). -/
def px (x1 x0 y1 y0 c1 c0 : Byte) : List Token :=
  [.sel, .cmd 0x2A, .dat x1, .dat x0, .dat x1, .dat x0, .cmd 0x2B, .dat y1, .dat y0, .dat y1, .dat y0, .cmd 0x2C,
   .dat c1, .dat c0, .desel]

theorem test_run_nop : shows (run [0x00000000] State.reset) [] 0x004 0 0 = true := by decide

/-- `PX(10, 20; 0xF800)` (section 0). -/
theorem test_run_pixel :
    shows (run [0x0200F800, 0x000A0014] State.reset) (px 0x00 0x0A 0x00 0x14 0xF8 0x00) 0x004 0 0 = true := by decide
/-- `PX(239, 319; 0xABCD)` (section 2.1): a coordinate above 255. -/
theorem test_run_pixel_last :
    shows (run [0x0200ABCD, 0x00EF013F] State.reset) (px 0x00 0xEF 0x01 0x3F 0xAB 0xCD) 0x004 0 0 = true := by decide

/-- A panel of two pixels by one, so that a fill is short: R150 by hand. -/
def twoPixels : State := State.resetOf { Config.reference with xMax := 2, yMax := 1 }

theorem test_run_fill : shows (run [0x01001234] twoPixels)
    [.sel, .cmd 0x2A, .dat 0, .dat 0, .dat 0, .dat 1, .cmd 0x2B, .dat 0, .dat 0, .dat 0, .dat 0, .cmd 0x2C,
     .dat 0x12, .dat 0x34, .dat 0x12, .dat 0x34, .desel] 0x004 0 0 = true := by decide

/-- `DRAW_HLINE 239, 5, 2` is clipped to one pixel (section 2.5). -/
theorem test_run_hline_clips :
    shows (run [0x0300F800, 0x00EF0005, 0x00020000] State.reset) (px 0x00 0xEF 0x00 0x05 0xF8 0x00) 0x004 0 0 =
      true := by decide
/-- `DRAW_HLINE -5, 10, 20` draws nothing (section 2.5). -/
theorem test_run_hline_off :
    shows (run [0x0300F800, 0xFFFB000A, 0x00140000] State.reset) [] 0x004 0 0 = true := by decide
/-- `DRAW_VLINE 0, 319, 9` is clipped to one pixel (section 2.5). -/
theorem test_run_vline_clips :
    shows (run [0x040007E0, 0x0000013F, 0x00000009] State.reset) (px 0x00 0x00 0x01 0x3F 0x07 0xE0) 0x004 0 0 =
      true := by decide
/-- `DRAW_VLINE 0, -3, 10` draws nothing (section 2.5). -/
theorem test_run_vline_off :
    shows (run [0x040007E0, 0x0000FFFD, 0x0000000A] State.reset) [] 0x004 0 0 = true := by decide

/-- `DRAW_LINE 0, 3, 3, 0` (section 2.6): the points (0,3), (1,2), (2,1), (3,0). -/
theorem test_run_line_diagonal :
    shows (run [0x050007E0, 0x00000003, 0x00030000] State.reset)
      (px 0 0 0 3 0x07 0xE0 ++ px 0 1 0 2 0x07 0xE0 ++ px 0 2 0 1 0x07 0xE0 ++ px 0 3 0 0 0x07 0xE0) 0x004 0 0 =
      true := by decide +kernel
/-- `DRAW_LINE 2, 5, 0, 0` (section 2.6), steep and reversed: (0,0), (0,1), (1,2), (1,3), (2,4), (2,5). -/
theorem test_run_line_steep :
    shows (run [0x05000001, 0x00020005, 0x00000000] State.reset)
      (px 0 0 0 0 0 1 ++ px 0 0 0 1 0 1 ++ px 0 1 0 2 0 1 ++ px 0 1 0 3 0 1 ++ px 0 2 0 4 0 1 ++ px 0 2 0 5 0 1)
      0x004 0 0 = true := by decide +kernel

/-- `DRAW_RECT 10, 20, 3, 2, 0xABCD` (R175): 25 tokens. -/
theorem test_run_rect :
    shows (run [0x0600ABCD, 0x000A0014, 0x00030002] State.reset)
      ([.sel, .cmd 0x2A, .dat 0x00, .dat 0x0A, .dat 0x00, .dat 0x0C, .cmd 0x2B, .dat 0x00, .dat 0x14, .dat 0x00,
        .dat 0x15, .cmd 0x2C] ++ (List.replicate 6 [Token.dat 0xAB, Token.dat 0xCD]).flatten ++ [.desel])
      0x004 0 0 = true := by decide +kernel
/-- `DRAW_RECT -1, 0, 5, 5` is not clipped: nothing (section 2.3). -/
theorem test_run_rect_off : shows (run [0x0600001F, 0xFFFF0000, 0x00050005] State.reset) [] 0x004 0 0 = true := by
  decide

/-- S5: the last glyph of the font. -/
theorem test_run_lookup :
    shows (run [0x087E0801, 0x00001000, 0x2000005F] State.reset) [] 0x104 0x000012F7 0 = true := by decide
/-- A glyph with no rows (section 2.7), after a lookup that had found: S5's not-found clears both parts. -/
theorem test_run_lookup_not_found :
    shows (run [0x087F0801, 0x00001000, 0x2000005F] { State.reset with lookup := ⟨true, 5⟩ }) [] 0x004 0 0 = true ∧
    shows (run [0x08200001, 0x00001000, 0x2000005F] State.reset) [] 0x104 0x00000FFF 0 = true := by decide

/-- Source memory of section 2.8: font F2 and the text "AzB", and nothing else readable. -/
def textState : State :=
  { State.resetOf { Config.reference with srcMap := [⟨0x1000, 0x1003⟩, ⟨0x2000, 0x2003⟩] } with
    mem := [(0x1000, 0xA0), (0x1001, 0x40), (0x1002, 0xE0), (0x1003, 0x80), (0x2000, 0x41), (0x2001, 0x7A),
            (0x2002, 0x42)]
    resultX := 0x77 }

/-- T3: text at (-2, -1), the visible corner of 'B' and of 'A'. -/
theorem test_run_text :
    shows (run [0x07030201, 0x00010002, 0xFFFEFFFF, 0x00002000, 0x00001000, 0x41000002] textState)
      (px 0 0 0 0 0 1 ++ px 0 1 0 0 0 1 ++ px 0 2 0 0 0 1 ++ px 0 3 0 0 0 1) 0x004 0 4 = true := by decide +kernel
/-- T7 and T8: fault 3 before any read, fault 2 at an unreadable row byte, RESULT_X unchanged. -/
theorem test_run_text_faults :
    shows (run [0x07090201, 0xF800001F, 0x00050007, 0x00002000, 0x00001000, 0x41000002] textState) [] 0x03C 0 0x77 =
      true ∧
    shows (run [0x07030201, 0xF800001F, 0x00000000, 0x00002000, 0x00005000, 0x41000002] textState) [] 0x02C 0 0x77 =
      true := by decide +kernel

/-! ### Faults, reset, the register window -/

/-- Section 2.1: the two words after an illegal header stay in the FIFO. -/
theorem test_illegal_keeps_rest :
    shows (run [0x09000000, 0x02000000, 0x00000000] State.reset) [] 0x018 0 0 = true ∧
    shows (run [0xFF123456] State.reset) [] 0x01C 0 0 = true := by decide

/-- The state in which the host makes one access. -/
def hosting (a : HostAccess) (s : State) : State := { s with plan := [.host a] }

/-- After reset STATUS reads 0x00000004 and CMD reads 0 (section 2.1). -/
theorem test_read_after_reset :
    (nextOf (step (hosting (.read 0x04 .word) State.reset))).map (·.readData) = some 0x00000004 ∧
    (nextOf (step (hosting (.read 0x00 .word) State.reset))).map (·.readData) = some 0x00000000 := by decide

/-- CTRL = 0xFFFFFFFE does nothing, CTRL = 1 resets a halted block (sections 2.1, 2.9). -/
theorem test_ctrl :
    nextOf (step (hosting (.write 0x10 .word 0xFFFFFFFE) State.reset)) = some State.reset ∧
    (nextOf (step (hosting (.write 0x10 .word 1) { State.reset with seq := .halted, faultCode := 1, fifo := [9] }))).map
      (fun s => (status s, s.fifo)) = some (0x004, []) := by decide

/-- A reset in the middle of a colour stream ends it with `DESEL` (section 2.9). -/
theorem test_reset_in_transaction :
    (nextOf (step { State.reset with
      seq := .exec ⟨some ⟨⟨0, 0, 240, 320⟩, 0x1234, .colorLo 5⟩, .finish⟩, cs := .active
      out := [.sel, .dat 0x12], plan := [.hardReset] })).map (fun s => (s.out, s.cs, s.seq)) =
    some ([.sel, .dat 0x12, .desel], .inactive, .idle) := by decide

/-- A byte token waits while the transport does not accept; `SEL` does not (R107). -/
theorem test_stall :
    (blockMove false { twoPixels with seq := .exec ⟨some ⟨⟨0, 0, 2, 1⟩, 1, .colorHi 2⟩, .finish⟩, cs := .active }).out =
      [] ∧
    (blockMove false { twoPixels with seq := .exec ⟨some ⟨⟨0, 0, 2, 1⟩, 1, .select⟩, .finish⟩ }).out = [.sel] := by
  decide

/-- A source byte written while its command is queued is marked; written before its packet's last word, it is not
(R64). -/
theorem test_race :
    (srcWrite 0x2000 0x41 (placePacket (List.replicate 6 0x07000000) textState)).raced = [⟨0x2000, 6⟩] ∧
    (accept (.drawText ⟨⟨0, 0, 0, 0, 0⟩, 0, 0, 0, 0, 0, 0⟩) []
      { srcWrite 0x2000 0x41 (placePacket (List.replicate 5 0x07000000) textState) with
        fifo := List.replicate 6 0x07000000 }).raced = [] := by decide

/-- The reading of `TX(10, 20, 3, 2; c)`: the cells in the order of section 2.2. -/
theorem test_controller :
    (match Controller.reading Config.reference ⟨[], 0, 0, 0, 0, 0, 0, .lost⟩
        (txTokens Config.reference ⟨10, 20, 3, 2⟩ 0xABCD) with
      | .ok k => k.gram.reverse.map fun w => (w.col, w.row)
      | .error _ => []) = [(10, 20), (11, 20), (12, 20), (10, 21), (11, 21), (12, 21)] := by decide +kernel

/-- The reading of a transaction that a reset cut short after two of its four pixels: none (R272). -/
theorem test_controller_truncated :
    Controller.reading Config.reference ⟨[], 0, 0, 0, 0, 0, 0, .lost⟩
      ((txTokens Config.reference ⟨10, 20, 2, 2⟩ 0xABCD).take 16 ++ [.desel]) = .error .truncated := by rfl

/-- `SEL` among the parameter bytes is mid-command (R114, item 24). -/
theorem test_controller_midCommand :
    Controller.reading Config.reference ⟨[], 0, 0, 0, 0, 0, 0, .lost⟩ [.cmd 0x2A, .dat 0x00, .sel] =
      .error .truncated := by rfl

/-- A byte that the stream left held is an odd number of data bytes at the next `SEL` (R114); one held before the first
token is not (R111). -/
theorem test_controller_held :
    Controller.reading Config.reference ⟨[], 0, 0, 0, 0, 0, 0, .lost⟩ [.cmd 0x2C, .dat 0xAB, .sel] = .error .oddBytes ∧
    Controller.reading Config.reference ⟨[], 0, 0, 0, 0, 0, 0, .memWrite (some 0xAB)⟩ [.sel] =
      .ok ⟨[], 0, 0, 0, 0, 0, 0, .lost⟩ := ⟨by rfl, by rfl⟩

/-! ### Witnesses: states and operands that meet the hypotheses of each statement -/

/-- A block with the words `ws` in its FIFO. -/
def holding (ws : List Word) : State := { State.reset with fifo := ws }

/-- A halted block: fault 2, one word in the FIFO. -/
def haltedState : State := { State.reset with seq := .halted, faultCode := 2, fifo := [0x00000000] }

/-- A block whose FIFO is full of NOPs and on which a CMD write waits. -/
def fullState : State := { holding (List.replicate 6 0x00000000) with waiting := some 0x01001234 }

/-- A block inside a transaction at `pos`. -/
def inside (pos : TxPos) (cs : SelectLine) : State :=
  { State.reset with latch := .drawRect 1 2 3 4 5, seq := .exec ⟨some ⟨⟨1, 2, 3, 4⟩, 5, pos⟩, .finish⟩, cs := cs }

/-- A text draw of section 2.8, at (5, 7). -/
def textArgs : TextArgs :=
  { table := ⟨0x1000, 0x41, 2, 2, 1⟩, fw := 3, fg := 0xF800, bg := 0x001F, x := 5, y := 7, text := 0x2000 }

theorem reset_atRest (c : Config) : AtRest (State.resetOf c) := ⟨rfl, rfl⟩

theorem witness_DecodeOfPacket : decode ([0x00ABCDEF] ++ [0x09000000]) = .packet .nop [0x09000000] ∧
    decode ([0x08420201, 0x00001000, 0x41FF0002] ++ []) = .packet (.lookupGlyph 0x42 ⟨0x1000, 0x41, 2, 2, 1⟩) [] := by
  decide

/-- The clauses of DecodeByOpcodeAndLength: the last defined opcode and the first undefined one, one word short and just
enough. -/
theorem witness_DecodeByOpcodeAndLength :
    packetLen (byte3 0x08FFFFFF) = some 3 ∧ [0x00000000].length + 1 < 3 ∧ 3 ≤ [0x00000000, 0x00000001].length + 1 ∧
    packetLen (byte3 0x09FFFFFF) = none ∧ packetLen (byte3 0xFFFFFFFF) = none ∧ packetLen (byte3 0x00000000) = some 1 := by
  decide

theorem witness_OpcodeRowsSelectByMask : ⟨"LOOKUP_GLYPH", 0x08, 3⟩ ∈ opcodeMap ∧
    OpcodeRow.selects ⟨"LOOKUP_GLYPH", 0x08, 3⟩ 0x08FFFFFF = true ∧
    OpcodeRow.selects ⟨"LOOKUP_GLYPH", 0x08, 3⟩ 0x09FFFFFF = false := by decide

theorem witness_AssemblerRanges : (AsmLine.drawText 0xFFFFFFFF (-32768) 65535 0xFFFF 0 goodFont 255).wellFormed = true ∧
    Asm.coordOk (-32768) = true ∧ Asm.coordOk 32767 = true ∧ Asm.coordOk 32768 = true ∧ Asm.coordOk 65535 = true ∧
    Asm.halfOk 0 = true ∧ Asm.halfOk 0xFFFF = true ∧ Asm.byteOk 0xFF = true ∧ Asm.addrOk 0xFFFFFFFF = true := by decide

theorem witness_StepRunsDecodedPacket : (holding [0x0200F800, 0x000A0014]).seq = .idle ∧
    (holding [0x0200F800, 0x000A0014]).waiting = none ∧ (holding [0x0200F800, 0x000A0014]).plan = [] ∧
    { holding [0x0200F800, 0x000A0014] with plan := [.block false] }.plan = .block false :: [] ∧
    decode (holding [0x0200F800, 0x000A0014]).fifo = .packet (.drawPixel 10 20 0xF800) [] := by decide

theorem witness_PacketPrefixWaits : (holding [0x02000000]).seq = .idle ∧ (holding [0x02000000]).waiting = none ∧
    (holding [0x02000000]).plan = [] ∧ decode (holding [0x02000000]).fifo = .wait ∧ decode (holding []).fifo = .wait := by
  decide

theorem witness_IllegalOpcodeFaults : (holding [0x09000000, 0x01000000]).seq = .idle ∧
    (holding [0x09000000, 0x01000000]).waiting = none ∧ (holding [0x09000000, 0x01000000]).cs = .inactive ∧
    (holding [0x09000000, 0x01000000]).fifo = 0x09000000 :: [0x01000000] ∧ 0x09 ≤ (byte3 0x09000000).toNat ∧
    (holding [0x09000000, 0x01000000]).plan = [] ∧
    { holding [0x09000000, 0x01000000] with plan := [.block false] }.plan = .block false :: [] := by decide

/-- The clause about a CMD write that waits, on a full FIFO with an illegal header at its head. -/
theorem witness_IllegalOpcodeFaults_waiting :
    { fullState with fifo := 0xFF000000 :: List.replicate 5 0x00000000 }.waiting = some 0x01001234 ∧
    fullState.cfg.depth ≤ (0xFF000000 :: List.replicate 5 (0x00000000 : Word)).length ∧ fullState.seq = .idle ∧
    fullState.cs = .inactive ∧ 0x09 ≤ (byte3 0xFF000000).toNat ∧ fullState.plan = [] := by decide

/-- Both clauses of StepAdvancesTheCommand, and a CMD write that waits meanwhile. -/
theorem witness_StepAdvancesTheCommand :
    (inside (.colorHi 12) .active).seq = .exec ⟨some ⟨⟨1, 2, 3, 4⟩, 5, .colorHi 12⟩, .finish⟩ ∧
    (inside (.colorHi 12) .active).waiting = none ∧ (inside (.colorHi 12) .active).plan = [] ∧
    { inside (.colorHi 12) .active with plan := [.block false] }.plan = .block false :: [] ∧
    { inside (.colorHi 12) .active with fifo := List.replicate 6 0, waiting := some 7 }.cfg.depth ≤
      { inside (.colorHi 12) .active with fifo := List.replicate 6 0, waiting := some 7 }.fifo.length := by decide

theorem witness_HaltedBlockStands : haltedState.seq = .halted ∧ haltedState.waiting = none ∧ haltedState.plan = [] ∧
    { haltedState with waiting := some 7 }.waiting = some 7 := by decide

theorem witness_HaltedBlockStands_wellKept : Inv haltedState ∧ haltedState.seq = .halted :=
  ⟨⟨by decide, by decide, by decide, by decide, by decide, by decide⟩, by decide⟩

/-- A halted block steps on an undisturbed plan and on a CMD write. -/
theorem witness_OnlyResetLeavesHalted : haltedState.seq = .halted ∧
    (∀ t ∈ (hosting (.write 0 .word 5) haltedState).plan.head?, t.resets haltedState.cfg = false) ∧
    nextOf (step (hosting (.write 0 .word 5) haltedState)) = some haltedState := by decide

theorem witness_CommandRunsAsItsSteps : State.reset.cfg.wf = true ∧ AtRest State.reset :=
  ⟨by decide, reset_atRest _⟩

/-- The clauses of StalledBlockEmitsNoByte, one place of a transaction each. -/
theorem witness_StalledBlockEmitsNoByte :
    (inside (.colorHi 12) .active).seq = .exec ⟨some ⟨⟨1, 2, 3, 4⟩, 5, .colorHi 12⟩, .finish⟩ ∧
    (inside (.colorLo 1) .active).seq = .exec ⟨some ⟨⟨1, 2, 3, 4⟩, 5, .colorLo 1⟩, .finish⟩ ∧
    (inside (.window 0) .active).seq = .exec ⟨some ⟨⟨1, 2, 3, 4⟩, 5, .window 0⟩, .finish⟩ ∧
    (inside .select .inactive).seq = .exec ⟨some ⟨⟨1, 2, 3, 4⟩, 5, .select⟩, .finish⟩ ∧
    (inside .deselect .active).seq = .exec ⟨some ⟨⟨1, 2, 3, 4⟩, 5, .deselect⟩, .finish⟩ := by decide

/-- A block at a point of a text draw. -/
def texting (pt : TextPoint) : State :=
  { State.reset with latch := .drawText textArgs, seq := .exec ⟨none, .text pt⟩ }

/-- The clauses about reads: a text byte, and the last display row of a glyph of two rows, are to be read. -/
theorem witness_StalledBlockEmitsNoByte_reads :
    (texting (.char 0x2000 7)).latch = .drawText textArgs ∧
    (texting (.char 0x2000 7)).seq = .exec ⟨none, .text (.char 0x2000 7)⟩ ∧
    (texting (.row 0x2001 7 0x1000 1)).latch = .drawText textArgs ∧
    (texting (.row 0x2001 7 0x1000 1)).seq = .exec ⟨none, .text (.row 0x2001 7 0x1000 1)⟩ ∧
    1 < textArgs.table.gh.toNat := by decide

theorem witness_ResetIsWellKept : ({ Config.reference with xMax := 1, yMax := 65535, depth := 1000, base := 32 } : Config).wf =
    true := by decide

/-- A well-kept state inside a transaction, and a step from it. -/
theorem witness_StepKeepsInv : Inv (inside (.colorHi 12) .active) ∧
    nextOf (step (inside (.colorHi 12) .active)) =
      some { inside (.colorLo 12) .active with out := [.dat 0x00] } :=
  ⟨⟨by decide, by decide, by decide, by decide, by decide, by decide⟩, by decide⟩

theorem witness_StepKeepsWholeTransactions :
    Inv (inside .select .inactive) ∧ WholeTransactions (inside .select .inactive) ∧
    nextOf (step (inside .select .inactive)) = some { inside (.window 0) .active with out := [.sel] } :=
  ⟨⟨by decide, by decide, by decide, by decide, by decide, by decide⟩, ⟨by decide, [], by simp, rfl⟩, by decide⟩

theorem witness_StepAnswers : nextOf (step (holding [0x00000000])) = some State.reset := by decide

theorem witness_NopDoesNothing : byte3 0x00FFFFFF = 0x00 ∧
    (holding [0x00FFFFFF, 0x01000000]).fifo = 0x00FFFFFF :: [0x01000000] ∧
    (holding [0x00FFFFFF, 0x01000000]).waiting = none := by decide

theorem witness_SetWindowTokens : State.reset.dc = .data ∧
    (0 ≤ (239 : Int) ∧ 1 ≤ 1 ∧ (239 : Int) + (1 : Nat) - 1 < State.reset.cfg.xMax ∧ 0 ≤ (319 : Int) ∧ 1 ≤ 1 ∧
      (319 : Int) + (1 : Nat) - 1 < State.reset.cfg.yMax) ∧
    ¬((239 : Int) + (2 : Nat) - 1 < State.reset.cfg.xMax) := by decide

theorem witness_WindowCoordinatesFit : ({ Config.reference with xMax := 65535, yMax := 65535 } : Config).wf = true ∧
    winOk { Config.reference with xMax := 65535, yMax := 65535 } ⟨0, 65534, 65535, 1⟩ = true := by decide

theorem witness_WindowTransaction : AtRest State.reset ∧ winOk State.reset.cfg ⟨239, 319, 1, 1⟩ = true ∧
    winOk State.reset.cfg ⟨239, 319, 1, 2⟩ = false ∧ winOk State.reset.cfg ⟨5, 5, 0, 3⟩ = false :=
  ⟨reset_atRest _, by decide, by decide, by decide⟩

/-- FILL, DRAW_PIXEL, DRAW_HLINE, DRAW_VLINE and DRAW_RECT start from lines at rest, in a legal configuration. -/
theorem witness_AtRest : AtRest State.reset ∧ AtRest twoPixels ∧ State.reset.cfg.wf = true ∧ twoPixels.cfg.wf = true :=
  ⟨reset_atRest _, reset_atRest _, by decide, by decide⟩

theorem witness_AxisLineIsHOrVLine : AtRest State.reset ∧ (3 : Half) = 3 ∧ (0x8000 : Half) = 0x8000 :=
  ⟨reset_atRest _, rfl, rfl⟩

/-- The four cases of DiagonalLinePlotsItsPoints, with equal magnitudes and the longest line among them. -/
theorem witness_DiagonalLinePlotsItsPoints : AtRest State.reset ∧
    (|(-2 : Int) - 0| ≤ |(2 : Int) - 0| ∧ (0 : Int) < 2 - 0) ∧
    (|(0 : Int) - 1| ≤ |(-32768 : Int) - 32767| ∧ (-32768 : Int) - 32767 < 0) ∧
    (|(1 : Int) - 0| < |(2 : Int) - 0| ∧ (0 : Int) < 2 - 0) ∧
    (|(1 : Int) - 0| < |(-2 : Int) - 0| ∧ (-2 : Int) - 0 < 0) ∧
    ((0x8000 : Half).toInt = -32768 ∧ (0x7FFF : Half).toInt = 32767 ∧ (0xFFFE : Half).toInt = -2) :=
  ⟨reset_atRest _, by decide, by decide, by decide, by decide, by decide⟩

theorem witness_LinePointsAreConnected : (1 : Int) ≤ 1 ∧ (1 : Int) ≤ 1 ∧ (1 : Int) ≤ 65535 := by decide

/-- The clauses of BadGeometryIsSilent at the panel's edges. -/
theorem witness_BadGeometryIsSilent :
    ¬(0 ≤ (240 : Half).toInt ∧ (240 : Half).toInt < State.reset.cfg.xMax) ∧
    ¬(0 ≤ (0xFFFF : Half).toInt) ∧ (0 : Half) = 0 ∧
    winOk State.reset.cfg ⟨(236 : Half).toInt, (0 : Half).toInt, (5 : Half).toNat, (5 : Half).toNat⟩ = false ∧
    State.reset.seq ≠ .halted := by decide

theorem witness_DisplayRowUsesStoredRow : inTable ⟨0x1000, 0xF0, 0x100, 8, 1⟩ 0xFF = true ∧
    inTable ⟨0x1000, 0x20, 95, 0, 1⟩ 0x20 = true := by decide

/-- The text "AzB" and its glyphs. -/
theorem witness_TextDrawsItsGlyphs : AtRest textState ∧ textArgs.fw.toNat ≤ 8 ∧ [0x41, 0x7A, 0x42].length < 2 ^ 32 ∧
    HasText textState textArgs.text [0x41, 0x7A, 0x42] ∧
    GlyphsReadable textState textArgs.table [0x41, 0x7A, 0x42] :=
  ⟨⟨rfl, rfl⟩, by decide, by decide,
    ⟨⟨by decide, ⟨by decide, by decide, by decide⟩, by decide, ⟨by decide, by decide, by decide⟩, by decide,
      ⟨by decide, by decide, by decide⟩, trivial⟩, by decide, by decide, by decide⟩,
    by unfold GlyphsReadable; decide⟩

theorem witness_WideFontFaults : textState.cs = .inactive ∧ 8 < ({ textArgs with fw := 9 } : TextArgs).fw.toNat := by decide

/-- The text "B" from 0x2002 on, in a memory whose byte 0x2003 cannot be read. -/
def cutState : State :=
  { textState with cfg := { textState.cfg with srcMap := [⟨0x1000, 0x1003⟩, ⟨0x2000, 0x2002⟩] } }

theorem witness_UnreadableTextFaults : AtRest cutState ∧ textArgs.fw.toNat ≤ 8 ∧ [0x42].length < 2 ^ 32 ∧
    HasChars cutState 0x2002 [0x42] ∧ GlyphsReadable cutState textArgs.table [0x42] ∧
    srcReadable cutState.cfg (textEnd 0x2002 [0x42].length) = false :=
  ⟨⟨rfl, rfl⟩, by decide, by decide, ⟨by decide, ⟨by decide, by decide, by decide⟩, trivial⟩,
    by unfold GlyphsReadable; decide, by decide⟩

/-- 'A' at 0x2000, its second display row (0x1000) out of SRC_MAP. -/
def torn : State := { textState with cfg := { textState.cfg with srcMap := [⟨0x1001, 0x1003⟩, ⟨0x2000, 0x2003⟩] } }

theorem witness_UnreadableGlyphFaults : AtRest torn ∧ textArgs.fw.toNat ≤ 8 ∧ ([] : List Byte).length < 2 ^ 32 ∧
    HasChars torn textArgs.text ([] ++ [0x41]) ∧ GlyphsReadable torn textArgs.table [] ∧
    inTable textArgs.table 0x41 = true ∧ 1 < textArgs.table.gh.toNat ∧
    (∀ k < 1, srcReadable torn.cfg (rowAddr textArgs.table 0x41 k) = true ∧
      racing torn (rowAddr textArgs.table 0x41 k) = false) ∧
    srcReadable torn.cfg (rowAddr textArgs.table 0x41 1) = false :=
  ⟨⟨rfl, rfl⟩, by decide, by decide, ⟨by decide, ⟨by decide, by decide, by decide⟩, trivial⟩,
    by unfold GlyphsReadable; decide, by decide, by decide, by decide, by decide⟩

/-- Outcomes of commands: one that completes, one that halts. -/
theorem witness_CommandFrame : nextOf (exec .nop State.reset) = some State.reset ∧
    (nextOf (exec (.drawText { textArgs with fw := 9 }) textState)).map (fun s => (s.seq, s.faultCode)) =
      some (.halted, 3) := by decide

/-- Steps that change each result register. -/
theorem witness_ResultsChangeAtCompletionOnly :
    (advance true { State.reset with latch := .lookupGlyph 0x20 ⟨0x1000, 0x20, 95, 8, 1⟩, seq := .exec ⟨none, .finish⟩ }).lookup ≠
      State.reset.lookup ∧
    (advance true { textState with latch := .drawText textArgs, seq := .exec ⟨none, .text (.char 0x2003 11)⟩ }).resultX ≠
      textState.resultX := by decide

/-- The clauses of HostSourceWrites: an idle block, a busy one, a packet whose last word comes after the write. -/
theorem witness_HostSourceWrites : Memory.wf textState.mem = true ∧ (0xFFFFFFFF : Word) ≠ 0 ∧ busy State.reset = false ∧
    busy (holding [0x02000000]) = true ∧
    { holding [0x02000000] with plan := [.srcWrite 0 1] }.plan = .srcWrite 0 1 :: [] ∧
    (holding [0x02000000]).waiting = none ∧ (fullState.seq ≠ .halted ∧ fullState.cfg.depth ≤ fullState.fifo.length) := by
  decide

/-- The clause about the run: one NOP queued and the first word of a packet, the packet's second word coming after the
write. After no step the NOP, which races the write, is at the head; after one the packet, which does not. -/
theorem witness_HostSourceWrites_run : (holding [0x00000000, 0x02000000]).waiting = none ∧
    (holding [0x00000000, 0x02000000]).plan = [] ∧ racing (holding [0x00000000, 0x02000000]) 0x2000 = false ∧
    (match stepMany 0 { srcWrite 0x2000 0x41 (holding [0x00000000, 0x02000000]) with
        fifo := [0x00000000, 0x02000000] ++ [0x000A0014] } with
      | some u => u.seq == .idle && decide (decode u.fifo = .packet .nop [0x02000000, 0x000A0014])
      | none => false) = true ∧
    (match stepMany 1 { srcWrite 0x2000 0x41 (holding [0x00000000, 0x02000000]) with
        fifo := [0x00000000, 0x02000000] ++ [0x000A0014] } with
      | some u => u.seq == .idle && decide (decode u.fifo = .packet (.drawPixel 10 20 0) [])
      | none => false) = true := by decide

/-- The first and the last slot of the window. -/
theorem witness_RegisterReads : State.reset.cfg.wf = true ∧ 0 < 8 ∧ 7 < 8 ∧ State.reset.waiting = none ∧
    (hosting (.read (State.reset.cfg.base + 4 * 7) .word) State.reset).plan =
      .host (.read (State.reset.cfg.base + 4 * 7) .word) :: [] := by decide

/-- The clauses of CmdWriteAppendsWaitsOrIsDiscarded: room for one word, none, and a halted block. -/
theorem witness_CmdWriteAppendsWaitsOrIsDiscarded : State.reset.cfg.wf = true ∧ State.reset.waiting = none ∧
    (hosting (.write State.reset.cfg.base .word 9) State.reset).plan = .host (.write State.reset.cfg.base .word 9) :: [] ∧
    (holding (List.replicate 5 0)).fifo.length < State.reset.cfg.depth ∧
    State.reset.cfg.depth ≤ (holding (List.replicate 6 0)).fifo.length ∧ State.reset.seq ≠ .halted ∧
    haltedState.seq = .halted := by decide

theorem witness_WaitingWriteEnters : fullState.waiting = some 0x01001234 ∧ fullState.seq ≠ .halted ∧
    fullState.cfg.depth ≤ fullState.fifo.length ∧ fullState.seq = .idle ∧ fullState.plan = [] ∧
    decode fullState.fifo = .packet .nop (List.replicate 5 0x00000000) ∧
    { fullState with fifo := [] }.fifo.length < fullState.cfg.depth := by decide

/-- An access that waits behind the CMD write. -/
theorem witness_WaitingWriteEnters_port : (hosting (.read 4 .word) fullState).waiting = some 0x01001234 ∧
    (hosting (.read 4 .word) fullState).seq ≠ .halted ∧
    (hosting (.read 4 .word) fullState).plan = .host (.read 4 .word) :: [] := by decide

theorem witness_OtherWritesIgnored : State.reset.cfg.wf = true ∧ State.reset.waiting = none ∧
    (1 < 8 ∧ (1 : Nat) ≠ 0 ∧ (1 : Nat) ≠ 4) ∧ (7 < 8 ∧ (7 : Nat) ≠ 0 ∧ (7 : Nat) ≠ 4) ∧
    (hosting (.write (State.reset.cfg.base + 4 * 1) .word 9) State.reset).plan =
      .host (.write (State.reset.cfg.base + 4 * 1) .word 9) :: [] := by decide

theorem witness_CtrlBitZeroResets : State.reset.cfg.wf = true ∧ State.reset.waiting = none ∧
    (hosting (.write (State.reset.cfg.base + 0x10) .word 1) State.reset).plan =
      .host (.write (State.reset.cfg.base + 0x10) .word 1) :: [] ∧
    (0x00000001 : Word).getLsbD 0 = true ∧ (0xFFFFFFFE : Word).getLsbD 0 = false ∧
    (hosting (.read (State.reset.cfg.base + 0x10) .word) State.reset).plan =
      .host (.read (State.reset.cfg.base + 0x10) .word) :: [] := by decide

theorem witness_NarrowAccessRefused : State.reset.cfg.base ≤ 0x1F ∧ 0x1F < State.reset.cfg.base + 32 ∧
    (AccessWidth.byte ≠ .word ∨ 0x1C % 4 ≠ 0) ∧ (AccessWidth.word ≠ .word ∨ 0x1F % 4 ≠ 0) := by decide

theorem witness_ResetValues : (inside (.colorHi 3) .active).waiting = none ∧
    { inside (.colorHi 3) .active with plan := [.hardReset] }.plan = .hardReset :: [] ∧
    (inside (.colorHi 3) .active).cfg.wf = true := by decide

/-- The other two clauses: a CMD write waiting on a full FIFO, and a soft reset of a halted block. -/
theorem witness_ResetValues_others : { fullState with plan := [.hardReset] }.plan = .hardReset :: [] ∧
    fullState.seq ≠ .halted ∧ fullState.cfg.depth ≤ fullState.fifo.length ∧ (0x00000001 : Word).getLsbD 0 = true ∧
    haltedState.waiting = none ∧ (hosting (.write (haltedState.cfg.base + 0x10) .word 1) haltedState).plan =
      .host (.write (haltedState.cfg.base + 0x10) .word 1) :: [] := by decide

theorem witness_RaiseFaultHalts : State.reset.cs = .inactive ∧ (inside (.colorHi 3) .active).cs = .active := by decide

theorem witness_ControllerReadsTransaction : Config.reference.wf = true ∧
    winOk Config.reference ⟨239, 319, 1, 1⟩ = true ∧ Config.reference.opcCaset ≠ Config.reference.opcRaset ∧
    Config.reference.opcCaset ≠ Config.reference.opcRamwr ∧ Config.reference.opcRaset ≠ Config.reference.opcRamwr := by
  decide

/-- The last place but one at which a one-pixel transaction can be cut short, and the first. -/
theorem witness_TruncatedTransactionHasNoReading : winOk Config.reference ⟨239, 319, 1, 1⟩ = true ∧
    Config.reference.wf = true ∧ 13 + 1 < (txTokens Config.reference ⟨239, 319, 1, 1⟩ 0xF800).length ∧
    1 + 1 < (txTokens Config.reference ⟨239, 319, 1, 1⟩ 0xF800).length := by decide

theorem witness_RectanglePixels : State.reset.cfg.wf = true ∧ AtRest State.reset ∧
    (State.reset.cfg.opcCaset ≠ State.reset.cfg.opcRaset ∧ State.reset.cfg.opcCaset ≠ State.reset.cfg.opcRamwr ∧
      State.reset.cfg.opcRaset ≠ State.reset.cfg.opcRamwr) ∧
    winOk State.reset.cfg ⟨(10 : Half).toInt, (20 : Half).toInt, (3 : Half).toNat, (2 : Half).toNat⟩ = true :=
  ⟨by decide, reset_atRest _, by decide, by decide⟩

end Sys2Proof.Tests
end

/-! SUPPORT. Proofs of the statements of spec/00_scope.md: a command is the sum of its observable steps, one step emits
at most one token, and the stream only grows. -/

namespace Sys2Proof.Machine

/-! ### A command that is under way -/

/-- While a command runs, a CMD write that waits on a full FIFO waits on (R22). -/
theorem settleWaiting_exec {s : State} {w : Work} (hs : s.seq = .exec w)
    (hw : s.waiting = none ∨ s.cfg.depth ≤ s.fifo.length) : settleWaiting s = none := by
  rcases hw with hw | hw
  · exact settleWaiting_none hw
  · cases hv : s.waiting with
    | none => exact settleWaiting_none hv
    | some v => simp [settleWaiting, hv, halted, hs, Nat.not_lt.2 hw]

/-- A move of an executing block is one step of its command (R31). -/
theorem blockMove_exec {ready : Bool} {s : State} {w : Work} (hs : s.seq = .exec w) :
    blockMove ready s = advance ready s := by
  simp [blockMove, hs]

/-- Settles O58: no waiting CMD write settles, so the undisturbed block or the turn moves it. -/
theorem stepAdvancesTheCommand : Obligations.StepAdvancesTheCommand := by
  intro s w hs hw
  have hn := settleWaiting_exec hs hw
  refine ⟨fun hp => step_exec hn hp hs, fun ready p hp => ?_⟩
  have hm : blockMove ready { s with plan := p } = advance ready { s with plan := p } := blockMove_exec hs
  simp [step, nextMove, hn, hp, takeTurn, hm]

/-! ### What one step of a command emits -/

/-- From `s` to `t` the stream is as it was, or one token longer. -/
def EmitsAtMostOne (s t : State) : Prop := t.out = s.out ∨ ∃ tok, t.out = s.out ++ [tok]

theorem EmitsAtMostOne.none {s t : State} (h : t.out = s.out) : EmitsAtMostOne s t := .inl h

theorem EmitsAtMostOne.one {s t : State} (tok : Token) (h : t.out = s.out ++ [tok]) : EmitsAtMostOne s t :=
  .inr ⟨tok, h⟩

theorem EmitsAtMostOne.out_prefix {s t : State} (h : EmitsAtMostOne s t) : s.out <+: t.out := by
  rcases h with h | ⟨tok, h⟩
  · exact h ▸ List.prefix_refl _
  · exact h ▸ List.prefix_append _ _

/-- The trap action and a reset emit `DESEL` or nothing (R244, R272). -/
theorem closeTransaction_emits (s : State) : EmitsAtMostOne s (closeTransaction s) := by
  unfold closeTransaction
  split
  · exact .one .desel rfl
  · exact .none rfl

theorem raiseFault_emits (code : BitVec 4) (s : State) : EmitsAtMostOne s (raiseFault code s) :=
  closeTransaction_emits s

theorem resetBlock_emits (s : State) : EmitsAtMostOne s (resetBlock s) := closeTransaction_emits s

@[simp] theorem finishCommand_out (s : State) : (finishCommand s).out = s.out := by
  unfold finishCommand
  split <;> rfl

theorem memRead_out {p : Word} {s s' : State} {b : Byte} (h : memRead p s = .byte b s') : s'.out = s.out := by
  obtain ⟨n, rfl⟩ := memRead_frame h
  rfl

/-- A step of a transaction emits the token that is due, or waits, or moves `dc` (R104, R107). -/
theorem advanceTx_emits (ready : Bool) (w : Work) (t : Tx) (s : State) : EmitsAtMostOne s (advanceTx ready w t s) := by
  unfold advanceTx
  split
  case h_1 => exact .one .sel rfl
  case h_2 =>
    split
    · split
      · exact .none rfl
      · split
        · exact .one _ rfl
        · exact .none rfl
    · split
      · exact .one _ rfl
      · exact .none rfl
    · exact .none rfl
  case h_3 =>
    split
    · exact .one _ rfl
    · exact .none rfl
  case h_4 =>
    split
    · exact .one _ rfl
    · exact .none rfl
  case h_5 => exact .one .desel rfl

/-- A step of DRAW_TEXT between transactions emits nothing but a fault's `DESEL` (R207, R244). -/
theorem advanceText_emits (ready : Bool) (a : TextArgs) (pt : TextPoint) (s : State) :
    EmitsAtMostOne s (advanceText ready a pt s) := by
  cases pt with
  | start =>
    simp only [advanceText]
    split
    · exact raiseFault_emits _ _
    · exact .none rfl
  | char p cx =>
    simp only [advanceText]
    split
    · split
      · exact raiseFault_emits _ _
      · rename_i h
        split
        · exact .none (memRead_out h :)
        · split <;> exact .none (memRead_out h :)
    · exact .none rfl
  | row p cx ref row =>
    simp only [advanceText]
    split
    · exact .none rfl
    · split
      · split
        · exact raiseFault_emits _ _
        · rename_i h
          exact .none (memRead_out h :)
      · exact .none rfl
  | col p cx ref row b col =>
    simp only [advanceText]
    split <;> exact .none rfl

theorem advanceLine_out (c : Half) (st : Stepper) (s : State) : (advanceLine c st s).out = s.out := by
  unfold advanceLine
  split
  · rfl
  · exact finishCommand_out s

theorem advance_emits (ready : Bool) (s : State) : EmitsAtMostOne s (advance ready s) := by
  unfold advance
  split
  case h_1 => exact advanceTx_emits ready _ _ s
  case h_2 => exact .none (finishCommand_out s)
  case h_3 => exact .none (advanceLine_out _ _ s)
  case h_4 =>
    split
    · exact advanceText_emits ready _ _ s
    · exact .none rfl
  case h_5 => exact .none rfl
  case h_6 => exact .none rfl

/-- Settles O15, by the cases of the working state: a transaction, a text, a line, the end. -/
theorem advanceEmitsAtMostOneToken : Obligations.AdvanceEmitsAtMostOneToken := advance_emits

/-! ### What a step of the machine can be -/

/-- A step that answers next is a waiting CMD write that ends, a turn of the plan, a packet run whole, or a move of the
undisturbed block (log 4). -/
theorem step_cases {s s' : State} (h : step s = .next s') :
    settleWaiting s = some s' ∨
    (settleWaiting s = none ∧ ∃ t rest, s.plan = t :: rest ∧ takeTurn t rest s = .next s') ∨
    (settleWaiting s = none ∧ s.plan = [] ∧ s.seq = .idle ∧
      ∃ i rest, decode s.fifo = .packet i rest ∧ exec i (accept i rest s) = .next s') ∨
    (settleWaiting s = none ∧ s.plan = [] ∧ (s.seq = .idle → ∀ i rest, decode s.fifo ≠ .packet i rest) ∧
      s' = blockMove true s) := by
  cases hw : settleWaiting s with
  | some u =>
    simp only [step, nextMove, hw, Host.Outcome.next.injEq] at h
    exact .inl (by rw [h])
  | none =>
    cases hp : s.plan with
    | cons t rest =>
      simp only [step, nextMove, hw, hp] at h
      exact .inr (.inl ⟨rfl, t, rest, rfl, h⟩)
    | nil =>
      simp only [step, nextMove, hw, hp, quietMove] at h
      cases hs : s.seq with
      | exec w =>
        simp only [hs, Host.Outcome.next.injEq] at h
        exact .inr (.inr (.inr ⟨rfl, rfl, by simp, by rw [blockMove_exec hs, h]⟩))
      | halted =>
        simp only [hs, Host.Outcome.next.injEq] at h
        exact .inr (.inr (.inr ⟨rfl, rfl, by simp, by simp [blockMove, hs, ← h]⟩))
      | idle =>
        cases hd : decode s.fifo with
        | packet i rest =>
          simp only [hs, hd] at h
          exact .inr (.inr (.inl ⟨rfl, rfl, rfl, i, rest, rfl, h⟩))
        | wait =>
          simp only [hs, hd, Host.Outcome.next.injEq] at h
          exact .inr (.inr (.inr ⟨rfl, rfl, by simp, by simp [blockMove, hs, hd, ← h]⟩))
        | illegal rest =>
          simp only [hs, hd, Host.Outcome.next.injEq] at h
          exact .inr (.inr (.inr ⟨rfl, rfl, by simp, by simp [blockMove, hs, hd, ← h]⟩))

/-- A CMD write that waits ends by leaving `waiting`, its word in the FIFO or discarded (R22, log 7). -/
theorem settleWaiting_some {s s' : State} (h : settleWaiting s = some s') :
    ∃ q, s' = { s with fifo := q, waiting := none } := by
  unfold settleWaiting at h
  split at h
  · cases h
  · split at h
    · exact ⟨s.fifo, (Option.some.inj h).symm⟩
    · split at h
      · exact ⟨_, (Option.some.inj h).symm⟩
      · cases h

/-- A host access that is not refused reads a slot or writes one (R57). -/
theorem hostAccess_cases {a : HostAccess} {s s' : State} (h : hostAccess a s = .next s') :
    (∃ v, s' = { s with readData := v }) ∨ ∃ off v, s' = writeReg off v s := by
  cases a with
  | read addr width =>
    simp only [hostAccess] at h
    split at h
    · cases h
    · split at h
      · cases h
      · cases h; exact .inl ⟨_, rfl⟩
  | write addr width v =>
    simp only [hostAccess] at h
    split at h
    · cases h
    · split at h
      · cases h
      · cases h; exact .inr ⟨_, v, rfl⟩

/-! ### The stream only grows -/

/-- A command that changes the stream and the lines alone only appends. -/
theorem complete_out_prefix {s t : State}
    (h : ∃ o d e, t = { s with out := s.out ++ o, cs := d, dc := e }) : s.out <+: (complete t).out := by
  obtain ⟨o, d, e, rfl⟩ := h
  exact List.prefix_append _ _

theorem TextOutcome.out_prefix {s t : State} (h : TextOutcome s t) : s.out <+: t.out := by
  rcases h with ⟨o, d, e, k, q, rfl⟩ | ⟨o, d, e, k, x, rfl⟩ | ⟨o, d, e, k, rfl⟩ <;>
    exact List.prefix_append _ _

theorem drawText_out_prefix (a : TextArgs) (s : State) : s.out <+: (drawText a s).out := by
  unfold drawText
  split
  · exact (raiseFault_emits _ s).out_prefix
  · exact (textLoop_frame _ _ _ _ s).out_prefix

theorem exec_out_prefix {i : Instr} {s t : State} (h : exec i s = .next t) : s.out <+: t.out := by
  cases i with
  | nop => cases h; exact List.prefix_refl _
  | fill color => cases h; exact complete_out_prefix (windowTx_frame _ _ s)
  | drawPixel x y color => cases h; exact complete_out_prefix (drawWindow_frame _ _ s)
  | drawHLine x y w color => cases h; exact complete_out_prefix (drawWindow_frame _ _ s)
  | drawVLine x y w color => cases h; exact complete_out_prefix (drawWindow_frame _ _ s)
  | drawLine x0 y0 x1 y1 color => cases h; exact complete_out_prefix (drawLine_frame _ _ _ _ _ s)
  | drawRect x y w h' color => cases h; exact complete_out_prefix (windowTx_frame _ _ s)
  | drawText a =>
    simp only [exec, execDrawText, Host.Outcome.next.injEq] at h
    exact h ▸ drawText_out_prefix a s
  | lookupGlyph ch t => cases h; exact List.prefix_refl _

theorem takeIllegal_emits (rest : List Word) (s : State) : EmitsAtMostOne s (takeIllegal rest s) := by
  unfold takeIllegal
  split <;> exact raiseFault_emits illegalOpcodeCode _

theorem blockMove_emits (ready : Bool) (s : State) : EmitsAtMostOne s (blockMove ready s) := by
  unfold blockMove
  split
  · split
    · exact .none rfl
    · exact takeIllegal_emits _ s
    · exact .none rfl
  · exact advance_emits ready s
  · exact .none rfl

theorem writeReg_emits (off : Nat) (v : Word) (s : State) : EmitsAtMostOne s (writeReg off v s) := by
  unfold writeReg
  split
  · unfold writeCmd
    split
    · exact .none rfl
    · split <;> exact .none rfl
  · split
    · unfold writeCtrl
      split
      · exact resetBlock_emits s
      · exact .none rfl
    · exact .none rfl

theorem hostAccess_emits {a : HostAccess} {s s' : State} (h : hostAccess a s = .next s') : EmitsAtMostOne s s' := by
  rcases hostAccess_cases h with ⟨v, rfl⟩ | ⟨off, v, rfl⟩
  · exact .none rfl
  · exact writeReg_emits off v s

theorem hardReset_emits (s : State) : EmitsAtMostOne s (hardReset s) := by
  unfold hardReset
  split <;> exact resetBlock_emits s

/-- No turn of the environment emits more than one token. -/
theorem takeTurn_emits {t : Turn} {rest : List Turn} {s s' : State} (h : takeTurn t rest s = .next s') :
    EmitsAtMostOne s s' := by
  cases t with
  | host a =>
    simp only [takeTurn] at h
    split at h
    · cases h; exact blockMove_emits true s
    · exact hostAccess_emits (s := { s with plan := rest }) h
  | srcWrite a b => cases h; exact .none rfl
  | hardReset => cases h; exact hardReset_emits { s with plan := rest }
  | block ready => cases h; exact blockMove_emits ready { s with plan := rest }

/-- Settles O21, by the cases of a step: only a command run whole emits more than one token, and it appends them. -/
theorem streamOnlyGrows : Obligations.StreamOnlyGrows := by
  intro s s' h
  rcases step_cases h with hw | ⟨-, t, rest, -, ht⟩ | ⟨-, -, -, i, rest, -, he⟩ | ⟨-, -, -, rfl⟩
  · obtain ⟨q, rfl⟩ := settleWaiting_some hw
    exact List.prefix_refl _
  · exact (takeTurn_emits ht).out_prefix
  · have hp : (accept i rest s).out <+: s'.out := exec_out_prefix he
    exact hp
  · exact (blockMove_emits true s).out_prefix

/-! ### Windows and lines, step by step -/

/-- A command other than LOOKUP_GLYPH writes nothing when it ends (R31, R205). -/
theorem finishCommand_eq_complete {s : State} (hl : ∀ ch t, s.latch ≠ .lookupGlyph ch t) :
    finishCommand s = complete s := by
  unfold finishCommand
  split
  · rename_i h
    exact absurd h (hl _ _)
  · rfl

/-- A command of one window, or of none, runs as its steps (R136, R155, R159). -/
theorem reaches_drawWindow {v : Option Window} {col : Half} {s : State} (hr : AtRest s)
    (hl : ∀ ch t, s.latch ≠ .lookupGlyph ch t) :
    Reaches { s with seq := .exec ⟨openTx s.cfg v col, .finish⟩ } (complete (drawWindow v col s)) := by
  refine (reaches_openTx s v col .finish hr).trans (.step ?_)
  rw [drawWindow_atRest hr]
  exact finishCommand_eq_complete hl

theorem Stepper.next_p (st : Stepper) : st.next.p = st.p + 1 := by
  rcases st.next_cases with ⟨-, e⟩ | ⟨-, e⟩ <;> rw [e]

theorem Stepper.next_last (st : Stepper) : st.next.last = st.last := by
  rcases st.next_cases with ⟨-, e⟩ | ⟨-, e⟩ <;> rw [e]

/-- The stepper's points, one transaction each, and the end of the line (R166, R169). -/
theorem reaches_plotPoints (n : Nat) {st : Stepper} {s : State} (hr : AtRest s)
    (hl : ∀ ch t, s.latch ≠ .lookupGlyph ch t) (hn : st.remaining = n) :
    Reaches { s with seq := .exec ⟨none, .diagonal st⟩ } (complete (plotPoints (latchColor s.latch) n st s)) := by
  unfold Stepper.remaining at hn
  induction n generalizing st s with
  | zero =>
    refine .step ?_
    simp only [advance, advanceLine, if_neg (show ¬ st.p ≤ st.last by omega)]
    exact finishCommand_eq_complete hl
  | succ n ih =>
    have hopen : advance true { s with seq := .exec ⟨none, .diagonal st⟩ } =
        { s with seq := .exec ⟨openTx s.cfg (pixelWindow s.cfg st.point.1 st.point.2) (latchColor s.latch),
          .diagonal st.next⟩ } := by
      simp only [advance, advanceLine, if_pos (show st.p ≤ st.last by omega)]
    have hrest : st.next.last - st.next.p + 1 = st.last - (st.p + 1) + 1 := by rw [st.next_p, st.next_last]
    refine (Reaches.step hopen).trans ((reaches_openTx s _ _ _ hr).trans ?_)
    rw [plotPoints, drawPixelTx_atRest hr, ← windowStream_pixel]
    exact ih (hr.addOut _) hl (by omega)

/-- DRAW_LINE in its three shapes: vertical, horizontal, diagonal (R163). -/
theorem reaches_drawLine (x0 y0 x1 y1 : Int) {s : State} (hr : AtRest s)
    (hl : ∀ ch t, s.latch ≠ .lookupGlyph ch t) :
    Reaches { s with seq := .exec (startLine s.cfg x0 y0 x1 y1 (latchColor s.latch)) }
      (complete (drawLine x0 y0 x1 y1 (latchColor s.latch) s)) := by
  unfold startLine drawLine
  split
  · exact reaches_drawWindow hr hl
  · split
    · exact reaches_drawWindow hr hl
    · exact reaches_plotPoints _ hr hl rfl

/-! ### Text, step by step -/

/-- Between two transactions of the DRAW_TEXT with operands `a`: the lines at rest, the command in the latch. -/
def TextReady (a : TextArgs) (s : State) : Prop := AtRest s ∧ s.latch = .drawText a

theorem TextReady.addOut {a : TextArgs} {s : State} (h : TextReady a s) (o : List Token) :
    TextReady a (s.addOut o) := h

theorem TextReady.memRead {a : TextArgs} {p : Word} {s s' : State} {b : Byte} (h : TextReady a s)
    (hm : memRead p s = .byte b s') : TextReady a s' := by
  obtain ⟨n, rfl⟩ := memRead_frame hm
  exact h

theorem TextReady.advance_atText {a : TextArgs} {s : State} (h : TextReady a s) (pt : TextPoint) :
    advance true (atText pt s) = advanceText true a pt (atText pt s) := by
  simp [advance, latchText, h.2]

/-- Where the text stands matters neither to a read nor to a fault. -/
theorem memRead_atText_fail {p : Word} {s : State} (pt : TextPoint) (h : memRead p s = .fail) :
    memRead p (atText pt s) = .fail := by
  rcases memRead_cases p s with ⟨hr, -⟩ | ⟨-, -, e⟩ | ⟨-, -, e⟩
  · simp [memRead, hr]
  · rw [e] at h; cases h
  · rw [e] at h; cases h

theorem memRead_atText_byte {p : Word} {s s' : State} {b : Byte} (pt : TextPoint) (h : memRead p s = .byte b s') :
    memRead p (atText pt s) = .byte b (atText pt s') := by
  rcases memRead_cases p s with ⟨-, e⟩ | ⟨hr, hc, e⟩ | ⟨hr, hc, e⟩ <;> rw [e] at h <;> cases h
  · have hc' : racing (atText pt s) p = true := hc
    simp only [memRead, atText_cfg, hr, hc', if_true]
    rfl
  · have hc' : racing (atText pt s) p = false := hc
    simp [memRead, hr, hc']

theorem raiseFault_atText (code : BitVec 4) (pt : TextPoint) (s : State) :
    raiseFault code (atText pt s) = raiseFault code s := by
  unfold raiseFault closeTransaction
  rw [atText_cs]
  split <;> rfl

theorem drawColumn_atRest {a : TextArgs} {cx : Word} {row : Nat} {b : Byte} {col : Nat} {s : State} (hr : AtRest s) :
    drawColumn a cx row b col s = s.addOut (windowStream s.cfg
      (pixelWindow s.cfg (cursorVal cx + col) (sext16 a.y + row)) (columnColor a b col)) :=
  drawWindow_atRest hr

/-- The rest of a display row, one pixel transaction for each column (R207, R212). -/
theorem reaches_drawColumns {a : TextArgs} (p cx ref : Word) (row : Nat) (b : Byte) (n : Nat) {col : Nat} {s : State}
    (h : TextReady a s) (hn : col + n = zext8 a.fw) :
    Reaches (atText (.col p cx ref row b col) s)
      (atText (.row p cx (rowBefore a ref) (row + 1)) (drawColumns a cx row b n col s)) := by
  induction n generalizing col s with
  | zero =>
    refine .step ?_
    rw [h.advance_atText, advanceText, if_pos (by omega)]
    rfl
  | succ n ih =>
    refine (Reaches.one _).trans ?_
    rw [h.advance_atText, advanceText, if_neg (by omega)]
    refine (reaches_openTx s _ _ _ h.1).trans ?_
    rw [drawColumns, drawColumn_atRest h.1]
    exact ih (h.addOut _) (by omega)

/-- Steps from `u` end as the display rows of a character do: at the next character with the cursor advanced, or
stopped by a fault. -/
def ReachesFlow (a : TextArgs) (p cx : Word) (u : State) : Flow → Prop
  | .go t => TextReady a t ∧ Reaches u (atText (.char p (advanceCursor cx a.fw)) t)
  | .stop t => Reaches u t

theorem ReachesFlow.after {a : TextArgs} {p cx : Word} {s u : State} {f : Flow} (hf : ReachesFlow a p cx u f)
    (h : Reaches s u) : ReachesFlow a p cx s f := by
  cases f with
  | go t => exact ⟨hf.1, h.trans hf.2⟩
  | stop t => exact h.trans hf

theorem TextReady.drawColumns {a : TextArgs} {s : State} (h : TextReady a s) (cx : Word) (row : Nat) (b : Byte)
    (n col : Nat) : TextReady a (drawColumns a cx row b n col s) := by
  rw [drawColumns_atRest n col h.1]
  exact h.addOut _

/-- The rest of a character's display rows, one read for each (R207, R211). -/
theorem reaches_drawRows {a : TextArgs} (p cx : Word) (n : Nat) {row : Nat} {ref : Word} {s : State}
    (h : TextReady a s) (hn : row + n = zext8 a.table.gh) :
    ReachesFlow a p cx (atText (.row p cx ref row) s) (drawRows a cx n row ref s) := by
  induction n generalizing row ref s with
  | zero =>
    refine ⟨h, .step ?_⟩
    rw [h.advance_atText, advanceText, if_pos (by omega)]
    rfl
  | succ n ih =>
    have hstep := h.advance_atText (.row p cx ref row)
    rw [advanceText, if_neg (by omega), if_pos rfl] at hstep
    rw [drawRows]
    cases hm : memRead ref s with
    | fail =>
      rw [memRead_atText_fail _ hm] at hstep
      exact .step (hstep.trans (raiseFault_atText _ _ s))
    | byte b s' =>
      rw [memRead_atText_byte _ hm] at hstep
      have h' := h.memRead hm
      have hcols := reaches_drawColumns p cx ref row b (zext8 a.fw) h' (Nat.zero_add _)
      have hrest := ih (ref := rowBefore a ref) (h'.drawColumns cx row b (zext8 a.fw) 0)
        (show row + 1 + n = zext8 a.table.gh by omega)
      exact hrest.after ((Reaches.step hstep).trans hcols)

/-- The text loop, one character a turn, up to its end, a fault or its `n`-th character (R207, log 14). -/
theorem reaches_textLoop {a : TextArgs} (n : Nat) {p cx : Word} {s : State} (h : TextReady a s) :
    Reaches (atText (.char p cx) s) (textLoop a n p cx s) := by
  induction n generalizing p cx s with
  | zero => exact .refl _
  | succ n ih =>
    have hstep := h.advance_atText (.char p cx)
    rw [advanceText, if_pos rfl] at hstep
    rw [textLoop]
    cases hm : memRead p s with
    | fail =>
      rw [memRead_atText_fail _ hm] at hstep
      exact .step (hstep.trans (raiseFault_atText _ _ s))
    | byte ch s' =>
      rw [memRead_atText_byte _ hm] at hstep
      have h' := h.memRead hm
      dsimp only at hstep ⊢
      by_cases hz : ch = 0x00
      · rw [if_pos hz] at hstep ⊢
        exact .step hstep
      · rw [if_neg hz] at hstep ⊢
        cases hg : lookupGlyph a.table ch with
        | none =>
          rw [hg] at hstep
          exact (Reaches.step hstep).trans (ih h')
        | some ref =>
          rw [hg] at hstep
          have hrows := (reaches_drawRows (p + 1) cx (zext8 a.table.gh) (row := 0) (ref := ref) h' (by omega)).after
            (.step hstep)
          dsimp only
          cases hf : drawRows a cx (zext8 a.table.gh) 0 ref s' with
          | stop t =>
            rw [hf] at hrows
            exact hrows
          | go t =>
            rw [hf] at hrows
            exact hrows.2.trans (ih hrows.1)

/-- DRAW_TEXT: the check of FW, then the text loop (R207). -/
theorem reaches_drawText {a : TextArgs} {s : State} (h : TextReady a s) :
    Reaches (atText .start s) (drawText a s) := by
  have hstep := h.advance_atText .start
  rw [advanceText] at hstep
  rw [drawText]
  split
  · rename_i hfw
    rw [if_pos hfw] at hstep
    exact .step (hstep.trans (raiseFault_atText _ _ s))
  · rename_i hfw
    rw [if_neg hfw] at hstep
    exact (Reaches.step hstep).trans (reaches_textLoop _ h)

/-! ### Every command -/

/-- From its first working state a command reaches the state `exec` answers (R14, R31). -/
theorem exec_reaches {i : Instr} {s : State} (hr : AtRest s) (hi : s.latch = i) :
    ∃ t, exec i s = .next t ∧ Reaches { s with seq := .exec (startWork s.cfg i) } t := by
  cases i with
  | nop => exact ⟨_, rfl, .step (finishCommand_eq_complete (by simp [hi]))⟩
  | fill color => exact ⟨_, rfl, reaches_drawWindow hr (by simp [hi])⟩
  | drawPixel x y color => exact ⟨_, rfl, reaches_drawWindow hr (by simp [hi])⟩
  | drawHLine x y w color => exact ⟨_, rfl, reaches_drawWindow hr (by simp [hi])⟩
  | drawVLine x y h color => exact ⟨_, rfl, reaches_drawWindow hr (by simp [hi])⟩
  | drawLine x0 y0 x1 y1 color =>
    have hc : latchColor s.latch = color := by rw [hi]; rfl
    exact ⟨_, rfl, hc ▸ reaches_drawLine _ _ _ _ hr (by simp [hi])⟩
  | drawRect x y w h color => exact ⟨_, rfl, reaches_drawWindow (v := some _) hr (by simp [hi])⟩
  | drawText a => exact ⟨_, rfl, reaches_drawText ⟨hr, hi⟩⟩
  | lookupGlyph ch t =>
    exact ⟨_, rfl, .step (by simp only [advance, startWork, finishCommand, hi, complete])⟩

/-- Settles O13: a simulation, by induction over the pixels, the points and the characters of the command. -/
theorem commandRunsAsItsSteps : Obligations.CommandRunsAsItsSteps := by
  intro i rest s _ hr
  have hr' : AtRest (accept i rest s) := hr
  obtain ⟨t, ht, k, hk⟩ := exec_reaches hr' (show (accept i rest s).latch = i from rfl)
  exact ⟨k, t, ht, hk⟩

end Sys2Proof.Machine

/-! SUPPORT. Proofs of the statements of spec/10_state.md: every step keeps the invariant, what a command leaves
unchanged, packets and CMD writes at the FIFO, the register window, the reset values. -/

namespace Sys2Proof.Machine

/-! ### What the invariant does not speak of -/

theorem Inv.withDraws {s : State} (h : Inv s) (n : Nat) : Inv { s with draws := n } :=
  ⟨h.config, h.fifo, h.memory, h.lines, h.work, h.code⟩

theorem Inv.withPlan {s : State} (h : Inv s) (p : List Turn) : Inv { s with plan := p } :=
  ⟨h.config, h.fifo, h.memory, h.lines, h.work, h.code⟩

theorem Inv.withResults {s : State} (h : Inv s) (l : LookupResult) (x : Word) :
    Inv { s with lookup := l, resultX := x } :=
  ⟨h.config, h.fifo, h.memory, h.lines, h.work, h.code⟩

/-- The FIFO of a well-kept state may hold any words up to CMDQ_DEPTH, whatever write waits (R29). -/
theorem Inv.withFifo {s : State} (h : Inv s) {q : List Word} (hq : q.length ≤ s.cfg.depth) (w : Option Word) :
    Inv { s with fifo := q, waiting := w } :=
  ⟨h.config, hq, h.memory, h.lines, h.work, h.code⟩

/-! ### What a reset gives -/

/-- The reset of the block is the state of R40 with the parameters, memory, stream and host side kept; `DESEL` is the
last token if a transaction was open (R272). -/
theorem resetBlock_eq (s : State) :
    resetBlock s = { State.resetOf s.cfg with
      out := s.out ++ (if s.cs = .active then [Token.desel] else []), mem := s.mem, waiting := s.waiting
      readData := s.readData, plan := s.plan, draws := s.draws
      outBase := (s.out ++ (if s.cs = .active then [Token.desel] else [])).length } := by
  unfold resetBlock closeTransaction
  split
  · rfl
  · simp [State.resetOf]

theorem resetOf_inv {c : Config} (hc : c.wf = true) : Inv (State.resetOf c) :=
  ⟨hc, Nat.zero_le _, rfl, rfl, rfl, rfl⟩

theorem resetBlock_inv {s : State} (hc : s.cfg.wf = true) (hm : Memory.wf s.mem = true) : Inv (resetBlock s) := by
  have h := resetOf_inv hc
  rw [resetBlock_eq]
  exact ⟨hc, h.fifo, hm, h.lines, h.work, h.code⟩

/-- A hard reset is the reset of the block, but for a CMD write that waits (R270, log 8). -/
theorem hardReset_eq (s : State) : ∃ w n, hardReset s = { resetBlock s with waiting := w, draws := n } := by
  unfold hardReset
  split
  · exact ⟨_, _, rfl⟩
  · exact ⟨_, _, rfl⟩

theorem hardReset_inv {s : State} (hc : s.cfg.wf = true) (hm : Memory.wf s.mem = true) : Inv (hardReset s) := by
  have h := resetBlock_inv hc hm
  obtain ⟨w, n, he⟩ := hardReset_eq s
  rw [he]
  exact (h.withFifo h.fifo w).withDraws n

/-- Settles O17: the reset state has every field at rest and an empty stream. -/
theorem resetIsWellKept : Obligations.ResetIsWellKept :=
  ⟨resetOf_inv (by decide), fun _ hc => ⟨resetOf_inv hc, Nat.zero_le _, [], by simp, rfl⟩⟩

/-! ### Entering a working state, ending a command, faulting -/

/-- Between transactions the lines of a well-kept state are at rest (R34). -/
theorem Inv.atRest {s : State} (h : Inv s) (hs : ∀ t task, s.seq ≠ .exec ⟨some t, task⟩) : AtRest s := by
  have hl := h.lines
  unfold linesOk at hl
  split at hl
  · exact absurd ‹_› (hs _ _)
  · simpa [AtRest] using hl

theorem Inv.faultCode_zero {s : State} (h : Inv s) (hs : s.seq ≠ .halted) : s.faultCode = 0 := by
  simpa [codeOk, hs] using h.code

/-- A well-kept state at rest may take any sequencer state that is in order, outside a transaction. -/
theorem Inv.withSeq {s : State} (h : Inv s) (hr : AtRest s) {q : Seq} (hl : linesOk s.cfg q .inactive .data = true)
    (hw : workOk s.cfg s.latch q = true) (hc : codeOk q s.faultCode = true) : Inv { s with seq := q } :=
  ⟨h.config, h.fifo, h.memory, by rw [hr.1, hr.2]; exact hl, hw, hc⟩

/-- A command goes on between two transactions, or opens the next one. -/
theorem Inv.openTx {s : State} (h : Inv s) (hr : AtRest s) (hs : s.seq ≠ .halted) (v : Option Window) (col : Half)
    {task : Task} (ht : taskOk s.latch task = true) : Inv { s with seq := .exec ⟨openTx s.cfg v col, task⟩ } :=
  h.withSeq hr openTx_atRest.1 (by simp only [workOk, openTx_ok, ht, Bool.and_self])
    (by simp [codeOk, h.faultCode_zero hs])

theorem Inv.complete {s : State} (h : Inv s) (hr : AtRest s) (hs : s.seq ≠ .halted) : Inv (complete s) :=
  h.withSeq hr rfl rfl (by simp [codeOk, h.faultCode_zero hs])

/-- Outside a transaction a fault emits nothing (R244). -/
theorem raiseFault_inactive {s : State} (hs : s.cs = .inactive) (code : BitVec 4) :
    raiseFault code s = { s with faultCode := code, seq := .halted } := by
  simp [raiseFault, closeTransaction, hs]

theorem Inv.raiseFault {s : State} (h : Inv s) (hr : AtRest s) {code : BitVec 4}
    (hc : codeOk .halted code = true) : Inv (raiseFault code s) := by
  rw [raiseFault_inactive hr.1]
  exact ⟨h.config, h.fifo, h.memory, by simp [linesOk, hr.1, hr.2], rfl, hc⟩

theorem finishCommand_inv {s : State} (h : Inv s) (hr : AtRest s) (hs : s.seq ≠ .halted) : Inv (finishCommand s) := by
  unfold finishCommand
  split
  · exact (h.withResults _ s.resultX).complete hr hs
  · exact h.complete hr hs

/-! ### The stepper's bounds (R167) -/

theorem stepperOk_iff (st : Stepper) : stepperOk st = true ↔ 1 ≤ st.dy ∧ st.dy ≤ st.dx ∧ 0 ≤ st.err ∧
    st.err < st.dx ∧ st.p ≤ st.last + 1 ∧ (st.ystep = 1 ∨ st.ystep = -1) := by
  simp [stepperOk]

/-- A stepper before its first point, roles and endpoints already exchanged as R166 asks. -/
theorem stepperOk_start {steep : Bool} {p last y y1 : Int} (hp : p < last) (hy : y ≠ y1)
    (hd : ((y1 - y).natAbs : Int) ≤ last - p) :
    stepperOk ⟨steep, p, last, y, (last - p) / 2, last - p, (y1 - y).natAbs, if y1 ≥ y then 1 else -1⟩ = true := by
  rw [stepperOk_iff]
  dsimp only
  refine ⟨by omega, hd, by omega, by omega, by omega, ?_⟩
  split
  · exact .inl rfl
  · exact .inr rfl

theorem stepperOk_init {x0 y0 x1 y1 : Int} (hx : x0 ≠ x1) (hy : y0 ≠ y1) :
    stepperOk (Stepper.init x0 y0 x1 y1) = true := by
  unfold Stepper.init
  by_cases hsteep : (y1 - y0).natAbs > (x1 - x0).natAbs
  · by_cases hswap : y0 > y1
    · simp only [hsteep, hswap, decide_true, if_true]
      exact stepperOk_start hswap hx.symm (by omega)
    · simp only [hsteep, hswap, decide_true, if_true, if_false]
      exact stepperOk_start (by omega) hx (by omega)
  · by_cases hswap : x0 > x1
    · simp only [hsteep, hswap, decide_false, if_true, if_false, Bool.false_eq_true]
      exact stepperOk_start hswap hy.symm (by omega)
    · simp only [hsteep, hswap, decide_false, if_false, Bool.false_eq_true]
      exact stepperOk_start (by omega) hy (by omega)

theorem stepperOk_next {st : Stepper} (h : stepperOk st = true) (hp : st.p ≤ st.last) : stepperOk st.next = true := by
  rw [stepperOk_iff] at h ⊢
  rcases st.next_cases with ⟨he, hn⟩ | ⟨he, hn⟩ <;> rw [hn] <;> dsimp only <;> omega

/-! ### Taking a packet -/

/-- The working state in which a command begins is in order, with no token of it out (R37). -/
theorem startWork_ok (c : Config) (i : Instr) : workOk c i (.exec (startWork c i)) = true ∧
    linesOk c (.exec (startWork c i)) .inactive .data = true := by
  have hopen : ∀ (v : Option Window) (col : Half), workOk c i (.exec ⟨openTx c v col, .finish⟩) = true ∧
      linesOk c (.exec ⟨openTx c v col, .finish⟩) .inactive .data = true := fun v col =>
    ⟨by simp only [workOk, openTx_ok, taskOk, Bool.and_self], openTx_atRest.1⟩
  cases i with
  | nop => exact ⟨rfl, rfl⟩
  | fill col => exact hopen _ _
  | drawPixel x y col => exact hopen _ _
  | drawHLine x y w col => exact hopen _ _
  | drawVLine x y h col => exact hopen _ _
  | drawRect x y w h col => exact hopen _ _
  | drawText a => exact ⟨rfl, rfl⟩
  | lookupGlyph ch t => exact ⟨rfl, rfl⟩
  | drawLine x0 y0 x1 y1 col =>
    simp only [startWork, startLine]
    split
    · exact hopen _ _
    · split
      · exact hopen _ _
      · exact ⟨by simp [workOk, taskOk, stepperOk_init, *], rfl⟩

theorem decode_illegal_rest {ws rest : List Word} (h : decode ws = .illegal rest) : ∃ w0, ws = w0 :: rest := by
  cases ws with
  | nil => cases h
  | cons w0 ws =>
    refine ⟨w0, ?_⟩
    simp only [decode, decodeAfter] at h
    split at h
    case h_10 => cases h; rfl
    case h_1 | h_2 => cases h
    all_goals (simp only [decode2, decode3, decode6] at h; split at h <;> cases h)

theorem accept_inv {s : State} {i : Instr} {rest : List Word} (h : Inv s) (hs : s.seq = .idle)
    (hd : decode s.fifo = .packet i rest) : Inv (accept i rest s) := by
  obtain ⟨hcs, hdc⟩ := h.atRest (by simp [hs])
  obtain ⟨hwork, hlines⟩ := startWork_ok s.cfg i
  have hlen : (rest ++ s.waiting.toList).length ≤ s.cfg.depth := by
    have hshort := (packet_shorter hd).1
    have hfifo := h.fifo
    have hone : s.waiting.toList.length ≤ 1 := by cases s.waiting <;> simp
    rw [List.length_append]
    omega
  have hcode := h.faultCode_zero (by simp [hs])
  exact ⟨h.config, hlen, h.memory, by simpa [accept, hcs, hdc] using hlines, hwork, by simp [accept, codeOk, hcode]⟩

theorem takeIllegal_inv {s : State} {rest : List Word} (h : Inv s) (hs : s.seq = .idle)
    (hd : decode s.fifo = .illegal rest) : Inv (takeIllegal rest s) := by
  have hr : AtRest s := h.atRest (by simp [hs])
  obtain ⟨w0, hw⟩ := decode_illegal_rest hd
  have hlen : rest.length + 1 ≤ s.cfg.depth := by simpa [hw] using h.fifo
  have hkeep : ∀ (q : List Word) (w : Option Word) (n : Nat), q.length ≤ s.cfg.depth →
      Inv (raiseFault illegalOpcodeCode { s with fifo := q, waiting := w, draws := n }) := fun q w n hq =>
    ((h.withFifo hq w).withDraws n).raiseFault hr rfl
  unfold takeIllegal
  split
  · exact hkeep rest s.waiting s.draws (by omega)
  · refine hkeep _ none _ ?_
    split
    · simpa using hlen
    · omega

/-! ### One step of a command -/

/-- The parts of the working state, inside a transaction (R37). -/
theorem Inv.inTx {s : State} (h : Inv s) {t : Tx} {task : Task} (hs : s.seq = .exec ⟨some t, task⟩) :
    txOk s.cfg t = true ∧ taskOk s.latch task = true := by
  simpa [workOk, hs] using h.work

theorem Inv.task {s : State} (h : Inv s) {task : Task} (hs : s.seq = .exec ⟨none, task⟩) :
    taskOk s.latch task = true := by
  simpa [workOk, hs] using h.work

/-- Within `set_window` the block is selected, and `dc` is at command only before a command byte (R104). -/
theorem Inv.linesInWindow {s : State} (h : Inv s) {t : Tx} {task : Task} {k : Nat}
    (hs : s.seq = .exec ⟨some t, task⟩) (hp : t.pos = .window k) :
    s.cs = .active ∧ (s.dc = .data ∨ ∃ b, (windowTokens s.cfg t.win)[k]? = some (.cmd b)) := by
  have hl := h.lines
  simp only [linesOk, hs, hp, Bool.and_eq_true, Bool.or_eq_true, beq_iff_eq] at hl
  refine ⟨hl.1, hl.2.imp_right fun hm => ?_⟩
  split at hm
  · exact ⟨_, ‹_›⟩
  · cases hm

/-- While colours are streamed and until `deselect()` the block is selected, with `dc` at data (R106). -/
theorem Inv.linesInStream {s : State} (h : Inv s) {t : Tx} {task : Task} (hs : s.seq = .exec ⟨some t, task⟩)
    (hp : t.pos ≠ .select) (hw : ∀ k, t.pos ≠ .window k) : s.cs = .active ∧ s.dc = .data := by
  have hl := h.lines
  simpa [linesOk, hs] using hl

/-- A transaction may move to any place with its counters in range, once selected and with `dc` at data. -/
theorem Inv.setTx {s : State} (h : Inv s) {t : Tx} {task : Task} (hs : s.seq = .exec ⟨some t, task⟩) {pos : TxPos}
    (hw : txOk s.cfg { t with pos := pos } = true) (hp : pos ≠ .select) {o : List Token} {c : SelectLine}
    {d : DataLine} (hc : c = .active) (hd : d = .data) :
    Inv (setTx ⟨some t, task⟩ t pos { s with out := o, cs := c, dc := d }) := by
  subst hc hd
  have hk := (h.inTx hs).2
  have hcode := h.faultCode_zero (by simp [hs])
  refine ⟨h.config, h.fifo, h.memory, ?_, by simp [workOk, hw, hk], by simp [codeOk, hcode]⟩
  cases pos with
  | select => exact absurd rfl hp
  | window k => simp [linesOk]
  | colorHi n => rfl
  | colorLo n => rfl
  | deselect => rfl

/-- An accepted window has at least one pixel (R131). -/
theorem winOk_pixels_pos {c : Config} {v : Window} (h : winOk c v = true) : 1 ≤ v.w * v.h := by
  rw [winOk_iff] at h
  obtain ⟨-, hw, -, -, hh, -⟩ := h
  exact Nat.mul_pos hw hh

/-- The place after a token of `set_window` is in range (R131, R136). -/
theorem txOk_afterWindow {c : Config} {t : Tx} (hv : winOk c t.win = true) (k : Nat) :
    txOk c { t with pos := afterWindow t.win k } = true ∧ afterWindow t.win k ≠ .select := by
  unfold afterWindow
  split
  · exact ⟨by simp [txOk, hv]; omega, by simp⟩
  · exact ⟨by simpa [txOk, hv] using winOk_pixels_pos hv, by simp⟩

/-- The place after a pixel is in range (R134). -/
theorem txOk_afterPixel {c : Config} {t : Tx} (hv : winOk c t.win = true) {n : Nat} (hn : n ≤ t.win.w * t.win.h) :
    txOk c { t with pos := afterPixel n } = true ∧ afterPixel n ≠ .select := by
  unfold afterPixel
  split
  · exact ⟨by simp [txOk, hv], by simp⟩
  · exact ⟨by simp [txOk, hv]; omega, by simp⟩

/-- One step of a transaction, place by place (R136). -/
theorem advanceTx_inv (ready : Bool) {t : Tx} {task : Task} {s : State} (h : Inv s)
    (hs : s.seq = .exec ⟨some t, task⟩) : Inv (advanceTx ready ⟨some t, task⟩ t s) := by
  obtain ⟨htx, hk⟩ := h.inTx hs
  have hv : winOk s.cfg t.win = true := by
    rw [txOk, Bool.and_eq_true] at htx
    exact htx.1
  have hcode := h.faultCode_zero (by simp [hs])
  unfold advanceTx
  split
  case h_1 hp =>
    have hdc : s.dc = .data := by
      have hl := h.lines
      simp only [linesOk, hs, hp, Bool.and_eq_true, beq_iff_eq] at hl
      exact hl.2
    exact h.setTx hs (by simp [txOk, hv]) (by simp) rfl hdc
  case h_2 k hp =>
    obtain ⟨hcs, hdc⟩ := h.linesInWindow hs hp
    obtain ⟨hok, hsel⟩ := txOk_afterWindow hv k
    split
    case h_1 b htok =>
      split
      · exact ⟨h.config, h.fifo, h.memory, by simp [linesOk, hs, hp, hcs, htok], h.work, h.code⟩
      · split
        · exact h.setTx hs hok hsel hcs rfl
        · exact h
    case h_2 tok hnot htok =>
      split
      · refine h.setTx hs hok hsel hcs (hdc.resolve_right ?_)
        rintro ⟨b, hb⟩
        exact hnot b (Option.some.inj (htok.symm.trans hb))
      · exact h
    case h_3 => exact h
  case h_3 n hp =>
    obtain ⟨hcs, hdc⟩ := h.linesInStream hs (by simp [hp]) (by simp [hp])
    split
    · exact h.setTx hs (by simpa [txOk, hp] using htx) (by simp) hcs hdc
    · exact h
  case h_4 n hp =>
    obtain ⟨hcs, hdc⟩ := h.linesInStream hs (by simp [hp]) (by simp [hp])
    have hn : n ≤ t.win.w * t.win.h := by
      simp only [txOk, hp, Bool.and_eq_true, decide_eq_true_eq] at htx
      exact htx.2.2
    obtain ⟨hok, hsel⟩ := txOk_afterPixel hv hn
    split
    · exact h.setTx hs hok hsel hcs hdc
    · exact h
  case h_5 hp =>
    obtain ⟨-, hdc⟩ := h.linesInStream hs (by simp [hp]) (by simp [hp])
    exact ⟨h.config, h.fifo, h.memory, by simp [linesOk, hdc], by simp [workOk, hk], by simp [codeOk, hcode]⟩

theorem advanceLine_inv (c : Half) {st : Stepper} {s : State} (h : Inv s)
    (hs : s.seq = .exec ⟨none, .diagonal st⟩) : Inv (advanceLine c st s) := by
  have hr : AtRest s := h.atRest (by simp [hs])
  have hst : stepperOk st = true := h.task hs
  unfold advanceLine
  split
  · exact h.openTx hr (by simp [hs]) _ c (stepperOk_next hst ‹_›)
  · exact finishCommand_inv h hr (by simp [hs])

/-- A text draw goes on at a point in range, with no transaction under way. -/
theorem Inv.atText {s : State} (h : Inv s) (hr : AtRest s) (hs : s.seq ≠ .halted) {a : TextArgs}
    (ha : s.latch = .drawText a) {pt : TextPoint} (hpt : textPointOk a pt = true) : Inv (atText pt s) :=
  h.openTx hr hs none 0 (by simpa [taskOk, ha] using hpt)

/-- One step of DRAW_TEXT between transactions, point by point (R207). -/
theorem advanceText_inv (ready : Bool) {a : TextArgs} {pt : TextPoint} {s : State} (h : Inv s)
    (hs : s.seq = .exec ⟨none, .text pt⟩) (ha : s.latch = .drawText a) : Inv (advanceText ready a pt s) := by
  have hr : AtRest s := h.atRest (by simp [hs])
  have hh : s.seq ≠ .halted := by simp [hs]
  have hpt : textPointOk a pt = true := by simpa [taskOk, ha] using h.task hs
  cases pt with
  | start =>
    simp only [advanceText]
    split
    · exact h.raiseFault hr rfl
    · exact h.atText hr hh ha (decide_eq_true (Nat.not_lt.1 ‹_›))
  | char p cx =>
    simp only [advanceText]
    split
    · split
      · exact h.raiseFault hr rfl
      · rename_i hm
        obtain ⟨n, rfl⟩ := memRead_frame hm
        have hd := h.withDraws n
        split
        · exact (hd.withResults s.lookup cx).complete hr hh
        · split
          · exact hd.atText hr hh ha hpt
          · exact hd.atText hr hh ha (by simpa [textPointOk] using hpt)
    · exact h
  | row p cx ref row =>
    simp only [textPointOk, decide_eq_true_eq] at hpt
    simp only [advanceText]
    split
    · exact h.atText hr hh ha (decide_eq_true hpt.1)
    · split
      · split
        · exact h.raiseFault hr rfl
        · rename_i hm
          obtain ⟨n, rfl⟩ := memRead_frame hm
          exact (h.withDraws n).atText hr hh ha (decide_eq_true ⟨hpt.1, Nat.not_le.1 ‹_›, Nat.zero_le _⟩)
      · exact h
  | col p cx ref row b col =>
    simp only [textPointOk, decide_eq_true_eq] at hpt
    simp only [advanceText]
    split
    · exact h.atText hr hh ha (decide_eq_true ⟨hpt.1, hpt.2.1⟩)
    · exact h.openTx hr hh _ _ (by
        rw [ha]
        exact decide_eq_true ⟨hpt.1, hpt.2.1, Nat.not_le.1 ‹_›⟩)

theorem eq_drawText_of_latchText {i : Instr} {a : TextArgs} (h : latchText i = some a) : i = .drawText a := by
  cases i with
  | drawText b => cases h; rfl
  | _ => cases h

/-- One step of the executing command (R31). -/
theorem advance_inv (ready : Bool) {s : State} (h : Inv s) : Inv (advance ready s) := by
  unfold advance
  split
  case h_1 hs => exact advanceTx_inv ready h hs
  case h_2 hs => exact finishCommand_inv h (h.atRest (by simp [hs])) (by simp [hs])
  case h_3 hs => exact advanceLine_inv _ h hs
  case h_4 hs =>
    split
    · exact advanceText_inv ready h hs (eq_drawText_of_latchText ‹_›)
    · exact h
  case h_5 => exact h
  case h_6 => exact h

theorem advanceMany_inv (k : Nat) {s : State} (h : Inv s) : Inv (advanceMany k s) := by
  induction k generalizing s with
  | zero => exact h
  | succ k ih => exact ih (advance_inv true h)

/-! ### Every step keeps the invariant -/

/-- A command run whole is the sum of its steps (O13), each of which keeps the invariant. -/
theorem exec_accept_inv {s t : State} {i : Instr} {rest : List Word} (h : Inv s) (hs : s.seq = .idle)
    (hd : decode s.fifo = .packet i rest) (ht : exec i (accept i rest s) = .next t) : Inv t := by
  obtain ⟨k, u, hu, hk⟩ := commandRunsAsItsSteps i rest s h.config (h.atRest (by simp [hs]))
  have htu : u = t := by simpa [hu] using ht
  rw [← htu, ← hk]
  exact advanceMany_inv k (accept_inv h hs hd)

theorem blockMove_inv (ready : Bool) {s : State} (h : Inv s) : Inv (blockMove ready s) := by
  unfold blockMove
  split
  case h_1 hs =>
    split
    · exact h
    · exact takeIllegal_inv h hs ‹_›
    · exact accept_inv h hs ‹_›
  case h_2 => exact advance_inv ready h
  case h_3 => exact h

/-- A CMD write that waits enters only where there is room (R22). -/
theorem settleWaiting_inv {s s' : State} (h : Inv s) (hw : settleWaiting s = some s') : Inv s' := by
  unfold settleWaiting at hw
  split at hw
  · cases hw
  · split at hw
    · cases hw
      exact h.withFifo h.fifo none
    · split at hw
      · cases hw
        exact h.withFifo (by simpa using ‹_›) none
      · cases hw

theorem writeReg_inv (off : Nat) (v : Word) {s : State} (h : Inv s) : Inv (writeReg off v s) := by
  unfold writeReg
  split
  · unfold writeCmd
    split
    · exact h
    · split
      · exact h.withFifo (by simpa using ‹_›) s.waiting
      · exact h.withFifo h.fifo (some v)
  · split
    · unfold writeCtrl
      split
      · exact resetBlock_inv h.config h.memory
      · exact h
    · exact h

theorem hostAccess_inv {a : HostAccess} {s s' : State} (h : Inv s) (ha : hostAccess a s = .next s') : Inv s' := by
  rcases hostAccess_cases ha with ⟨v, rfl⟩ | ⟨off, v, rfl⟩
  · exact ⟨h.config, h.fifo, h.memory, h.lines, h.work, h.code⟩
  · exact writeReg_inv off v h

theorem takeTurn_inv {t : Turn} {rest : List Turn} {s s' : State} (h : Inv s) (ht : takeTurn t rest s = .next s') :
    Inv s' := by
  cases t with
  | host a =>
    simp only [takeTurn] at ht
    split at ht
    · cases ht; exact blockMove_inv true h
    · exact hostAccess_inv (h.withPlan rest) ht
  | srcWrite a b =>
    cases ht
    exact ⟨h.config, h.fifo, Memory.write_wf h.memory a b, h.lines, h.work, h.code⟩
  | hardReset => cases ht; exact hardReset_inv h.config h.memory
  | block ready => cases ht; exact blockMove_inv ready (h.withPlan rest)

/-- Settles O18, by the cases of a step: a write that ends, a turn, a command run whole, a move of the block. -/
theorem stepKeepsInv : Obligations.StepKeepsInv := by
  intro s s' h hstep
  rcases step_cases hstep with hw | ⟨-, t, rest, -, ht⟩ | ⟨-, -, hs, i, rest, hd, he⟩ | ⟨-, -, -, rfl⟩
  · exact settleWaiting_inv h hw
  · exact takeTurn_inv h ht
  · exact exec_accept_inv h hs hd he
  · exact blockMove_inv true h

/-! ### The register window -/

/-- CMD, CTRL and the reserved slots read as 0 (R22, R27, R28). -/
theorem readReg_zero {off : Nat} (h4 : off ≠ 0x04) (h8 : off ≠ 0x08) (hC : off ≠ 0x0C) (s : State) :
    readReg off s = 0x00000000 := by
  simp [readReg, h4, h8, hC]

/-- With no CMD write waiting, the host's access is made in its turn (R67, log 4). -/
theorem step_host {s : State} {a : HostAccess} {p : List Turn} (hw : s.waiting = none) (hp : s.plan = .host a :: p) :
    step s = hostAccess a { s with plan := p } := by
  rw [step_turn hw hp, takeTurn, if_neg (by simp [hw])]

/-- With no CMD write waiting, a host read of slot `k` is one step (R21, log 4). -/
theorem step_hostRead {s : State} {k : Nat} {p : List Turn} (hc : s.cfg.wf = true) (hk : k < 8)
    (hw : s.waiting = none) (hp : s.plan = .host (.read (s.cfg.base + 4 * k) .word) :: p) :
    step s = .next { s with plan := p, readData := readReg (4 * k) s } :=
  (step_host hw hp).trans (hostAccess_read (s := { s with plan := p }) hc hk)

/-- With no CMD write waiting, a host write to slot `k` is one step (R21, log 4). -/
theorem step_hostWrite {s : State} {k : Nat} {v : Word} {p : List Turn} (hc : s.cfg.wf = true) (hk : k < 8)
    (hw : s.waiting = none) (hp : s.plan = .host (.write (s.cfg.base + 4 * k) .word v) :: p) :
    step s = .next (writeReg (4 * k) v { s with plan := p }) :=
  (step_host hw hp).trans (hostAccess_write (s := { s with plan := p }) hc hk)

/-- Settles O46: slots 1 to 3 are the registers, the others read as 0. -/
theorem registerReads : Obligations.RegisterReads := by
  intro s k p hc hk hw hp
  rw [step_hostRead hc hk hw hp]
  by_cases h1 : k = 1
  · subst h1; rfl
  · by_cases h2 : k = 2
    · subst h2; rfl
    · by_cases h3 : k = 3
      · subst h3; rfl
      · rw [readReg_zero (by omega) (by omega) (by omega), if_neg h1, if_neg h2, if_neg h3]

/-- A write to a slot that is neither CMD nor CTRL is ignored (R23, R25, R26, R28). -/
theorem writeReg_ignored {off : Nat} (h0 : off ≠ 0x00) (h10 : off ≠ 0x10) (v : Word) (s : State) :
    writeReg off v s = s := by
  simp [writeReg, h0, h10]

/-- Settles O50: the slots left are neither CMD nor CTRL. -/
theorem otherWritesIgnored : Obligations.OtherWritesIgnored := by
  intro s v k p hc hw hk h0 h4 hp
  rw [step_hostWrite hc hk hw hp, writeReg_ignored (by omega) (by omega)]

/-- CTRL is slot 4, and only bit 0 of the word matters (R27). -/
theorem step_ctrlWrite {s : State} {v : Word} {p : List Turn} (hc : s.cfg.wf = true) (hw : s.waiting = none)
    (hp : s.plan = .host (.write (s.cfg.base + 0x10) .word v) :: p) :
    step s = .next (if v.getLsbD 0 then resetBlock { s with plan := p } else { s with plan := p }) :=
  step_hostWrite (k := 4) hc (by decide) hw hp

/-- Settles O51, by bit 0 of the word written; the read is that of slot 4. -/
theorem ctrlBitZeroResets : Obligations.CtrlBitZeroResets := by
  intro s v p hc hw
  refine ⟨fun hp => ⟨fun hv => ?_, fun hv => ?_⟩, fun hp => step_hostRead (k := 4) hc (by decide) hw hp⟩
  · rw [step_ctrlWrite hc hw hp, if_pos hv]
  · rw [step_ctrlWrite hc hw hp, hv, if_neg Bool.false_ne_true]

/-! ### CMD writes -/

theorem halted_eq_false {s : State} (hs : s.seq ≠ .halted) : halted s = false := by
  simpa [halted] using hs

theorem writeCmd_room {s : State} (hs : s.seq ≠ .halted) (hf : s.fifo.length < s.cfg.depth) (v : Word) :
    writeCmd v s = { s with fifo := s.fifo ++ [v] } := by
  simp [writeCmd, halted_eq_false hs, hf]

theorem writeCmd_full {s : State} (hs : s.seq ≠ .halted) (hf : s.cfg.depth ≤ s.fifo.length) (v : Word) :
    writeCmd v s = { s with waiting := some v } := by
  simp [writeCmd, halted_eq_false hs, Nat.not_lt.2 hf]

theorem writeCmd_halted {s : State} (hs : s.seq = .halted) (v : Word) : writeCmd v s = s := by
  simp [writeCmd, halted, hs]

/-- Settles O48: CMD is slot 0. -/
theorem cmdWriteAppendsWaitsOrIsDiscarded : Obligations.CmdWriteAppendsWaitsOrIsDiscarded := by
  intro s v p hc hw hp
  have hstep : step s = .next (writeCmd v { s with plan := p }) := step_hostWrite (k := 0) hc (by decide) hw hp
  rw [hstep]
  exact ⟨fun hs hf => congrArg _ (writeCmd_room (s := { s with plan := p }) hs hf v),
    fun hs hf => congrArg _ (writeCmd_full (s := { s with plan := p }) hs hf v),
    fun hs => congrArg _ (writeCmd_halted (s := { s with plan := p }) hs v)⟩

theorem settleWaiting_room {s : State} {v : Word} (hw : s.waiting = some v) (hs : s.seq ≠ .halted)
    (hf : s.fifo.length < s.cfg.depth) : settleWaiting s = some { s with fifo := s.fifo ++ [v], waiting := none } := by
  simp [settleWaiting, hw, halted_eq_false hs, hf]

/-- On a full FIFO a waiting CMD write waits on, and with none waiting there is nothing to settle (R22). -/
theorem settleWaiting_full {s : State} (hs : s.seq ≠ .halted) (hf : s.cfg.depth ≤ s.fifo.length) :
    settleWaiting s = none := by
  cases hw : s.waiting with
  | none => exact settleWaiting_none hw
  | some v => simp [settleWaiting, hw, halted_eq_false hs, Nat.not_lt.2 hf]

/-- A turn of the plan is taken when no CMD write that waits can end (log 4). -/
theorem step_takeTurn {s : State} {t : Turn} {rest : List Turn} (hw : settleWaiting s = none)
    (hp : s.plan = t :: rest) : step s = takeTurn t rest s := by
  simp [step, nextMove, hw, hp]

/-- Settles O49: with room the write settles; on a full FIFO the packet at the head makes room, or the block moves
before the host does. -/
theorem waitingWriteEnters : Obligations.WaitingWriteEnters := by
  intro s v hw hs
  refine ⟨fun hf => ?_, fun hf hi hp i rest hd => ⟨step_packet (settleWaiting_full hs hf) hp hi hd, ?_, rfl⟩,
    fun hf a p hp => ?_⟩
  · simp [step, nextMove, settleWaiting_room hw hs hf]
  · simp [accept, hw]
  · rw [step_takeTurn (settleWaiting_full hs hf) hp]
    simp [takeTurn, hw]

/-! ### Packets at the FIFO head -/

theorem blockMove_packet {s : State} {i : Instr} {rest : List Word} (hs : s.seq = .idle)
    (hd : decode s.fifo = .packet i rest) (ready : Bool) : blockMove ready s = accept i rest s := by
  simp [blockMove, hs, hd]

theorem blockMove_wait {s : State} (hs : s.seq = .idle) (hd : decode s.fifo = .wait) (ready : Bool) :
    blockMove ready s = s := by
  simp [blockMove, hs, hd]

/-- An idle block without a whole packet steps to itself (R31, log 13). -/
theorem step_wait {s : State} (hs : s.seq = .idle) (hw : s.waiting = none) (hp : s.plan = [])
    (hd : decode s.fifo = .wait) : step s = .next s := by
  simp [step, nextMove, settleWaiting_none hw, hp, quietMove, hs, hd]

/-- The accepted state, with no CMD write waiting (R31). -/
theorem accept_eq {s : State} {i : Instr} {rest : List Word} (hw : s.waiting = none)
    (hd : decode s.fifo = .packet i rest) :
    accept i rest s =
      { s with
        fifo := rest, latch := i, seq := .exec (startWork s.cfg i)
        raced := s.raced.filterMap (RaceMark.afterPacket (encode i).length) } := by
  simp [accept, hw, (packet_shorter hd).2]

/-- Settles O8: the packet's length is the encoder's, so the race marks age by it. -/
theorem stepRunsDecodedPacket : Obligations.StepRunsDecodedPacket := by
  intro s i rest hs hw hd
  refine ⟨fun hp => step_packet (settleWaiting_none hw) hp hs hd, blockMove_packet hs hd, fun ready p hp => ?_,
    accept_eq hw hd⟩
  rw [step_turn hw hp]
  exact congrArg _ (blockMove_packet (s := { s with plan := p }) hs hd ready)

/-- BUSY of an idle block: the FIFO holds a word (R24). -/
theorem busy_idle {s : State} (hs : s.seq = .idle) : busy s = true ↔ s.fifo ≠ [] := by
  simp [busy, halted, hs, List.length_pos_iff]

/-- Settles O9: the sequencer has nothing to take. -/
theorem packetPrefixWaits : Obligations.PacketPrefixWaits := fun _ hs hw hp hd =>
  ⟨step_wait hs hw hp hd, blockMove_wait hs hd, busy_idle hs⟩

/-! ### STATUS -/

/-- BUSY, in any sequencer state (R24). -/
theorem busy_iff (s : State) : busy s = true ↔ s.seq ≠ .halted ∧ (s.seq ≠ .idle ∨ 0 < s.fifo.length) := by
  simp [busy, halted]

/-- Bit 8 and the fault code, above the four lowest bits of STATUS (R23). -/
def statusUpper (s : State) : BitVec 28 := 0#23 ++ BitVec.ofBool s.lookup.found ++ faultField s

theorem status_eq (s : State) : status s =
    ((((statusUpper s).concat (halted s)).concat (fifoEmpty s)).concat (fifoFull s)).concat (busy s) := rfl

/-- The four lowest bits of STATUS (R23). -/
theorem status_lowBits (s : State) : (status s).getLsbD 0 = busy s ∧ (status s).getLsbD 1 = fifoFull s ∧
    (status s).getLsbD 2 = fifoEmpty s ∧ (status s).getLsbD 3 = halted s := by
  simp only [status_eq, BitVec.getLsbD_concat_zero, BitVec.getLsbD_concat_succ, and_self]

theorem status_extract (s : State) (k l : Nat) :
    (status s).extractLsb' (4 + k) l = (statusUpper s).extractLsb' k l := by
  ext i hi
  simp only [status_eq, BitVec.getElem_extractLsb', show 4 + k + i = k + i + 1 + 1 + 1 + 1 by omega,
    BitVec.getLsbD_concat_succ]

/-- STATUS[7:4] (R23). -/
theorem status_faultField (s : State) : (status s).extractLsb' 4 4 = faultField s :=
  (status_extract s 0 4).trans ((extract_append_right _ (faultField s) (by decide)).trans (extract_whole _))

/-- STATUS[8] (R23). -/
theorem status_found (s : State) : (status s).getLsbD 8 = s.lookup.found := by
  have hbit : (statusUpper s).getLsbD 4 = ((0#23).concat s.lookup.found).getLsbD 0 :=
    BitVec.getLsbD_append (y := faultField s)
  simp only [status_eq, BitVec.getLsbD_concat_succ, hbit, BitVec.getLsbD_concat_zero]

/-- STATUS[31:9] (R23). -/
theorem status_high (s : State) : (status s).extractLsb' 9 23 = 0 :=
  (status_extract s 5 23).trans ((extract_append_left _ (faultField s) 1 23).trans
    ((extract_append_left 0#23 (BitVec.ofBool s.lookup.found) 0 23).trans (extract_whole _)))

/-- Settles O47, field by field from the lowest bit up. -/
theorem statusFields : Obligations.StatusFields := by
  intro s
  obtain ⟨hbusy, hfull, hempty, hhalted⟩ := status_lowBits s
  rw [hbusy, hfull, hempty, hhalted, status_faultField]
  exact ⟨busy_iff s, by simp [fifoFull], by simp [fifoEmpty], by simp [halted], by simp [faultField, halted],
    status_found s, status_high s⟩

/-! ### The two resets -/

/-- STATUS of an idle block with an empty FIFO that has found no glyph (R40). -/
theorem status_reset {s : State} (hc : s.cfg.wf = true) (hf : s.fifo = []) (hs : s.seq = .idle)
    (hl : s.lookup.found = false) : status s = 0x00000004 := by
  have hd : s.cfg.depth ≠ 0 := by
    simp only [Config.wf, Bool.and_eq_true, decide_eq_true_eq] at hc
    omega
  have hfull : fifoFull s = false := by simp [fifoFull, hf, hd.symm]
  have hbusy : busy s = false := by simp [busy, hs, hf]
  have hhalted : halted s = false := by simp [halted, hs]
  simp [status, hfull, hbusy, fifoEmpty, faultField, hhalted, hf, hl]

/-- Settles O53: either way in, the state is that of `resetBlock_eq`, whatever CMD write still waits. -/
theorem resetValues : Obligations.ResetValues := by
  intro s p hc hin
  have hstep : ∃ w n, step s = .next { resetBlock { s with plan := p } with waiting := w, draws := n } := by
    rcases hin with ⟨hp, hw⟩ | ⟨v, hv, hw, hp⟩
    · have hn : settleWaiting s = none := hw.elim settleWaiting_none fun h => settleWaiting_full h.1 h.2
      obtain ⟨w, n, h⟩ := hardReset_eq { s with plan := p }
      exact ⟨w, n, by rw [step_takeTurn hn hp, takeTurn, h]⟩
    · exact ⟨_, _, by rw [step_ctrlWrite hc hw hp, if_pos hv]⟩
  obtain ⟨w, n, hstep⟩ := hstep
  rw [resetBlock_eq] at hstep
  exact ⟨_, hstep, rfl, rfl, rfl, rfl, rfl, rfl, rfl, status_reset hc rfl rfl rfl, rfl, rfl, rfl, rfl,
    fun hw hp => step_wait rfl hw hp rfl⟩

/-! ### What no command changes -/

/-- A command that changes the stream and the lines alone, completed. -/
theorem complete_frame {s t : State} (h : ∃ o d e, t = { s with out := s.out ++ o, cs := d, dc := e }) :
    ∃ o d e, complete t = { s with out := s.out ++ o, cs := d, dc := e, seq := .idle } := by
  obtain ⟨o, d, e, rfl⟩ := h
  exact ⟨o, d, e, rfl⟩

/-- A drawing command but DRAW_TEXT changes the stream, the lines and the sequencer alone (R240). -/
theorem exec_draw_frame {i : Instr} {s t : State} (hl : ∀ ch tb, i ≠ .lookupGlyph ch tb)
    (ha : ∀ a, i ≠ .drawText a) (h : exec i s = .next t) :
    ∃ o d e, t = { s with out := s.out ++ o, cs := d, dc := e, seq := .idle } := by
  cases i with
  | nop => cases h; exact complete_frame ⟨[], s.cs, s.dc, by simp⟩
  | fill color => cases h; exact complete_frame (windowTx_frame _ _ s)
  | drawPixel x y color => cases h; exact complete_frame (drawWindow_frame _ _ s)
  | drawHLine x y w color => cases h; exact complete_frame (drawWindow_frame _ _ s)
  | drawVLine x y w color => cases h; exact complete_frame (drawWindow_frame _ _ s)
  | drawLine x0 y0 x1 y1 color => cases h; exact complete_frame (drawLine_frame _ _ _ _ _ s)
  | drawRect x y w h' color => cases h; exact complete_frame (windowTx_frame _ _ s)
  | drawText a => exact absurd rfl (ha a)
  | lookupGlyph ch tb => exact absurd rfl (hl ch tb)

/-- DRAW_TEXT writes RESULT_X unless it faults, and faults with code 2 or 3 (R213, R246, R247). -/
theorem drawText_frame (a : TextArgs) (s : State) :
    ∃ o d e k x c q, drawText a s =
        { s with out := s.out ++ o, cs := d, dc := e, draws := k, resultX := x, faultCode := c, seq := q } ∧
      (q = .halted → x = s.resultX ∧ (c = 2 ∨ c = 3)) ∧ (q ≠ .halted → c = s.faultCode) := by
  unfold drawText
  split
  · obtain ⟨o, d, h⟩ := raiseFault_frame fontFormatCode s
    exact ⟨o, d, s.dc, s.draws, s.resultX, fontFormatCode, .halted, h, fun _ => ⟨rfl, .inr rfl⟩,
      fun hn => absurd rfl hn⟩
  · rcases textLoop_frame a textBurst a.text (cursorOf (sext16 a.x)) s with
      ⟨o, d, e, k, w, h⟩ | ⟨o, d, e, k, x, h⟩ | ⟨o, d, e, k, h⟩
    · exact ⟨o, d, e, k, s.resultX, s.faultCode, .exec w, h, by simp, fun _ => rfl⟩
    · exact ⟨o, d, e, k, x, s.faultCode, .idle, h, by simp, fun _ => rfl⟩
    · exact ⟨o, d, e, k, s.resultX, 2, .halted, h, fun _ => ⟨rfl, .inl rfl⟩, fun hn => absurd rfl hn⟩

/-- What a command may change, and which one (R25, R26, R35, R36). -/
theorem exec_frame {i : Instr} {s t : State} (h : exec i s = .next t) :
    ∃ o d e k l x c q,
      t = { s with
        out := s.out ++ o, cs := d, dc := e, draws := k, lookup := l, resultX := x, faultCode := c, seq := q } ∧
      ((∀ ch tb, i ≠ .lookupGlyph ch tb) → l = s.lookup) ∧
      ((∀ a, i ≠ .drawText a) → x = s.resultX ∧ k = s.draws ∧ q = .idle ∧ c = s.faultCode) ∧
      (q = .halted → x = s.resultX ∧ (c = 2 ∨ c = 3)) ∧ (q ≠ .halted → c = s.faultCode) := by
  by_cases hl : ∃ ch tb, i = .lookupGlyph ch tb
  · obtain ⟨ch, tb, rfl⟩ := hl
    cases h
    exact ⟨[], s.cs, s.dc, s.draws, lookupResult (lookupGlyph tb ch), s.resultX, s.faultCode, .idle,
      by simp [complete], fun hn => absurd rfl (hn ch tb), fun _ => ⟨rfl, rfl, rfl, rfl⟩, by simp, fun _ => rfl⟩
  · by_cases ha : ∃ a, i = .drawText a
    · obtain ⟨a, rfl⟩ := ha
      obtain ⟨o, d, e, k, x, c, q, ht, hhalt, hrun⟩ := drawText_frame a s
      refine ⟨o, d, e, k, s.lookup, x, c, q, ?_, fun _ => rfl, fun hn => absurd rfl (hn a), hhalt, hrun⟩
      exact (Host.Outcome.next.inj h).symm.trans ht
    · push Not at hl ha
      obtain ⟨o, d, e, ht⟩ := exec_draw_frame hl ha h
      exact ⟨o, d, e, s.draws, s.lookup, s.resultX, s.faultCode, .idle, ht, fun _ => rfl,
        fun _ => ⟨rfl, rfl, rfl, rfl⟩, by simp, fun _ => rfl⟩

/-- Settles O43: the fields that `exec_frame` does not name are unchanged. -/
theorem commandFrame : Obligations.CommandFrame := by
  intro i s t h
  obtain ⟨o, d, e, k, l, x, c, q, rfl, hlookup, htext, hhalt, hrun⟩ := exec_frame h
  exact ⟨rfl, rfl, rfl, rfl, rfl, rfl, rfl, rfl, rfl, List.prefix_append _ _, hlookup, htext, hhalt, hrun⟩

end Sys2Proof.Machine

/-! SUPPORT. Proofs of the statements of spec/20_memory.md: host writes to source memory and the commands they race,
and narrow accesses to the register window. -/

namespace Sys2Proof.Machine

/-! ### Narrow accesses -/

/-- Settles O52: the address is inside the window, so the second test of the access decides. -/
theorem narrowAccessRefused : Obligations.NarrowAccessRefused := by
  intro s addr width v hlo hhi hnarrow
  have hin : ¬¬(s.cfg.base ≤ addr ∧ addr < s.cfg.base + 32) := not_not.2 ⟨hlo, hhi⟩
  have hbad : ¬(width = .word ∧ addr % 4 = 0) := by rwa [not_and_or]
  exact ⟨by rw [hostAccess, if_neg hin, if_pos hbad], by rw [hostAccess, if_neg hin, if_pos hbad]⟩

/-! ### What a step of the undisturbed block leaves unchanged -/

/-- One state comes from another by a command's doing: parameters, FIFO, latch, source memory, race marks and the
environment's fields are the same. -/
def CommandChanges (s t : State) : Prop :=
  ∃ o d e k l x c q, t = { s with
    out := o, cs := d, dc := e, draws := k, lookup := l, resultX := x, faultCode := c, seq := q }

theorem CommandChanges.refl (s : State) : CommandChanges s s := ⟨_, _, _, _, _, _, _, _, rfl⟩

theorem finishCommand_changes (s : State) : CommandChanges s (finishCommand s) := by
  unfold finishCommand
  split <;> exact ⟨_, _, _, _, _, _, _, _, rfl⟩

theorem raiseFault_changes (code : BitVec 4) (s : State) : CommandChanges s (raiseFault code s) := by
  obtain ⟨o, d, h⟩ := raiseFault_frame code s
  exact ⟨_, _, _, _, _, _, _, _, h⟩

theorem advanceTx_changes (ready : Bool) (w : Work) (t : Tx) (s : State) :
    CommandChanges s (advanceTx ready w t s) := by
  unfold advanceTx
  split
  case h_1 => exact ⟨_, _, _, _, _, _, _, _, rfl⟩
  case h_2 =>
    split
    · split
      · exact ⟨_, _, _, _, _, _, _, _, rfl⟩
      · split
        · exact ⟨_, _, _, _, _, _, _, _, rfl⟩
        · exact .refl s
    · split
      · exact ⟨_, _, _, _, _, _, _, _, rfl⟩
      · exact .refl s
    · exact .refl s
  case h_3 =>
    split
    · exact ⟨_, _, _, _, _, _, _, _, rfl⟩
    · exact .refl s
  case h_4 =>
    split
    · exact ⟨_, _, _, _, _, _, _, _, rfl⟩
    · exact .refl s
  case h_5 => exact ⟨_, _, _, _, _, _, _, _, rfl⟩

theorem advanceText_changes (ready : Bool) (a : TextArgs) (pt : TextPoint) (s : State) :
    CommandChanges s (advanceText ready a pt s) := by
  cases pt with
  | start =>
    simp only [advanceText]
    split
    · exact raiseFault_changes _ s
    · exact ⟨_, _, _, _, _, _, _, _, rfl⟩
  | char p cx =>
    simp only [advanceText]
    split
    · split
      · exact raiseFault_changes _ s
      · rename_i h
        obtain ⟨n, rfl⟩ := memRead_frame h
        split
        · exact ⟨_, _, _, _, _, _, _, _, rfl⟩
        · split <;> exact ⟨_, _, _, _, _, _, _, _, rfl⟩
    · exact .refl s
  | row p cx ref row =>
    simp only [advanceText]
    split
    · exact ⟨_, _, _, _, _, _, _, _, rfl⟩
    · split
      · split
        · exact raiseFault_changes _ s
        · rename_i h
          obtain ⟨n, rfl⟩ := memRead_frame h
          exact ⟨_, _, _, _, _, _, _, _, rfl⟩
      · exact .refl s
  | col p cx ref row b col =>
    simp only [advanceText]
    split <;> exact ⟨_, _, _, _, _, _, _, _, rfl⟩

theorem advanceLine_changes (c : Half) (st : Stepper) (s : State) : CommandChanges s (advanceLine c st s) := by
  unfold advanceLine
  split
  · exact ⟨_, _, _, _, _, _, _, _, rfl⟩
  · exact finishCommand_changes s

/-- One step of a command leaves unchanged what the whole command does (R25, R26, R35, R36). -/
theorem advance_changes (ready : Bool) (s : State) : CommandChanges s (advance ready s) := by
  unfold advance
  split
  case h_1 => exact advanceTx_changes ready _ _ s
  case h_2 => exact finishCommand_changes s
  case h_3 => exact advanceLine_changes _ _ s
  case h_4 =>
    split
    · exact advanceText_changes ready _ _ s
    · exact .refl s
  case h_5 => exact .refl s
  case h_6 => exact .refl s

theorem exec_changes {i : Instr} {s t : State} (h : exec i s = .next t) : CommandChanges s t := by
  obtain ⟨_, _, _, _, _, _, _, _, rfl, -⟩ := exec_frame h
  exact ⟨_, _, _, _, _, _, _, _, rfl⟩

/-! ### The FIFO and the race marks of an undisturbed run -/

/-- Nothing in the environment disturbs the block: no turn is due and no CMD write waits. -/
def Undisturbed (s : State) : Prop := s.waiting = none ∧ s.plan = []

/-- The FIFO and the race marks are the same, and a halted block is still halted. -/
def SameQueue (s t : State) : Prop := t.fifo = s.fifo ∧ t.raced = s.raced ∧ (s.seq = .halted → t.seq = .halted)

/-- An idle block has removed the packet at the FIFO head, and the race marks have aged by it (R31, log 6). -/
def PacketTaken (s t : State) : Prop :=
  s.seq = .idle ∧ ∃ i rest, decode s.fifo = .packet i rest ∧ t.fifo = (accept i rest s).fifo ∧
    t.raced = (accept i rest s).raced

/-- The block has halted on the illegal header at the FIFO head, which it has removed (R245). -/
def HeaderRejected (s t : State) : Prop := t.fifo.length < s.fifo.length ∧ t.seq = .halted

/-- With no CMD write waiting the illegal header is removed before the fault. -/
theorem takeIllegal_eq {s : State} {rest : List Word} (hw : s.waiting = none) :
    takeIllegal rest s = raiseFault illegalOpcodeCode { s with fifo := rest } := by
  simp [takeIllegal, hw]

/-- What a step of the undisturbed block does to the FIFO and the race marks; it stays undisturbed. -/
theorem step_undisturbed {s t : State} (hq : Undisturbed s) (h : step s = .next t) :
    Undisturbed t ∧ (SameQueue s t ∨ PacketTaken s t ∨ HeaderRejected s t) := by
  obtain ⟨hw, hp⟩ := hq
  rcases step_cases h with hset | ⟨-, turn, rest, hplan, -⟩ | ⟨-, -, hs, i, rest, hd, he⟩ | ⟨-, -, hnone, rfl⟩
  · rw [settleWaiting_none hw] at hset; cases hset
  · rw [hp] at hplan; cases hplan
  · obtain ⟨_, _, _, _, _, _, _, _, rfl⟩ := exec_changes he
    exact ⟨⟨rfl, hp⟩, .inr (.inl ⟨hs, i, rest, hd, rfl, rfl⟩)⟩
  · cases hs : s.seq with
    | exec w =>
      rw [blockMove_exec hs]
      obtain ⟨_, _, _, _, _, _, _, _, ha⟩ := advance_changes true s
      rw [ha]
      exact ⟨⟨hw, hp⟩, .inl ⟨rfl, rfl, by simp [hs]⟩⟩
    | halted =>
      have hm : blockMove true s = s := by simp [blockMove, hs]
      rw [hm]
      exact ⟨⟨hw, hp⟩, .inl ⟨rfl, rfl, fun _ => hs⟩⟩
    | idle =>
      cases hd : decode s.fifo with
      | packet i rest => exact absurd hd (hnone hs i rest)
      | wait =>
        rw [blockMove_wait hs hd]
        exact ⟨⟨hw, hp⟩, .inl ⟨rfl, rfl, id⟩⟩
      | illegal rest =>
        have hm : blockMove true s = takeIllegal rest s := by simp [blockMove, hs, hd]
        obtain ⟨w0, hcons⟩ := decode_illegal_rest hd
        obtain ⟨o, d, hf⟩ := raiseFault_frame illegalOpcodeCode { s with fifo := rest }
        rw [hm, takeIllegal_eq hw, hf]
        exact ⟨⟨hw, hp⟩, .inr (.inr ⟨by simp [hcons], rfl⟩)⟩

/-- What every step from a state keeps holds of every state it runs to. -/
theorem stepMany_keeps {P : State → Prop} (hstep : ∀ {s t : State}, P s → step s = .next t → P t) {k : Nat}
    {s u : State} (hs : P s) (h : stepMany k s = some u) : P u := by
  induction k generalizing s with
  | zero => exact Option.some.inj h ▸ hs
  | succ k ih =>
    rw [stepMany] at h
    cases hk : step s with
    | next t => rw [hk] at h; exact ih (hstep hs hk) h
    | fault r => cases r
    | refused r => rw [hk] at h; cases h

/-! ### Race marks -/

theorem racing_iff {s : State} {a : Word} : racing s a = true ↔ ∃ m ∈ s.raced, m.addr = a := by
  simp [racing]

theorem racing_of_raced_eq {s t : State} (h : t.raced = s.raced) (a : Word) : racing t a = racing s a := by
  rw [racing, racing, h]

theorem RaceMark.afterPacket_eq_some {len : Nat} {m m' : RaceMark} :
    m.afterPacket len = some m' ↔ len ≤ m.words ∧ m' = ⟨m.addr, m.words - len⟩ := by
  unfold RaceMark.afterPacket
  split <;> simp_all [eq_comm]

/-- The marks that the packet taken leaves: those with all its words before them. -/
theorem mem_accept_raced {s : State} {i : Instr} {rest : List Word} {m' : RaceMark} :
    m' ∈ (accept i rest s).raced ↔ ∃ m ∈ s.raced, s.fifo.length - rest.length ≤ m.words ∧
      m' = ⟨m.addr, m.words - (s.fifo.length - rest.length)⟩ := by
  simp only [accept, List.mem_filterMap, RaceMark.afterPacket_eq_some]

/-- Every mark on `a` counts the FIFO's words but the last `n`, and there is one while the FIFO holds more than those.
So it is after a write of `a` that came before the last `n` words, and so it stays as packets are taken (log 6). -/
structure MarkedBefore (a : Word) (n : Nat) (s : State) : Prop where
  words_eq : ∀ m ∈ s.raced, m.addr = a → m.words + n = s.fifo.length
  marked : n < s.fifo.length → racing s a = true

theorem MarkedBefore.congr {a : Word} {n : Nat} {s t : State} (h : MarkedBefore a n s) (hf : t.fifo = s.fifo)
    (hr : t.raced = s.raced) : MarkedBefore a n t :=
  ⟨by rw [hf, hr]; exact h.words_eq, by rw [hf, racing_of_raced_eq hr]; exact h.marked⟩

/-- A packet taken races the write exactly if it leaves the last `n` words behind it (R64). -/
theorem MarkedBefore.racing_accept {a : Word} {n : Nat} {s : State} (h : MarkedBefore a n s) {i : Instr}
    {rest : List Word} (hd : decode s.fifo = .packet i rest) :
    racing (accept i rest s) a = true ↔ n ≤ rest.length := by
  have hshort := (packet_shorter hd).1
  rw [racing_iff]
  constructor
  · rintro ⟨m', hm', ha⟩
    obtain ⟨m, hm, hlen, rfl⟩ := mem_accept_raced.1 hm'
    have := h.words_eq m hm ha
    omega
  · intro hn
    obtain ⟨m, hm, ha⟩ := racing_iff.1 (h.marked (by omega))
    have := h.words_eq m hm ha
    exact ⟨_, mem_accept_raced.2 ⟨m, hm, by omega, rfl⟩, ha⟩

theorem MarkedBefore.after_accept {a : Word} {n : Nat} {s : State} (h : MarkedBefore a n s) (hw : s.waiting = none)
    {i : Instr} {rest : List Word} (hd : decode s.fifo = .packet i rest) : MarkedBefore a n (accept i rest s) := by
  have hshort := (packet_shorter hd).1
  have hfifo : (accept i rest s).fifo = rest := by rw [accept_eq hw hd]
  constructor
  · intro m' hm' ha
    obtain ⟨m, hm, hlen, rfl⟩ := mem_accept_raced.1 hm'
    have := h.words_eq m hm ha
    rw [hfifo]
    dsimp only
    omega
  · intro hn
    rw [hfifo] at hn
    exact (h.racing_accept hd).2 hn.le

/-! ### A host write to source memory -/

theorem srcWrite_raced_busy {a : Word} {b : Byte} {s : State} (h : busy s = true) :
    (srcWrite a b s).raced = s.raced ++ [⟨a, s.fifo.length⟩] := by
  simp [srcWrite, h]

theorem srcWrite_raced_not_busy {a : Word} {b : Byte} {s : State} (h : busy s = false) :
    (srcWrite a b s).raced = s.raced := by
  simp [srcWrite, h]

theorem racing_srcWrite {a : Word} {b : Byte} {s : State} (h : busy s = true) : racing (srcWrite a b s) a = true :=
  racing_iff.2 ⟨⟨a, s.fifo.length⟩, by simp [srcWrite_raced_busy h], rfl⟩

/-- The one mark on a byte that was not raced is the write's, and with no command queued or running there is none. -/
theorem srcWrite_markedBefore {a : Word} {b : Byte} {s : State} (hs : s.seq ≠ .halted) (hr : racing s a = false)
    (ws : List Word) : MarkedBefore a ws.length { srcWrite a b s with fifo := s.fifo ++ ws } := by
  have hold : ∀ m ∈ s.raced, m.addr ≠ a := fun m hm ha => by
    rw [racing_iff.2 ⟨m, hm, ha⟩] at hr
    cases hr
  cases hb : busy s with
  | true =>
    refine ⟨fun m hm ha => ?_, fun _ => racing_srcWrite (b := b) hb⟩
    have hm : m ∈ s.raced ++ [⟨a, s.fifo.length⟩] := srcWrite_raced_busy (b := b) hb ▸ hm
    rcases List.mem_append.1 hm with hm | hm
    · exact absurd ha (hold m hm)
    · rw [List.mem_singleton.1 hm, List.length_append]
  | false =>
    have hempty : s.fifo.length = 0 := by
      by_contra hne
      have := (busy_iff s).2 ⟨hs, .inr (Nat.pos_of_ne_zero hne)⟩
      rw [hb] at this
      cases this
    refine ⟨fun m hm ha => absurd ha (hold m ?_), fun hn => ?_⟩
    · exact srcWrite_raced_not_busy (b := b) hb ▸ hm
    · simp [hempty] at hn

/-- What holds of `u` as the undisturbed block runs on from `s`, in which a write of `a` has come before the last `n`
words of the FIFO. -/
structure RunsAfterWrite (a : Word) (n : Nat) (s u : State) : Prop where
  undisturbed : Undisturbed u
  /-- Until something is taken from the FIFO the marks stand as they were. -/
  taken : u.fifo.length < s.fifo.length ∨ (u.fifo = s.fifo ∧ u.raced = s.raced)
  marks : u.seq = .halted ∨ MarkedBefore a n u

theorem RunsAfterWrite.step {a : Word} {n : Nat} {s u v : State} (h : RunsAfterWrite a n s u)
    (hv : step u = .next v) : RunsAfterWrite a n s v := by
  obtain ⟨hq, hcase⟩ := step_undisturbed h.undisturbed hv
  have hle : u.fifo.length ≤ s.fifo.length := by
    rcases h.taken with hlt | ⟨he, -⟩
    · exact hlt.le
    · rw [he]
  rcases hcase with ⟨hf, hr, hhalt⟩ | ⟨hs, i, rest, hd, hf, hr⟩ | ⟨hlt, hhalt⟩
  · exact ⟨hq, by rw [hf, hr]; exact h.taken, h.marks.imp hhalt (·.congr hf hr)⟩
  · have hfifo : v.fifo = rest := by rw [hf, accept_eq h.undisturbed.1 hd]
    have hshort := (packet_shorter hd).1
    have hmarks : MarkedBefore a n u := h.marks.resolve_left (by simp [hs])
    exact ⟨hq, .inl (by rw [hfifo]; omega), .inr ((hmarks.after_accept h.undisturbed.1 hd).congr hf hr)⟩
  · exact ⟨hq, .inl (by omega), .inl hhalt⟩

/-- The write itself, the words `ws` having come after it. -/
theorem RunsAfterWrite.start {a : Word} {b : Byte} {s : State} (hw : s.waiting = none) (hp : s.plan = [])
    (hr : racing s a = false) (ws : List Word) :
    RunsAfterWrite a ws.length { srcWrite a b s with fifo := s.fifo ++ ws }
      { srcWrite a b s with fifo := s.fifo ++ ws } where
  undisturbed := ⟨hw, hp⟩
  taken := .inr ⟨rfl, rfl⟩
  marks := (em (s.seq = .halted)).imp id fun hs => srcWrite_markedBefore hs hr ws

/-- Settles O45: the memory laws for the byte, and for the run what `RunsAfterWrite` says of every state it reaches. -/
theorem hostSourceWrites : Obligations.HostSourceWrites := by
  intro a b s hm
  refine ⟨Memory.read_write_same_from hm, fun a' hne => Memory.read_write_other s.mem b (BitVec.toNat_ne.1 hne),
    srcWrite_raced_not_busy, racing_srcWrite, fun p hp hw => ?_, fun ws k u hw hp hr hk => ?_⟩
  · have hn : settleWaiting s = none := hw.elim settleWaiting_none fun h => settleWaiting_full h.1 h.2
    rw [step_takeTurn hn hp, takeTurn]
  · have hrun := stepMany_keeps RunsAfterWrite.step (RunsAfterWrite.start hw hp hr ws) hk
    refine ⟨fun hb hf => ?_, fun i rest hs hd => ?_⟩
    · have hraced : u.raced = (srcWrite a b s).raced := by
        rcases hrun.taken with hlt | ⟨-, he⟩
        · rw [hf] at hlt
          exact absurd hlt (Nat.lt_irrefl _)
        · exact he
      rw [racing_of_raced_eq hraced]
      exact racing_srcWrite hb
    · have hmarks := hrun.marks.resolve_left (by simp [hs])
      exact hmarks.racing_accept hd

end Sys2Proof.Machine

/-! SUPPORT. Proofs of the statements of spec/30_encoding.md: decoding undoes encoding, encoding undoes decoding up to
the ignored bits, the header alone decides the packet's length, and what the assembler makes. -/

namespace Sys2Proof.Machine

/-! ### A word from its fields -/

@[simp] theorem ofHalves_halves (w : Word) : ofHalves (half1 w) (half0 w) = w :=
  (BitVec.extractLsb'_append_extractLsb'_eq_extractLsb' rfl).trans (extract_whole w)

theorem byte3_append_byte2 (w : Word) : byte3 w ++ byte2 w = half1 w :=
  BitVec.extractLsb'_append_extractLsb'_eq_extractLsb' rfl

@[simp] theorem ofBytes_bytes (w : Word) : ofBytes (byte3 w) (byte2 w) (byte1 w) (byte0 w) = w := by
  have hupper : byte3 w ++ byte2 w ++ byte1 w = w.extractLsb' 8 24 := by
    rw [byte3_append_byte2]
    exact BitVec.extractLsb'_append_extractLsb'_eq_extractLsb' rfl
  rw [ofBytes, hupper]
  exact (BitVec.extractLsb'_append_extractLsb'_eq_extractLsb' rfl).trans (extract_whole w)

/-! ### A word with its ignored bits cleared (R82) -/

/-- A mask acts on the two halves of a word apart. -/
theorem and_ofHalves (w : Word) (c d : Half) : w &&& ofHalves c d = ofHalves (half1 w &&& c) (half0 w &&& d) := by
  have h : ofHalves (half1 w) (half0 w) &&& ofHalves c d = ofHalves (half1 w &&& c) (half0 w &&& d) := BitVec.and_append
  rwa [ofHalves_halves] at h

/-- Of the upper half of a word, the mask that ignores its lower byte leaves byte 3. -/
theorem half1_and_upperByte (w : Word) : half1 w &&& 0xFF00 = byte3 w ++ 0#8 := by
  have h : (byte3 w ++ byte2 w) &&& (BitVec.allOnes 8 ++ 0#8) = (byte3 w &&& BitVec.allOnes 8) ++ (byte2 w &&& 0#8) :=
    BitVec.and_append
  rwa [BitVec.and_allOnes, BitVec.and_zero, byte3_append_byte2] at h

@[simp] theorem and_highHalf (w : Word) : w &&& 0xFFFF0000#32 = ofHalves (half1 w) 0#16 := by
  rw [show 0xFFFF0000#32 = ofHalves (BitVec.allOnes 16) 0#16 from rfl, and_ofHalves, BitVec.and_allOnes,
    BitVec.and_zero]

@[simp] theorem and_lowHalf (w : Word) : w &&& 0x0000FFFF#32 = ofHalves 0#16 (half0 w) := by
  rw [show 0x0000FFFF#32 = ofHalves 0#16 (BitVec.allOnes 16) from rfl, and_ofHalves, BitVec.and_allOnes,
    BitVec.and_zero]

/-- Byte 2 alone is ignored: the headers of R74-R77 and the last words of R78 and R79. -/
@[simp] theorem and_ignoringByte2 (w : Word) : w &&& 0xFF00FFFF#32 = ofByteHalf (byte3 w) (half0 w) := by
  rw [show 0xFF00FFFF#32 = ofHalves 0xFF00 (BitVec.allOnes 16) from rfl, and_ofHalves, BitVec.and_allOnes,
    half1_and_upperByte]
  rfl

/-- The opcode alone is kept: the header of NOP (R73) and the masks of the opcode map (R84). -/
@[simp] theorem and_opcodeMask (w : Word) : w &&& 0xFF000000#32 = ofByteHalf (byte3 w) 0#16 := by
  rw [show 0xFF000000#32 = ofHalves 0xFF00 0#16 from rfl, and_ofHalves, BitVec.and_zero, half1_and_upperByte]
  rfl

@[simp] theorem and_everyBit (w : Word) : w &&& 0xFFFFFFFF#32 = w := BitVec.and_allOnes

/-! ### Decoding what was encoded, and encoding what was decoded -/

/-- Settles O1: each field of a word put together is the operand it was put together from. -/
theorem decodeOfEncode : Obligations.DecodeOfEncode := by
  intro i rest
  cases i <;> simp [encode, decode, decodeAfter, decode2, decode3, decode6, Instr.opc]

/-- The encoder's words are the packet's but for ignored bits: all that is not ignored is a field of the instruction. -/
theorem encode_eq_clearIgnored {w0 : Word} {ps rest : List Word} {i : Instr}
    (h : decode (w0 :: (ps ++ rest)) = .packet i rest) (hlen : ps.length + 1 = (encode i).length) :
    encode i = clearIgnored i (w0 :: ps) := by
  have hopc : byte3 w0 = i.opc := (decode_packet_opc h).1
  simp only [decode, decodeAfter, hopc] at h
  cases i with
  | nop | fill =>
    match ps, hlen with
    | [], _ => cases h; simp [encode, clearIgnored, usedBits, hopc]
  | drawPixel =>
    match ps, hlen with
    | [_], _ => cases h; simp [encode, clearIgnored, usedBits, hopc]
  | drawHLine | drawVLine | drawLine | drawRect =>
    match ps, hlen with
    | [_, _], _ => cases h; simp [encode, clearIgnored, usedBits, hopc]
  | drawText =>
    match ps, hlen with
    | [_, _, _, _, _], _ => cases h; simp [encode, clearIgnored, usedBits, ← hopc]
  | lookupGlyph =>
    match ps, hlen with
    | [_, _], _ => cases h; simp [encode, clearIgnored, usedBits, ← hopc]

/-- Settles O2: the packet is the header and the words its length takes. -/
theorem encodeOfDecodeClearsIgnoredBits : Obligations.EncodeOfDecodeClearsIgnoredBits := by
  intro ws rest i h
  cases ws with
  | nil => cases h
  | cons w0 ws =>
    obtain ⟨-, ps, rfl, hlen⟩ := decode_packet_opc h
    exact ⟨w0 :: ps, rfl, hlen, encode_eq_clearIgnored h hlen⟩

/-- Settles O3: the packet with its ignored bits cleared is the encoder's, which decodes to the instruction. -/
theorem ignoredBitsChangeNothing : Obligations.IgnoredBitsChangeNothing := by
  intro ps rest i h
  obtain ⟨ps', hps, -, henc⟩ := encodeOfDecodeClearsIgnoredBits _ _ _ h
  rw [List.append_cancel_right hps, ← henc]
  exact decodeOfEncode i rest

/-! ### The header decides the packet's length (R80, R83) -/

/-- An opcode is illegal if no row of the opcode map has it, and the rows are those up to 0x08 (R72, R80). -/
theorem packetLen_eq_none_iff (opc : Byte) : packetLen opc = none ↔ 0x09 ≤ opc.toNat := by
  have hrows : packetLen opc = none ↔ ∀ r ∈ opcodeMap, r.opc.toNat ≠ opc.toNat := by
    simp [packetLen, List.find?_eq_none, BitVec.toNat_inj]
  have hopcs : (∀ r ∈ opcodeMap, r.opc.toNat ≠ opc.toNat) ↔ 0x09 ≤ opc.toNat := by
    simp [opcodeMap]
    omega
  exact hrows.trans hopcs

/-- The answer for a packet that has `n` words after its header, `ws` being those that are there. -/
def AnswersByLength (n : Nat) (ws : List Word) (d : Decoded) : Prop :=
  (ws.length < n → d = .wait) ∧ (n ≤ ws.length → ∃ i, d = .packet i (ws.drop n))

theorem packet_answersByLength (i : Instr) (ws : List Word) : AnswersByLength 0 ws (.packet i ws) :=
  ⟨fun h => absurd h (Nat.not_lt_zero _), fun _ => ⟨i, rfl⟩⟩

theorem decode2_answersByLength (f : Word → Instr) : ∀ ws, AnswersByLength 1 ws (decode2 f ws)
  | [] => ⟨fun _ => rfl, fun h => by simp at h⟩
  | _ :: _ => ⟨fun h => by simp at h, fun _ => ⟨_, rfl⟩⟩

theorem decode3_answersByLength (f : Word → Word → Instr) : ∀ ws, AnswersByLength 2 ws (decode3 f ws)
  | [] | [_] => ⟨fun _ => rfl, fun h => by simp at h⟩
  | _ :: _ :: _ => ⟨fun h => by simp at h, fun _ => ⟨_, rfl⟩⟩

theorem decode6_answersByLength (f : Word → Word → Word → Word → Word → Instr) :
    ∀ ws, AnswersByLength 5 ws (decode6 f ws)
  | [] | [_] | [_, _] | [_, _, _] | [_, _, _, _] => ⟨fun _ => rfl, fun h => by simp at h⟩
  | _ :: _ :: _ :: _ :: _ :: _ => ⟨fun h => by simp at h; omega, fun _ => ⟨_, rfl⟩⟩

/-- What the decoder can answer to a header: it refuses an opcode of 0x09 or more, and otherwise goes by the length. -/
theorem decode_cons (w0 : Word) (ws : List Word) :
    (0x09 ≤ (byte3 w0).toNat ∧ decode (w0 :: ws) = .illegal ws) ∨
      ∃ n, packetLen (byte3 w0) = some (n + 1) ∧ AnswersByLength n ws (decode (w0 :: ws)) := by
  have hlen {k n : Nat} (hk : (byte3 w0).toNat = k) (hn : packetLen (BitVec.ofNat 8 k) = some n) :
      packetLen (byte3 w0) = some n := by
    rwa [← hk, BitVec.ofNat_toNat, BitVec.setWidth_eq] at hn
  simp only [decode, decodeAfter]
  split
  case h_1 e | h_2 e => exact .inr ⟨0, hlen e rfl, packet_answersByLength _ ws⟩
  case h_3 e => exact .inr ⟨1, hlen e rfl, decode2_answersByLength _ ws⟩
  case h_4 e | h_5 e | h_6 e | h_7 e | h_9 e => exact .inr ⟨2, hlen e rfl, decode3_answersByLength _ ws⟩
  case h_8 e => exact .inr ⟨5, hlen e rfl, decode6_answersByLength _ ws⟩
  case h_10 =>
    have hopc : 0x09 ≤ (byte3 w0).toNat := by simp only [imp_false] at *; omega
    exact .inl ⟨hopc, rfl⟩

/-- Settles O4: a packet's opcode is that of its header. -/
theorem decodeByOpcodeAndLength : Obligations.DecodeByOpcodeAndLength := by
  refine ⟨rfl, fun w0 ws => ⟨packetLen_eq_none_iff _, ?_⟩⟩
  rcases decode_cons w0 ws with ⟨hopc, hd⟩ | ⟨n, hlen, hwait, hpacket⟩
  · have hnone := (packetLen_eq_none_iff _).2 hopc
    exact ⟨fun _ => hd, fun n hn => by simp [hnone] at hn⟩
  · refine ⟨fun hnone => by simp [hnone] at hlen, fun m hm => ?_⟩
    obtain rfl : n + 1 = m := Option.some.inj (hlen.symm.trans hm)
    refine ⟨fun hlt => hwait (Nat.lt_of_succ_lt_succ hlt), fun hle => ?_⟩
    obtain ⟨i, hd⟩ := hpacket (Nat.le_of_succ_le_succ hle)
    exact ⟨i, (decode_packet_opc hd).1.symm, hd⟩

/-! ### The opcode map (R84) -/

theorem matchValue_eq (r : OpcodeRow) : r.matchValue = ofByteHalf r.opc 0#16 := by
  ext i hi
  rw [← BitVec.getLsbD_eq_getElem, ← BitVec.getLsbD_eq_getElem, getLsbD_ofByteHalf]
  by_cases h : i < 24
  · simp [OpcodeRow.matchValue, h]
  · simp [OpcodeRow.matchValue, h, hi, show ¬i < 16 by omega]

/-- The mask leaves the word's opcode, and the match value is the row's (R84). -/
theorem selects_iff (r : OpcodeRow) (w0 : Word) : r.selects w0 = true ↔ byte3 w0 = r.opc := by
  rw [OpcodeRow.selects, beq_iff_eq, matchValue_eq, show w0 &&& r.mask = _ from and_opcodeMask w0]
  exact ⟨fun h => by simpa using congrArg byte3 h, fun h => by rw [h]⟩

theorem packetLen_of_mem_opcodeMap : ∀ r ∈ opcodeMap, packetLen r.opc = some r.len := by decide

/-- Settles O5: a selected word has the row's opcode, whose length the map finds in that row. -/
theorem opcodeRowsSelectByMask : Obligations.OpcodeRowsSelectByMask := fun w0 r hr =>
  ⟨selects_iff r w0, fun hs => (selects_iff r w0).1 hs ▸ packetLen_of_mem_opcodeMap r hr⟩

/-! ### The assembler (R85) -/

/-- A number in the range `0..m` of a field of `w` bits reads back as written (R85). -/
theorem toNat_ofInt_of_inRange {w : Nat} {m n : Int} (hm : m < (2 : Int) ^ w) (h : decide (0 ≤ n ∧ n ≤ m) = true) :
    ((BitVec.ofInt w n).toNat : Int) = n := by
  obtain ⟨h0, hn⟩ := of_decide_eq_true h
  have hmod : n % ((2 ^ w : Nat) : Int) = n := Int.emod_eq_of_lt h0 (by exact_mod_cast hn.trans_lt hm)
  rw [BitVec.toNat_ofInt, hmod, Int.toNat_of_nonneg h0]

theorem assemble_of_wellFormed {l : AsmLine} (h : l.wellFormed = true) : assemble l = some (encode l.instr) :=
  if_pos h

/-- The number is taken modulo 65536 and read back as signed (R81, R85, log 17). -/
theorem sext16_half {n : Int} (h : Asm.coordOk n = true) :
    sext16 (Asm.half n) = if n ≤ 32767 then n else n - 65536 := by
  have hn : -32768 ≤ n ∧ n ≤ 65535 := of_decide_eq_true h
  rw [sext16, Asm.half, BitVec.toInt_ofInt, Int.bmod_def]
  split <;> split <;> omega

/-- Settles O7: the words of a line in range are its encoding, and a number in the range of its field is kept. -/
theorem assemblerRanges : Obligations.AssemblerRanges :=
  ⟨fun l => ⟨by simp [assemble], fun hl rest => ⟨_, assemble_of_wellFormed hl, decodeOfEncode _ rest⟩⟩,
   fun _ => sext16_half,
   fun _ => toNat_ofInt_of_inRange (w := 16) (m := 0xFFFF) (by decide),
   fun _ => toNat_ofInt_of_inRange (w := 8) (m := 0xFF) (by decide),
   fun _ => toNat_ofInt_of_inRange (w := 32) (m := 0xFFFFFFFF) (by decide)⟩

/-- A text that is a line with operands in range has the words the decoder reads as its instruction. -/
theorem workedLine {cs : List Char} {l : AsmLine} {ws : List Word}
    (h : Asm.parseLine cs = some l ∧ l.wellFormed = true ∧ encode l.instr = ws) :
    decode ws = .packet l.instr [] ∧ assembleText cs = some ws := by
  obtain ⟨hparse, hl, rfl⟩ := h
  refine ⟨?_, by rw [assembleText, hparse]; exact assemble_of_wellFormed hl⟩
  simpa using decodeOfEncode l.instr []

/-- Settles O6: each text is a line in range, and the printed words are its encoding. -/
theorem workedEncodings : Obligations.WorkedEncodings :=
  ⟨workedLine (l := .nop) (by decide),
   workedLine (l := .fill 0) (by decide),
   workedLine (l := .drawPixel 10 20 0xF800) (by decide),
   workedLine (l := .drawHLine 235 7 10 0x07E0) (by decide),
   workedLine (l := .drawVLine 3 300 50 0x001F) (by decide),
   workedLine (l := .drawLine 0 0 10 5 0xFFFF) (by decide),
   workedLine (l := (.drawRect (-1) 0 5 5 0x001F : AsmLine)) (by decide),
   workedLine (l := .drawText 0x20000000 0 0 0xFFFF 0 ⟨0x20001000, 0x20, 95, 8, 1⟩ 8) (by decide),
   workedLine (l := .lookupGlyph 0x41 ⟨0x20001000, 0x20, 95, 8, 1⟩) (by decide)⟩

end Sys2Proof.Machine

/-! SUPPORT. Proofs of the statements of spec/40_protocol.md: the shape of the stream, the tokens that wait for the
transport, NOP, and the controller's reading of a transaction and of a rectangle. -/

namespace Sys2Proof.Machine

/-! ### The tokens of the transaction under way -/

theorem openTokens_inTx {s : State} {t : Tx} {task : Task} (hs : s.seq = .exec ⟨some t, task⟩) :
    openTokens s = sentTokens s.cfg t := by
  simp only [openTokens, hs]

theorem openTokens_between {s : State} (hs : ∀ t task, s.seq ≠ .exec ⟨some t, task⟩) : openTokens s = [] := by
  unfold openTokens
  split
  · exact absurd ‹_› (hs _ _)
  · rfl

theorem sentTokens_afterSelect {c : Config} {t : Tx} (hp : t.pos = .select) :
    sentTokens c { t with pos := .window 0 } = sentTokens c t ++ [.sel] := by
  simp [sentTokens, hp]

/-- A token of `set_window` is sent, the eleventh before the colours (R131, R136). -/
theorem sentTokens_afterWindow {c : Config} {t : Tx} {k : Nat} {tok : Token} (hp : t.pos = .window k)
    (htok : (windowTokens c t.win)[k]? = some tok) :
    sentTokens c { t with pos := afterWindow t.win k } = sentTokens c t ++ [tok] := by
  obtain ⟨hk, -⟩ := List.getElem?_eq_some_iff.1 htok
  rw [windowTokens_length] at hk
  obtain ⟨tok', htok', htake⟩ := windowTokens_get c t.win k (by omega)
  obtain rfl : tok = tok' := Option.some.inj (htok.symm.trans htok')
  have hsent : sentTokens c t ++ [tok] = .sel :: (windowTokens c t.win).take (k + 1) := by
    simp only [sentTokens, hp, List.cons_append, htake]
  rw [hsent]
  by_cases hlast : k < 10
  · simp [afterWindow, hlast, sentTokens]
  · have hall : (windowTokens c t.win).take (k + 1) = windowTokens c t.win :=
      List.take_of_length_le (by rw [windowTokens_length]; omega)
    simp [afterWindow, hlast, sentTokens, hall]

theorem sentTokens_afterHigh {c : Config} {t : Tx} {n : Nat} (hp : t.pos = .colorHi n) :
    sentTokens c { t with pos := .colorLo n } = sentTokens c t ++ [.dat (hi8 t.color)] := by
  simp [sentTokens, hp]

/-- The low byte of a pixel is sent, the last one before `deselect()` (R134). -/
theorem sentTokens_afterPixel {c : Config} {t : Tx} {n : Nat} (hp : t.pos = .colorLo n) (h1 : 1 ≤ n)
    (hn : n ≤ t.win.w * t.win.h) :
    sentTokens c { t with pos := afterPixel n } = sentTokens c t ++ [.dat (lo8 t.color)] := by
  have hpixel : colorTokens t.color (t.win.w * t.win.h - n) ++ [.dat (hi8 t.color), .dat (lo8 t.color)] =
      colorTokens t.color (t.win.w * t.win.h - (n - 1)) := by
    rw [show t.win.w * t.win.h - (n - 1) = t.win.w * t.win.h - n + 1 by omega, colorTokens_succ']
    rfl
  have hsent : sentTokens c t ++ [.dat (lo8 t.color)] =
      .sel :: windowTokens c t.win ++ colorTokens t.color (t.win.w * t.win.h - (n - 1)) := by
    simp [sentTokens, hp, ← hpixel]
  rw [hsent]
  by_cases hlast : n ≤ 1
  · simp [afterPixel, hlast, sentTokens, show n - 1 = 0 by omega]
  · simp [afterPixel, hlast, sentTokens]

theorem sentTokens_deselect {c : Config} {t : Tx} (hp : t.pos = .deselect) :
    sentTokens c t ++ [.desel] = txTokens c t.win t.color := by
  simp [sentTokens, hp, txTokens]

/-! ### What a move does to the shape of the stream -/

/-- The tokens emitted from `s` to `t`, if any, belong to the transaction under way. -/
def ExtendsOpen (s t : State) : Prop := ∃ o, t.out = s.out ++ o ∧ openTokens t = openTokens s ++ o

/-- From `s` to `t` the transaction under way ends, whole (R106). -/
def ClosesOpen (s t : State) : Prop :=
  t.out = s.out ++ [.desel] ∧ openTokens t = [] ∧
    ∃ v col, winOk s.cfg v = true ∧ openTokens s ++ [.desel] = txTokens s.cfg v col

/-- From `s` to `t` nothing is emitted, and no transaction has begun in `t`. -/
def EmitsNothing (s t : State) : Prop := t.out = s.out ∧ openTokens t = []

theorem ExtendsOpen.refl (s : State) : ExtendsOpen s s := ⟨[], by simp⟩

theorem EmitsNothing.extendsOpen {s t : State} (h : EmitsNothing s t) (hs : openTokens s = []) : ExtendsOpen s t :=
  ⟨[], by simp [h.1], by rw [h.2, hs]; rfl⟩

theorem WholeTransactions.extend {s t : State} (h : WholeTransactions s) (hc : t.cfg = s.cfg)
    (hb : t.outBase = s.outBase) (ht : ExtendsOpen s t) : WholeTransactions t := by
  obtain ⟨hle, txs, hok, hdrop⟩ := h
  obtain ⟨o, hout, hopen⟩ := ht
  refine ⟨by rw [hb, hout, List.length_append]; omega, txs, hc ▸ hok, ?_⟩
  rw [hb, hout, hc, hopen, List.drop_append_of_le_length hle, hdrop, List.append_assoc]

theorem WholeTransactions.close {s t : State} (h : WholeTransactions s) (hc : t.cfg = s.cfg)
    (hb : t.outBase = s.outBase) (ht : ClosesOpen s t) : WholeTransactions t := by
  obtain ⟨hle, txs, hok, hdrop⟩ := h
  obtain ⟨hout, hopen, v, col, hv, hwhole⟩ := ht
  refine ⟨by rw [hb, hout, List.length_append]; omega, txs ++ [(v, col)], ?_, ?_⟩
  · intro u hu
    rw [hc]
    rcases List.mem_append.1 hu with hu | hu
    · exact hok u hu
    · rw [List.mem_singleton.1 hu]
      exact hv
  · rw [hb, hout, hc, hopen, List.drop_append_of_le_length hle, hdrop, List.append_assoc, hwhole]
    simp

/-- The shape is one of the parameters, the stream and the sequencer alone. -/
theorem WholeTransactions.congr {s t : State} (h : WholeTransactions s) (hc : t.cfg = s.cfg)
    (hb : t.outBase = s.outBase) (hout : t.out = s.out) (hs : t.seq = s.seq) : WholeTransactions t :=
  h.extend hc hb ⟨[], by simp [hout], by simp [openTokens, hc, hs]⟩

/-- A step that changes only what a command may change keeps the shape if it extends the transaction or ends it. -/
theorem WholeTransactions.commandChanges {s t : State} (h : WholeTransactions s) (ht : CommandChanges s t)
    (hst : ExtendsOpen s t ∨ ClosesOpen s t) : WholeTransactions t := by
  obtain ⟨o, d, e, k, l, x, c, q, rfl⟩ := ht
  exact hst.elim (h.extend rfl rfl) (h.close rfl rfl)

/-! ### One step of a command -/

/-- A token of a transaction is sent and counted. -/
theorem extendsOpen_setTx {s u : State} {t : Tx} {w : Work} {task : Task} {pos : TxPos} {tok : Token}
    (hs : s.seq = .exec ⟨some t, task⟩) (hout : u.out = s.out ++ [tok]) (hc : u.cfg = s.cfg)
    (hsent : sentTokens s.cfg { t with pos := pos } = sentTokens s.cfg t ++ [tok]) :
    ExtendsOpen s (setTx w t pos u) := by
  refine ⟨[tok], hout, ?_⟩
  rw [openTokens_inTx hs, ← hsent, ← hc]
  rfl

/-- A transaction, place by place: each token sent is the next of `txTokens`, and `DESEL` makes it whole (R136). -/
theorem advanceTx_stream (ready : Bool) {t : Tx} {task : Task} {s : State} (hs : s.seq = .exec ⟨some t, task⟩)
    (htx : txOk s.cfg t = true) :
    ExtendsOpen s (advanceTx ready ⟨some t, task⟩ t s) ∨ ClosesOpen s (advanceTx ready ⟨some t, task⟩ t s) := by
  rw [txOk, Bool.and_eq_true] at htx
  obtain ⟨hv, hplace⟩ := htx
  unfold advanceTx
  split
  case h_1 hp => exact .inl (extendsOpen_setTx hs rfl rfl (sentTokens_afterSelect hp))
  case h_2 k hp =>
    left
    split
    case h_1 b htok =>
      split
      · exact ⟨[], by simp, by simp [openTokens, hs]⟩
      · split
        · exact extendsOpen_setTx hs rfl rfl (sentTokens_afterWindow hp htok)
        · exact .refl s
    case h_2 tok _ htok =>
      split
      · exact extendsOpen_setTx hs rfl rfl (sentTokens_afterWindow hp htok)
      · exact .refl s
    case h_3 => exact .refl s
  case h_3 n hp =>
    left
    split
    · exact extendsOpen_setTx hs rfl rfl (sentTokens_afterHigh hp)
    · exact .refl s
  case h_4 n hp =>
    left
    obtain ⟨h1, hn⟩ : 1 ≤ n ∧ n ≤ t.win.w * t.win.h := by simpa [hp] using hplace
    split
    · exact extendsOpen_setTx hs rfl rfl (sentTokens_afterPixel hp h1 hn)
    · exact .refl s
  case h_5 hp =>
    exact .inr ⟨rfl, rfl, t.win, t.color, hv, by rw [openTokens_inTx hs, sentTokens_deselect hp]⟩

/-- The transaction that is opened next has emitted nothing yet. -/
theorem emitsNothing_openTx {s t : State} {v : Option Window} {col : Half} {task : Task} (hout : t.out = s.out)
    (hs : t.seq = .exec ⟨openTx s.cfg v col, task⟩) : EmitsNothing s t :=
  ⟨hout, openTx_atRest.2 t hs⟩

theorem emitsNothing_finishCommand (s : State) : EmitsNothing s (finishCommand s) := by
  refine ⟨finishCommand_out s, ?_⟩
  unfold finishCommand
  split <;> rfl

theorem emitsNothing_raiseFault {s : State} (hr : AtRest s) (code : BitVec 4) : EmitsNothing s (raiseFault code s) := by
  rw [raiseFault_inactive hr.1]
  exact ⟨rfl, rfl⟩

theorem emitsNothing_advanceLine (c : Half) (st : Stepper) (s : State) : EmitsNothing s (advanceLine c st s) := by
  unfold advanceLine
  split
  · exact emitsNothing_openTx rfl rfl
  · exact emitsNothing_finishCommand s

/-- Between transactions DRAW_TEXT emits nothing, point by point (R207). -/
theorem emitsNothing_advanceText (ready : Bool) (a : TextArgs) (pt : TextPoint) {s : State} (hr : AtRest s)
    (hopen : openTokens s = []) : EmitsNothing s (advanceText ready a pt s) := by
  cases pt with
  | start =>
    simp only [advanceText]
    split
    · exact emitsNothing_raiseFault hr _
    · exact ⟨rfl, rfl⟩
  | char p cx =>
    simp only [advanceText]
    split
    · split
      · exact emitsNothing_raiseFault hr _
      · rename_i hm
        have hout := memRead_out hm
        split
        · exact ⟨hout, rfl⟩
        · split <;> exact ⟨hout, rfl⟩
    · exact ⟨rfl, hopen⟩
  | row p cx ref row =>
    simp only [advanceText]
    split
    · exact ⟨rfl, rfl⟩
    · split
      · split
        · exact emitsNothing_raiseFault hr _
        · rename_i hm
          have hout := memRead_out hm
          exact ⟨hout, rfl⟩
      · exact ⟨rfl, hopen⟩
  | col p cx ref row b col =>
    simp only [advanceText]
    split
    · exact ⟨rfl, rfl⟩
    · exact emitsNothing_openTx rfl rfl

theorem advance_stream (ready : Bool) {s : State} (h : Inv s) :
    ExtendsOpen s (advance ready s) ∨ ClosesOpen s (advance ready s) := by
  have hbetween {task : Task} (hs : s.seq = .exec ⟨none, task⟩) : openTokens s = [] :=
    openTokens_between (by simp [hs])
  unfold advance
  split
  case h_1 hs => exact advanceTx_stream ready hs (h.inTx hs).1
  case h_2 hs => exact .inl ((emitsNothing_finishCommand s).extendsOpen (hbetween hs))
  case h_3 hs => exact .inl ((emitsNothing_advanceLine _ _ s).extendsOpen (hbetween hs))
  case h_4 hs =>
    left
    split
    · exact (emitsNothing_advanceText ready _ _ (h.atRest (by simp [hs])) (hbetween hs)).extendsOpen (hbetween hs)
    · exact .refl s
  case h_5 => exact .inl (.refl s)
  case h_6 => exact .inl (.refl s)

theorem advance_whole (ready : Bool) {s : State} (h : Inv s) (hw : WholeTransactions s) :
    WholeTransactions (advance ready s) :=
  hw.commandChanges (advance_changes ready s) (advance_stream ready h)

theorem advanceMany_whole (k : Nat) {s : State} (h : Inv s) (hw : WholeTransactions s) :
    WholeTransactions (advanceMany k s) := by
  induction k generalizing s with
  | zero => exact hw
  | succ k ih => exact ih (advance_inv true h) (advance_whole true h hw)

/-! ### Every step keeps the shape of the stream -/

/-- A command begins between transactions, perhaps about to open one (R37). -/
theorem startWork_eq_openTx (c : Config) (i : Instr) : ∃ v col task, startWork c i = ⟨openTx c v col, task⟩ := by
  cases i with
  | drawLine x0 y0 x1 y1 col =>
    simp only [startWork, startLine]
    split
    · exact ⟨_, _, _, rfl⟩
    · split
      · exact ⟨_, _, _, rfl⟩
      · exact ⟨none, 0, _, rfl⟩
  | nop | drawText a | lookupGlyph ch t => exact ⟨none, 0, _, rfl⟩
  | _ => exact ⟨_, _, _, rfl⟩

theorem accept_whole {s : State} (hs : s.seq = .idle) (hw : WholeTransactions s) (i : Instr) (rest : List Word) :
    WholeTransactions (accept i rest s) := by
  obtain ⟨v, col, task, hstart⟩ := startWork_eq_openTx s.cfg i
  have hnothing : EmitsNothing s (accept i rest s) :=
    emitsNothing_openTx (v := v) (col := col) (task := task) rfl (congrArg Seq.exec hstart)
  exact hw.extend rfl rfl (hnothing.extendsOpen (openTokens_between (by simp [hs])))

/-- A command run whole is the sum of its steps (O13), each of which keeps the shape. -/
theorem exec_accept_whole {s t : State} {i : Instr} {rest : List Word} (h : Inv s) (hw : WholeTransactions s)
    (hs : s.seq = .idle) (hd : decode s.fifo = .packet i rest) (ht : exec i (accept i rest s) = .next t) :
    WholeTransactions t := by
  obtain ⟨k, u, hu, hk⟩ := commandRunsAsItsSteps i rest s h.config (h.atRest (by simp [hs]))
  obtain rfl : u = t := by simpa [hu] using ht
  exact hk ▸ advanceMany_whole k (accept_inv h hs hd) (accept_whole hs hw i rest)

/-- A fault between transactions emits nothing (R244). -/
theorem raiseFault_whole {s : State} (hr : AtRest s) (hopen : openTokens s = []) (hw : WholeTransactions s)
    (code : BitVec 4) : WholeTransactions (raiseFault code s) :=
  hw.commandChanges (raiseFault_changes code s) (.inl ((emitsNothing_raiseFault hr code).extendsOpen hopen))

theorem takeIllegal_whole {s : State} (h : Inv s) (hs : s.seq = .idle) (hw : WholeTransactions s)
    (rest : List Word) : WholeTransactions (takeIllegal rest s) := by
  have hr : AtRest s := h.atRest (by simp [hs])
  have hopen : openTokens s = [] := openTokens_between (by simp [hs])
  have hkeep (q : List Word) (w : Option Word) (n : Nat) :
      WholeTransactions (raiseFault illegalOpcodeCode { s with fifo := q, waiting := w, draws := n }) :=
    raiseFault_whole (s := { s with fifo := q, waiting := w, draws := n }) hr hopen (hw.congr rfl rfl rfl rfl) _
  unfold takeIllegal
  split
  · exact hkeep rest s.waiting s.draws
  · exact hkeep _ none _

theorem blockMove_whole (ready : Bool) {s : State} (h : Inv s) (hw : WholeTransactions s) :
    WholeTransactions (blockMove ready s) := by
  unfold blockMove
  split
  case h_1 hs =>
    split
    · exact hw
    · exact takeIllegal_whole h hs hw _
    · exact accept_whole hs hw _ _
  case h_2 => exact advance_whole ready h hw
  case h_3 => exact hw

/-- Since a reset that has just taken effect there are no tokens (R270, log 12). -/
theorem resetBlock_whole (s : State) : WholeTransactions (resetBlock s) :=
  ⟨Nat.le_refl _, [], by simp, List.drop_length⟩

theorem writeReg_whole (off : Nat) (v : Word) {s : State} (hw : WholeTransactions s) :
    WholeTransactions (writeReg off v s) := by
  unfold writeReg
  split
  · unfold writeCmd
    split
    · exact hw
    · split <;> exact hw.congr rfl rfl rfl rfl
  · split
    · unfold writeCtrl
      split
      · exact resetBlock_whole s
      · exact hw
    · exact hw

theorem takeTurn_whole {t : Turn} {rest : List Turn} {s s' : State} (h : Inv s) (hw : WholeTransactions s)
    (ht : takeTurn t rest s = .next s') : WholeTransactions s' := by
  have hplan : WholeTransactions { s with plan := rest } := hw.congr rfl rfl rfl rfl
  cases t with
  | host a =>
    simp only [takeTurn] at ht
    split at ht
    · cases ht; exact blockMove_whole true h hw
    · rcases hostAccess_cases ht with ⟨v, rfl⟩ | ⟨off, v, rfl⟩
      · exact hw.congr rfl rfl rfl rfl
      · exact writeReg_whole off v hplan
  | srcWrite a b => cases ht; exact hw.congr rfl rfl rfl rfl
  | hardReset =>
    cases ht
    obtain ⟨w, n, he⟩ := hardReset_eq { s with plan := rest }
    rw [he]
    exact (resetBlock_whole { s with plan := rest }).congr rfl rfl rfl rfl
  | block ready => cases ht; exact blockMove_whole ready (h.withPlan rest) hplan

/-- Settles O19, by the cases of a step: a step of a command extends the transaction under way or ends it whole, a
command run whole is the sum of such steps, and a reset begins the stream anew. -/
theorem stepKeepsWholeTransactions : Obligations.StepKeepsWholeTransactions := by
  intro s s' h hw hstep
  rcases step_cases hstep with hsettle | ⟨-, t, rest, -, ht⟩ | ⟨-, -, hs, i, rest, hd, he⟩ | ⟨-, -, -, rfl⟩
  · obtain ⟨q, rfl⟩ := settleWaiting_some hsettle
    exact hw.congr rfl rfl rfl rfl
  · exact takeTurn_whole h hw ht
  · exact exec_accept_whole h hw hs hd he
  · exact blockMove_whole true h hw

/-! ### The controller's reading of one transaction -/

/-- An accepted window begins on the panel and is not empty (R131). -/
theorem winOk_bounds {c : Config} {v : Window} (h : winOk c v = true) : 0 ≤ v.x ∧ 0 ≤ v.y ∧ 1 ≤ v.w ∧ 1 ≤ v.h := by
  obtain ⟨hx, hw, -, hy, hh, -⟩ := (winOk_iff c v).1 h
  exact ⟨hx, hy, hw, hh⟩

namespace Controller

theorem mem_windowWrites {v : Window} {col : Half} {p : PixelWrite} :
    p ∈ windowWrites v col ↔ ∃ j < v.h, ∃ i < v.w, (⟨v.x.toNat + i, v.y.toNat + j, col⟩ : PixelWrite) = p := by
  simp [windowWrites]

/-- Writes of one colour give it to the cells they name and leave the others alone. -/
theorem cell_append_of_color {ws g : List PixelWrite} {col : Half} (hcol : ∀ p ∈ ws, p.color = col) (i j : Nat) :
    cell (ws ++ g) i j = if ∃ p ∈ ws, p.col = i ∧ p.row = j then some col else cell g i j := by
  unfold cell
  rw [List.find?_append]
  cases hf : ws.find? fun p => p.col == i && p.row == j with
  | some p =>
    have hp := List.mem_of_find?_eq_some hf
    have hij : p.col = i ∧ p.row = j := by simpa using List.find?_some hf
    rw [if_pos ⟨p, hp, hij⟩]
    simp [hcol p hp]
  | none =>
    have hno : ∀ p ∈ ws, p.col = i → p.row ≠ j := by simpa using hf
    rw [if_neg (fun ⟨p, hp, hi, hj⟩ => hno p hp hi hj)]
    rfl

/-- The cells after one transaction of an accepted window, read at the panel's coordinates (R115). -/
theorem cell_windowWrites {v : Window} (hx : 0 ≤ v.x) (hy : 0 ≤ v.y) (col : Half) (g : List PixelWrite) (i j : Nat) :
    cell ((windowWrites v col).reverse ++ g) i j =
      if v.x ≤ i ∧ (i : Int) < v.x + v.w ∧ v.y ≤ j ∧ (j : Int) < v.y + v.h then some col else cell g i j := by
  rw [cell_append_of_color (col := col)]
  · refine if_congr ?_ rfl rfl
    simp only [List.mem_reverse, mem_windowWrites]
    constructor
    · rintro ⟨_, ⟨b, hb, a, ha, rfl⟩, rfl, rfl⟩
      dsimp only
      omega
    · rintro ⟨hi, hi', hj, hj'⟩
      exact ⟨_, ⟨j - v.y.toNat, by omega, i - v.x.toNat, by omega, rfl⟩, by dsimp only; omega, by dsimp only; omega⟩
  · intro p hp
    obtain ⟨_, _, _, _, rfl⟩ := mem_windowWrites.1 (List.mem_reverse.1 hp)
    rfl

/-- The controller once the window `v` is set: the memory write is to begin at its first cell (R112, R113). -/
def armed (v : Window) (k : Ctl) : Ctl :=
  { k with
    xs := enc16 v.x, xe := enc16 (v.x + v.w - 1), ys := enc16 v.y, ye := enc16 (v.y + v.h - 1)
    px := v.x.toNat, py := v.y.toNat, phase := .memWrite none }

/-- The registers of an accepted window hold its coordinates (R132). -/
theorem armed_toNat {c : Config} {v : Window} (hc : c.wf = true) (hv : winOk c v = true) (k : Ctl) :
    (armed v k).xs.toNat = v.x.toNat ∧ (armed v k).xe.toNat = v.x.toNat + v.w - 1 ∧
    (armed v k).ys.toNat = v.y.toNat ∧ (armed v k).ye.toNat = v.y.toNat + v.h - 1 := by
  simp only [Config.wf, Bool.and_eq_true, decide_eq_true_eq] at hc
  rw [winOk_iff] at hv
  simp only [armed, enc16, BitVec.toNat_ofInt]
  omega

theorem windowOk_armed {c : Config} {v : Window} (hc : c.wf = true) (hv : winOk c v = true) (k : Ctl) :
    windowOk c (armed v k) = true := by
  obtain ⟨hxs, hxe, hys, hye⟩ := armed_toNat hc hv k
  rw [winOk_iff] at hv
  rw [windowOk, decide_eq_true_eq, BitVec.le_def, BitVec.le_def]
  omega

/-- The controller once the window `v` is filled with `col`: the pointer is below its last row (R113, R115). -/
def filled (v : Window) (col : Half) (k : Ctl) : Ctl :=
  { armed v k with gram := (windowWrites v col).reverse ++ k.gram, px := v.x.toNat, py := v.y.toNat + v.h }

/-- The colours of an accepted window fill it (R115). -/
theorem readOn_colorTokens_armed {c : Config} {v : Window} (hc : c.wf = true) (hv : winOk c v = true) (col : Half)
    (k : Ctl) : readOn c (armed v k) (colorTokens col (v.w * v.h)) = .ok (filled v col k) := by
  obtain ⟨hxs, hxe, -, hye⟩ := armed_toNat hc hv k
  obtain ⟨-, -, hw, -⟩ := winOk_bounds hv
  rw [readOn_colorTokens rfl (windowOk_armed hc hv k) hw hxs hxe hye rfl rfl (Nat.le_refl _), ← windowWrites_eq,
    Nat.mul_mod_right, Nat.mul_div_cancel_left _ hw]
  rfl

/-- After the window's last pixel `DESEL` ends the memory write (R114). -/
theorem onDeselect_filled {c : Config} {v : Window} (hc : c.wf = true) (hv : winOk c v = true) (col : Half)
    (k : Ctl) : onDeselect (filled v col k) = .ok { filled v col k with phase := .lost } := by
  obtain ⟨-, -, -, hye⟩ := armed_toNat hc hv k
  obtain ⟨-, -, -, hh⟩ := winOk_bounds hv
  have hbelow : (filled v col k).ye.toNat < (filled v col k).py := by
    simp only [filled, hye]
    omega
  rw [onDeselect, endWrite, if_pos hbelow]
  rfl

end Controller

section

open Controller

/-- Settles O55: `SEL` frees the reading from the phase before it, the eleven tokens set the window, the colours fill it
in the order of the stream, and `DESEL` comes after the last pixel. -/
theorem controllerReadsTransaction : Obligations.ControllerReadsTransaction := by
  intro c v col k hc hv h1 h2 h3
  have hwindow : readOn c { k with phase := .lost } (windowTokens c v) = .ok (armed v k) :=
    readOn_windowTokens hc hv h1 h2 h3 rfl
  refine ⟨{ filled v col k with phase := .lost }, ?_, rfl, rfl⟩
  calc reading c k (txTokens c v col)
      = readOn c { k with phase := .lost } (windowTokens c v ++ (colorTokens col (v.w * v.h) ++ [.desel])) := by
        rw [txTokens, List.cons_append, List.cons_append, reading_sel, List.append_assoc]
    _ = readOn c (armed v k) (colorTokens col (v.w * v.h) ++ [.desel]) := readOn_append hwindow
    _ = readOn c (filled v col k) [.desel] := readOn_append (readOn_colorTokens_armed hc hv col k)
    _ = .ok { filled v col k with phase := .lost } := readOn_cons (onDeselect_filled hc hv col k)

/-- Settles O57: the tokens are one transaction of the rectangle's window, whose reading writes its cells. -/
theorem rectanglePixels : Obligations.RectanglePixels := by
  intro x y w h col s k hc hr h1 h2 h3 hv
  obtain ⟨k', hread, hgram, -⟩ := controllerReadsTransaction s.cfg _ col k hc hv h1 h2 h3
  obtain ⟨hx, hy, -, -⟩ := winOk_bounds hv
  refine ⟨_, k', rfl, ?_, fun i j => ?_⟩
  · rw [complete_out, windowTx_accepts hv, List.drop_left, hread]
  · rw [hgram]
    exact cell_windowWrites hx hy col k.gram i j

end

/-! ### A transport and a read port that do not answer -/

theorem advance_inTx (ready : Bool) {s : State} {t : Tx} {task : Task} (hs : s.seq = .exec ⟨some t, task⟩) :
    advance ready s = advanceTx ready ⟨some t, task⟩ t s := by
  simp only [advance, hs]

theorem advance_text (ready : Bool) {s : State} {a : TextArgs} {pt : TextPoint} (ha : s.latch = .drawText a)
    (hs : s.seq = .exec ⟨none, .text pt⟩) : advance ready s = advanceText ready a pt s := by
  simp only [advance, hs, ha, latchText]

/-- From `s` to `t` no byte is emitted, `SEL` or `DESEL` at most, and no free byte is drawn. -/
def Stalled (s t : State) : Prop :=
  (t.out = s.out ∨ t.out = s.out ++ [.sel] ∨ t.out = s.out ++ [.desel]) ∧ t.draws = s.draws

theorem Stalled.silent {s t : State} (hout : t.out = s.out) (hd : t.draws = s.draws) : Stalled s t :=
  ⟨.inl hout, hd⟩

theorem Stalled.of_eq {s t : State} (h : t = s) : Stalled s t := .silent (by rw [h]) (by rw [h])

/-- Within `set_window` only `dc` moves (R104, R107). -/
theorem advanceTx_stalled_window {w : Work} {t : Tx} {k : Nat} (hp : t.pos = .window k) (s : State) :
    advanceTx false w t s = s ∨ advanceTx false w t s = { s with dc := .command } := by
  simp only [advanceTx, hp]
  split
  · split
    · exact .inr rfl
    · exact .inl rfl
  · exact .inl rfl
  · exact .inl rfl

/-- A colour byte waits (R107). -/
theorem advanceTx_stalled_color {w : Work} {t : Tx} {n : Nat} (hp : t.pos = .colorHi n ∨ t.pos = .colorLo n)
    (s : State) : advanceTx false w t s = s := by
  rcases hp with hp | hp <;> simp [advanceTx, hp]

theorem advanceTx_select_out (ready : Bool) {w : Work} {t : Tx} (hp : t.pos = .select) (s : State) :
    (advanceTx ready w t s).out = s.out ++ [.sel] := by
  simp only [advanceTx, hp]
  rfl

theorem advanceTx_deselect_out (ready : Bool) {w : Work} {t : Tx} (hp : t.pos = .deselect) (s : State) :
    (advanceTx ready w t s).out = s.out ++ [.desel] := by
  simp only [advanceTx, hp]
  rfl

theorem advanceTx_stalled (w : Work) (t : Tx) (s : State) : Stalled s (advanceTx false w t s) := by
  cases hp : t.pos with
  | select => exact ⟨.inr (.inl (advanceTx_select_out false hp s)), by simp only [advanceTx, hp]; rfl⟩
  | window k =>
    rcases advanceTx_stalled_window (w := w) hp s with h | h
    · exact .of_eq h
    · exact h ▸ .silent rfl rfl
  | colorHi n => exact .of_eq (advanceTx_stalled_color (.inl hp) s)
  | colorLo n => exact .of_eq (advanceTx_stalled_color (.inr hp) s)
  | deselect => exact ⟨.inr (.inr (advanceTx_deselect_out false hp s)), by simp only [advanceTx, hp]; rfl⟩

/-- The trap action emits `DESEL` at most (R244). -/
theorem raiseFault_stalled (code : BitVec 4) (s : State) : Stalled s (raiseFault code s) := by
  cases hcs : s.cs with
  | active => simp [Stalled, raiseFault, closeTransaction, hcs]
  | inactive => exact raiseFault_inactive hcs code ▸ .silent rfl rfl

/-- A text byte is not read (R54). -/
theorem advanceText_stalled_char (a : TextArgs) (p cx : Word) (s : State) : advanceText false a (.char p cx) s = s := rfl

/-- A row byte is not read (R54). -/
theorem advanceText_stalled_row {a : TextArgs} {row : Nat} (hrow : row < a.table.gh.toNat) (p cx ref : Word)
    (s : State) : advanceText false a (.row p cx ref row) s = s := by
  simp [advanceText, hrow]

theorem advanceText_stalled (a : TextArgs) (pt : TextPoint) (s : State) : Stalled s (advanceText false a pt s) := by
  cases pt with
  | start =>
    simp only [advanceText]
    split
    · exact raiseFault_stalled _ s
    · exact .silent rfl rfl
  | char p cx => exact .of_eq (advanceText_stalled_char a p cx s)
  | row p cx ref row =>
    by_cases hrow : row < a.table.gh.toNat
    · exact .of_eq (advanceText_stalled_row hrow p cx ref s)
    · simp only [advanceText, zext8, if_pos (Nat.not_lt.1 hrow)]
      exact .silent rfl rfl
  | col p cx ref row b col =>
    simp only [advanceText]
    split <;> exact .silent rfl rfl

theorem finishCommand_stalled (s : State) : Stalled s (finishCommand s) := by
  unfold finishCommand
  split <;> exact .silent rfl rfl

theorem advanceLine_stalled (c : Half) (st : Stepper) (s : State) : Stalled s (advanceLine c st s) := by
  unfold advanceLine
  split
  · exact .silent rfl rfl
  · exact finishCommand_stalled s

theorem advance_stalled (s : State) : Stalled s (advance false s) := by
  unfold advance
  split
  case h_1 => exact advanceTx_stalled _ _ s
  case h_2 => exact finishCommand_stalled s
  case h_3 => exact advanceLine_stalled _ _ s
  case h_4 =>
    split
    · exact advanceText_stalled _ _ s
    · exact .of_eq rfl
  case h_5 => exact .of_eq rfl
  case h_6 => exact .of_eq rfl

/-- Settles O16, by the places of a transaction and the two reads of DRAW_TEXT. -/
theorem stalledBlockEmitsNoByte : Obligations.StalledBlockEmitsNoByte := by
  intro s
  obtain ⟨hout, hdraws⟩ := advance_stalled s
  refine ⟨hout, hdraws, fun t task n hs hp => ?color, fun t task k hs hp => ?window, fun t task hs hp => ?select,
    fun t task hs hp => ?deselect, fun a p cx ha hs => ?char, fun a p cx ref row ha hs hrow => ?row⟩
  case color => rw [advance_inTx false hs, advanceTx_stalled_color hp]
  case window => rw [advance_inTx false hs]; exact advanceTx_stalled_window hp s
  case select => rw [advance_inTx false hs, advanceTx_select_out false hp]
  case deselect => rw [advance_inTx false hs, advanceTx_deselect_out false hp]
  case char => rw [advance_text false ha hs, advanceText_stalled_char]
  case row => rw [advance_text false ha hs, advanceText_stalled_row hrow]

/-! ### NOP -/

theorem decode_nop {w0 : Word} (h : byte3 w0 = 0x00) (ws : List Word) : decode (w0 :: ws) = .packet .nop ws := by
  simp [decode, decodeAfter, h]

/-- Settles O25: the accepted state is the one before with the header removed and NOP in the latch, and NOP completes. -/
theorem nopDoesNothing : Obligations.NopDoesNothing := by
  refine ⟨fun w0 ws h => decode_nop h ws, fun w0 ws s h hf hw => ?_⟩
  have haccept := accept_eq hw (hf ▸ decode_nop h ws)
  exact ⟨rfl, by rw [haccept], rfl, rfl, rfl⟩

end Sys2Proof.Machine

/-! SUPPORT. Proofs of the statements of spec/41_window.md: the tokens of `set_window`, the coordinates of an accepted
window, and `window_tx` as one transaction. -/

namespace Sys2Proof.Machine

/-! ### The bytes of a coordinate (R58, R132) -/

/-- `hi8` of a 16-bit encoding is the byte of weight 256, of a negative number too: the quotient rounds down. -/
theorem hi8_enc16 (n : Int) : hi8 (enc16 n) = BitVec.ofInt 8 (n / 256) := by
  apply BitVec.eq_of_toNat_eq
  rw [hi8, enc16, BitVec.extractLsb'_toNat, Nat.shiftRight_eq_div_pow, BitVec.toNat_ofInt, BitVec.toNat_ofInt]
  omega

theorem lo8_enc16 (n : Int) : lo8 (enc16 n) = BitVec.ofInt 8 n := by
  apply BitVec.eq_of_toNat_eq
  rw [lo8, enc16, BitVec.extractLsb'_toNat, Nat.shiftRight_zero, BitVec.toNat_ofInt, BitVec.toNat_ofInt]
  omega

theorem send16_eq (n : Int) (s : State) : send16 n s = s.addOut [.dat (hi8 (enc16 n)), .dat (lo8 (enc16 n))] := by
  simp [send16, sendData, emit, State.addOut]

/-! ### `set_window` (R131, R133) -/

/-- With `dc` at data already, `set_window` on an accepted window changes the stream alone (R131, R133). -/
theorem setWindow_accepts {v : Window} {s : State} (hd : s.dc = .data) (h : winOk s.cfg v = true) :
    setWindow v s = (true, s.addOut (windowTokens s.cfg v)) := by
  rw [setWindow_eq h, ← hd]
  rfl

/-- Settles O22: R131's test is `winOk`, and the bytes of the window's tokens are those of its coordinates. -/
theorem setWindowTokens : Obligations.SetWindowTokens := by
  intro x y w h s hd
  refine ⟨fun haccept => ?accepted, fun hreject => ?rejected⟩
  case accepted =>
    rw [setWindow_accepts hd ((winOk_iff _ _).2 haccept)]
    simp only [windowTokens, hi8_enc16, lo8_enc16]
  case rejected =>
    exact setWindow_rejects (Bool.eq_false_iff.2 fun hok => hreject ((winOk_iff _ _).1 hok))

/-! ### The coordinates of an accepted window (R132) -/

/-- An accepted window's corners are on the panel (R131). -/
theorem winOk_coordinates {c : Config} {v : Window} (h : winOk c v = true) :
    (∀ n ∈ [v.x, v.x + v.w - 1], 0 ≤ n ∧ n ≤ c.xMax - 1) ∧
    (∀ n ∈ [v.y, v.y + v.h - 1], 0 ≤ n ∧ n ≤ c.yMax - 1) := by
  rw [winOk_iff] at h
  simp only [List.forall_mem_cons, List.not_mem_nil, false_implies, implies_true, and_true]
  omega

/-- A panel has at most 65535 columns and rows (R7). -/
theorem panel_le {c : Config} (h : c.wf = true) : c.xMax ≤ 65535 ∧ c.yMax ≤ 65535 := by
  simp only [Config.wf, Bool.and_eq_true, decide_eq_true_eq] at h
  omega

/-- R132: up to 65534, `enc16` never truncates. -/
theorem enc16_exact {n : Int} (h0 : 0 ≤ n) (h : n ≤ 65534) : ((enc16 n).toNat : Int) = n :=
  toNat_ofInt_of_inRange (m := 65534) (by decide) (by simp [h0, h])

/-- Settles O23: the panel's size bounds the coordinates of an accepted window, and `enc16` is exact below it. -/
theorem windowCoordinatesFit : Obligations.WindowCoordinatesFit := by
  refine ⟨send16_eq, fun c v hc hv => ?_⟩
  obtain ⟨hx, hy⟩ := winOk_coordinates hv
  obtain ⟨hxMax, hyMax⟩ := panel_le hc
  refine ⟨hx, hy, fun n hn => ?_⟩
  have hpanel : 0 ≤ n ∧ n ≤ 65534 := by
    rcases List.mem_append.1 (show n ∈ [v.x, v.x + v.w - 1] ++ [v.y, v.y + v.h - 1] from hn) with hn | hn
    · have := hx n hn
      omega
    · have := hy n hn
      omega
  exact ⟨hpanel.2, enc16_exact hpanel.1 hpanel.2⟩

/-! ### One transaction (R136) -/

theorem filter_isCmd_colorTokens (c : Half) (n : Nat) : (colorTokens c n).filter Token.isCmd = [] := by
  induction n with
  | zero => rfl
  | succ n ih => rw [colorTokens_succ, List.filter_append, ih]; rfl

theorem filter_isDat_colorTokens (c : Half) (n : Nat) : (colorTokens c n).filter Token.isDat = colorTokens c n := by
  induction n with
  | zero => rfl
  | succ n ih => rw [colorTokens_succ, List.filter_append, ih]; rfl

theorem windowTokens_isCmd_length (c : Config) (v : Window) : ((windowTokens c v).filter Token.isCmd).length = 3 := rfl

theorem windowTokens_isDat_length (c : Config) (v : Window) : ((windowTokens c v).filter Token.isDat).length = 8 := rfl

/-- Settles O24: the tokens of an accepted window are its eleven and two for each pixel, and each kind is counted in
the two parts. -/
theorem windowTransaction : Obligations.WindowTransaction := by
  intro v c s hr
  refine ⟨fun hv => ⟨windowTokens s.cfg v ++ colorTokens c (v.w * v.h), ?tokens, rfl, ?length, ?commands, ?data⟩,
    windowTx_rejects⟩
  case tokens => rw [windowTx_atRest hr, if_pos hv]; rfl
  case length => rw [List.length_append, windowTokens_length, colorTokens_length]
  case commands =>
    rw [List.filter_append, filter_isCmd_colorTokens, List.append_nil, windowTokens_isCmd_length]
  case data =>
    rw [List.filter_append, filter_isDat_colorTokens, List.length_append, windowTokens_isDat_length,
      colorTokens_length]

end Sys2Proof.Machine

/-! SUPPORT. Proofs of the statements of spec/42_raster.md: what each drawing command but DRAW_TEXT streams, the points
of a diagonal line, and the order of a line's endpoints. -/

namespace Sys2Proof.Machine

/-! ### Commands of one window -/

theorem complete_addOut (s : State) (toks : List Token) : complete (s.addOut toks) = s.completed toks := rfl

/-- FILL (R150). -/
theorem exec_fill (c : Half) (s : State) : exec (.fill c) s = .next (complete (windowTx (panelWindow s.cfg) c s)) := rfl

/-- DRAW_PIXEL (R151). -/
theorem exec_drawPixel (x y c : Half) (s : State) :
    exec (.drawPixel x y c) s = .next (complete (drawPixelTx x.toInt y.toInt c s)) := rfl

/-- DRAW_HLINE (R155). -/
theorem exec_drawHLine (x y w c : Half) (s : State) :
    exec (.drawHLine x y w c) s = .next (complete (hline x.toInt y.toInt w.toNat c s)) := rfl

/-- DRAW_VLINE (R159). -/
theorem exec_drawVLine (x y h c : Half) (s : State) :
    exec (.drawVLine x y h c) s = .next (complete (vline x.toInt y.toInt h.toNat c s)) := rfl

/-- DRAW_RECT (R175). -/
theorem exec_drawRect (x y w h c : Half) (s : State) :
    exec (.drawRect x y w h c) s = .next (complete (windowTx ⟨x.toInt, y.toInt, w.toNat, h.toNat⟩ c s)) := rfl

/-- DRAW_LINE (R163). -/
theorem exec_drawLine (x0 y0 x1 y1 c : Half) (s : State) :
    exec (.drawLine x0 y0 x1 y1 c) s = .next (complete (drawLine x0.toInt y0.toInt x1.toInt y1.toInt c s)) := rfl

/-- `hline` from lines at rest (R155). -/
theorem hline_atRest {x y : Int} {w : Nat} {c : Half} {s : State} (hr : AtRest s) :
    hline x y w c s = s.addOut (hlineStream s.cfg x y w c) := by
  rw [hline, drawWindow_atRest hr, windowStream_hline]

/-- `vline` from lines at rest (R159). -/
theorem vline_atRest {x y : Int} {h : Nat} {c : Half} {s : State} (hr : AtRest s) :
    vline x y h c s = s.addOut (vlineStream s.cfg x y h c) := by
  rw [vline, drawWindow_atRest hr, windowStream_vline]

/-- The window test of `window_tx` is the one `rectStream` spells out (R131, R175). -/
theorem windowTx_rectStream {x y : Int} {w h : Nat} {c : Half} {s : State} (hr : AtRest s) :
    windowTx ⟨x, y, w, h⟩ c s = s.addOut (rectStream s.cfg x y w h c) := by
  rw [windowTx_atRest hr, rectStream]
  exact congrArg s.addOut (if_congr (winOk_iff _ _) rfl rfl)

/-- Settles O27: the pixel's window is set exactly on the panel. -/
theorem pixelDrawnOnPanelOnly : Obligations.PixelDrawnOnPanelOnly := by
  intro x y c s hr
  rw [exec_drawPixel, drawPixelTx_atRest hr, complete_addOut]

/-- Settles O28: the window of `hline` is the clipped one. -/
theorem hLineClipsAtTheEdge : Obligations.HLineClipsAtTheEdge := by
  intro x y w c s hr
  rw [exec_drawHLine, hline_atRest hr, complete_addOut]

/-- Settles O29: the window of `vline` is the clipped one. -/
theorem vLineClipsAtTheEdge : Obligations.VLineClipsAtTheEdge := by
  intro x y h c s hr
  rw [exec_drawVLine, vline_atRest hr, complete_addOut]

/-- Settles O30: `window_tx` never clips its window. -/
theorem rectangleWholeOrNothing : Obligations.RectangleWholeOrNothing := by
  intro x y w h c s hr
  rw [exec_drawRect, windowTx_rectStream hr, complete_addOut]

/-- A panel's size fits a 16-bit operand (R7). -/
theorem toNat_ofNat_half {n : Nat} (h : n ≤ 65535) : (BitVec.ofNat 16 n).toNat = n := by
  rw [BitVec.toNat_ofNat, Nat.mod_eq_of_lt (by omega)]

/-- Settles O26: the panel's window is accepted, and X_MAX and Y_MAX fit the 16-bit operands of DRAW_RECT. -/
theorem fillStreamsThePanel : Obligations.FillStreamsThePanel := by
  intro c s hc hr
  refine ⟨?panel, ?rectangle⟩
  case panel =>
    rw [exec_fill, windowTx_atRest hr, if_pos (winOk_panel hc), complete_addOut]
    rfl
  case rectangle =>
    obtain ⟨hx, hy⟩ := panel_le hc
    rw [exec_drawRect, toNat_ofNat_half hx, toNat_ofNat_half hy, exec_fill]
    rfl

/-! ### Lines on an axis (R163, R164) -/

theorem drawLine_vertical (x y0 y1 : Int) (c : Half) (s : State) :
    drawLine x y0 x y1 c s = vline x (min y0 y1) ((y1 - y0).natAbs + 1) c s := if_pos rfl

theorem drawLine_horizontal {x0 x1 : Int} (hx : x0 ≠ x1) (y : Int) (c : Half) (s : State) :
    drawLine x0 y x1 y c s = hline (min x0 x1) y ((x1 - x0).natAbs + 1) c s := by
  rw [drawLine, if_neg hx, if_pos rfl]

theorem drawLine_diagonal {x0 y0 x1 y1 : Int} (hx : x0 ≠ x1) (hy : y0 ≠ y1) (c : Half) (s : State) :
    drawLine x0 y0 x1 y1 c s = diagonal x0 y0 x1 y1 c s := by
  rw [drawLine, if_neg hx, if_neg hy]

/-- The single point is the same pixel as a vertical and as a horizontal line (R164). -/
theorem vlineStream_one (c : Config) (x y : Int) (col : Half) : vlineStream c x y 1 col = hlineStream c x y 1 col := by
  unfold vlineStream hlineStream
  split
  case isTrue h =>
    obtain ⟨⟨hx0, hx, hy0, hy⟩, -⟩ := h
    rw [min_eq_left (show 1 ≤ (c.xMax - x).toNat by omega), min_eq_left (show 1 ≤ (c.yMax - y).toNat by omega)]
  case isFalse => rfl

/-- Settles O31: the two axis forms of `draw_line`; the vertical test comes first, and the single point, which passes
both, is the same stream either way. -/
theorem axisLineIsHOrVLine : Obligations.AxisLineIsHOrVLine := by
  intro x0 y0 x1 y1 c s hr
  refine ⟨?vertical, ?horizontal⟩
  case vertical =>
    rintro rfl
    rw [exec_drawLine, drawLine_vertical, vline_atRest hr, complete_addOut]
  case horizontal =>
    rintro rfl
    rw [exec_drawLine]
    by_cases hx : x0.toInt = x1.toInt
    · rw [hx, drawLine_vertical, vline_atRest hr, min_self, min_self, sub_self, sub_self, Int.natAbs_zero, zero_add,
        vlineStream_one, complete_addOut]
    · rw [drawLine_horizontal hx, hline_atRest hr, complete_addOut]

/-! ### The order of the endpoints (R165) -/

theorem natAbs_sub_comm (a b : Int) : (a - b).natAbs = (b - a).natAbs := by omega

/-- The stepper begins the same from either end of a diagonal line. -/
theorem Stepper.init_swap {x0 y0 x1 y1 : Int} (hx : x0 ≠ x1) (hy : y0 ≠ y1) :
    Stepper.init x1 y1 x0 y0 = Stepper.init x0 y0 x1 y1 := by
  unfold Stepper.init
  rw [natAbs_sub_comm y0, natAbs_sub_comm x0]
  by_cases hsteep : (y1 - y0).natAbs > (x1 - x0).natAbs
  · rcases lt_or_gt_of_ne hy with hlt | hlt <;> simp [hsteep, hlt, hlt.not_gt]
  · rcases lt_or_gt_of_ne hx with hlt | hlt <;> simp [hsteep, hlt, hlt.not_gt]

theorem drawLine_swap (x0 y0 x1 y1 : Int) (c : Half) (s : State) :
    drawLine x1 y1 x0 y0 c s = drawLine x0 y0 x1 y1 c s := by
  by_cases hx : x0 = x1
  · subst hx
    rw [drawLine_vertical, drawLine_vertical, min_comm, natAbs_sub_comm]
  · by_cases hy : y0 = y1
    · subst hy
      rw [drawLine_horizontal hx, drawLine_horizontal (Ne.symm hx), min_comm, natAbs_sub_comm]
    · rw [drawLine_diagonal hx hy, drawLine_diagonal (Ne.symm hx) (Ne.symm hy), diagonal, diagonal,
        Stepper.init_swap hx hy]

/-- Settles O34: `min`, the absolute difference and the stepper's start do not see the order. -/
theorem lineOrderDoesNotMatter : Obligations.LineOrderDoesNotMatter := by
  intro x0 y0 x1 y1 c s
  rw [exec_drawLine, exec_drawLine, drawLine_swap]

/-! ### The points of a diagonal line (R166, R167) -/

/-- `linePoint` is the point the stepper plots after `k` turns. -/
theorem linePoint_eq_point (steep : Bool) (p q sg : Int) {dx dy : Int} (h1 : 1 ≤ dy) (h2 : dy ≤ dx) (k : Nat) :
    linePoint steep p q dx dy sg k = (Stepper.next^[k] (freshStepper steep p q dx dy sg)).point := by
  rw [stepper_iterate steep p q dx dy sg h1 h2 k]
  rfl

/-- After `dx` turns the stepper has made `dy` secondary steps (R167). -/
theorem linePoint_last (p q sg : Int) {dx dy : Int} (h1 : 1 ≤ dy) (h2 : dy ≤ dx) :
    linePoint false p q dx dy sg dx.toNat = (p + dx, q + sg * dy) := by
  have hdx : (dx.toNat : Int) = dx := Int.toNat_of_nonneg (by omega)
  have hrest : (dx - 1 - dx / 2) / dx = 0 := Int.ediv_eq_zero_of_lt (by omega) (by omega)
  have hsteps : (dx * dy + (dx - 1 - dx / 2)) / dx = dy := by
    rw [Int.mul_add_ediv_left _ _ (by omega), hrest, add_zero]
  simp only [linePoint, hdx, hsteps, Bool.false_eq_true, if_false]

/-- One turn moves the point by one on the primary axis, and by nothing or `ystep` on the other (R166, R167). -/
theorem Stepper.point_next {st : Stepper} (h : st.steep = false) :
    st.next.point.1 = st.point.1 + 1 ∧ (st.next.point.2 = st.point.2 ∨ st.next.point.2 = st.point.2 + st.ystep) := by
  rcases st.next_cases with ⟨-, e⟩ | ⟨-, e⟩ <;> simp [e, Stepper.point, h]

/-- The step from one point of a shallow line to the next is a turn of the stepper (R167). -/
theorem linePoint_succ (p q sg : Int) {dx dy : Int} (h1 : 1 ≤ dy) (h2 : dy ≤ dx) (k : Nat) :
    (linePoint false p q dx dy sg (k + 1)).1 = (linePoint false p q dx dy sg k).1 + 1 ∧
      ((linePoint false p q dx dy sg (k + 1)).2 = (linePoint false p q dx dy sg k).2 ∨
       (linePoint false p q dx dy sg (k + 1)).2 = (linePoint false p q dx dy sg k).2 + sg) := by
  rw [linePoint_eq_point false p q sg h1 h2, linePoint_eq_point false p q sg h1 h2, Function.iterate_succ_apply',
    stepper_iterate false p q dx dy sg h1 h2 k]
  exact Stepper.point_next rfl

/-- A steep line is the shallow one with its axes exchanged (R166). -/
theorem linePoint_steep (p q dx dy sg : Int) (k : Nat) :
    linePoint true p q dx dy sg k = ((linePoint false p q dx dy sg k).2, (linePoint false p q dx dy sg k).1) := rfl

/-- Settles O33: the stepper starts at the start, each of its turns is a step of the line, and `dx` turns make `dy`
secondary steps. -/
theorem linePointsAreConnected : Obligations.LinePointsAreConnected := by
  intro p q dx dy sg h1 h2
  refine ⟨linePoint_eq_point false p q sg h1 h2 0, linePoint_last p q sg h1 h2, fun k => ?_⟩
  obtain ⟨hprimary, hsecondary⟩ := linePoint_succ p q sg h1 h2 k
  exact ⟨hprimary, hsecondary, linePoint_steep p q dx dy sg k⟩

/-! ### Diagonal lines (R163, R166, R169) -/

/-- A stepper with roles and endpoints exchanged as R166 asks, in the terms of `linePoint`. -/
theorem Stepper.mk_eq_freshStepper (steep : Bool) {p last y y1 : Int} (hy : y ≠ y1) :
    (⟨steep, p, last, y, (last - p) / 2, last - p, (y1 - y).natAbs, if y1 ≥ y then 1 else -1⟩ : Stepper) =
      freshStepper steep p y (last - p) |y1 - y| (y1 - y).sign := by
  have hstep : (if y1 ≥ y then 1 else -1) = (y1 - y).sign := by
    rcases lt_or_gt_of_ne hy with hlt | hlt
    · rw [if_pos hlt.le, Int.sign_eq_one_of_pos (by omega)]
    · rw [if_neg (by omega), Int.sign_eq_neg_one_of_neg (by omega)]
  rw [freshStepper, hstep, Int.natCast_natAbs, add_sub_cancel]

/-- A shallow line with its endpoints in order. -/
theorem Stepper.init_shallow {x0 y0 x1 y1 : Int} (hd : |y1 - y0| ≤ |x1 - x0|) (hx : x0 < x1) (hy : y0 ≠ y1) :
    Stepper.init x0 y0 x1 y1 = freshStepper false x0 y0 (x1 - x0) |y1 - y0| (y1 - y0).sign := by
  have hsteep : ¬ (y1 - y0).natAbs > (x1 - x0).natAbs := by
    rw [Int.abs_eq_natAbs, Int.abs_eq_natAbs] at hd
    omega
  rw [← Stepper.mk_eq_freshStepper false hy]
  simp [Stepper.init, hsteep, hx.not_gt]

/-- A steep line with its endpoints in order: the roles of `x` and `y` are exchanged. -/
theorem Stepper.init_steep {x0 y0 x1 y1 : Int} (hd : |x1 - x0| < |y1 - y0|) (hy : y0 < y1) (hx : x0 ≠ x1) :
    Stepper.init x0 y0 x1 y1 = freshStepper true y0 x0 (y1 - y0) |x1 - x0| (x1 - x0).sign := by
  have hsteep : (y1 - y0).natAbs > (x1 - x0).natAbs := by
    rw [Int.abs_eq_natAbs, Int.abs_eq_natAbs] at hd
    omega
  rw [← Stepper.mk_eq_freshStepper true hx]
  simp [Stepper.init, hsteep, hy.not_gt]

/-- A stepper before its first point plots the `dx + 1` points of `linePoint` (R166, R167, R169). -/
theorem plotPoints_freshStepper {steep : Bool} {p q dx dy sg : Int} (h1 : 1 ≤ dy) (h2 : dy ≤ dx) (c : Half)
    {s : State} (hr : AtRest s) :
    plotPoints c (freshStepper steep p q dx dy sg).remaining (freshStepper steep p q dx dy sg) s =
      s.addOut (pointsStream s.cfg ((List.range (dx.toNat + 1)).map (linePoint steep p q dx dy sg)) c) := by
  have hn : (freshStepper steep p q dx dy sg).remaining = dx.toNat + 1 := by
    simp only [Stepper.remaining, freshStepper]
    omega
  have hpoints : linePoint steep p q dx dy sg = fun k => (Stepper.next^[k] (freshStepper steep p q dx dy sg)).point :=
    funext (linePoint_eq_point steep p q sg h1 h2)
  rw [hn, plotPoints_atRest c _ _ s hr, hpoints]

/-- A DRAW_LINE whose stepper begins as `freshStepper`. -/
theorem exec_drawLine_diagonal {x0 y0 x1 y1 : Half} {steep : Bool} {p q dx dy sg : Int} (hx : x0.toInt ≠ x1.toInt)
    (hy : y0.toInt ≠ y1.toInt)
    (hinit : Stepper.init x0.toInt y0.toInt x1.toInt y1.toInt = freshStepper steep p q dx dy sg) (h1 : 1 ≤ dy)
    (h2 : dy ≤ dx) (c : Half) {s : State} (hr : AtRest s) :
    exec (.drawLine x0 y0 x1 y1 c) s = .next (s.completed
      (pointsStream s.cfg ((List.range (dx.toNat + 1)).map (linePoint steep p q dx dy sg)) c)) := by
  rw [exec_drawLine, drawLine_diagonal hx hy, diagonal, hinit, plotPoints_freshStepper h1 h2 c hr, complete_addOut]

/-- A shallow DRAW_LINE with its endpoints in order. -/
theorem exec_drawLine_shallow {x0 y0 x1 y1 : Half} (hd : |y1.toInt - y0.toInt| ≤ |x1.toInt - x0.toInt|)
    (hx : x0.toInt < x1.toInt) (hy : y0.toInt ≠ y1.toInt) (c : Half) {s : State} (hr : AtRest s) :
    exec (.drawLine x0 y0 x1 y1 c) s = .next (s.completed (pointsStream s.cfg
      ((List.range ((x1.toInt - x0.toInt).toNat + 1)).map (linePoint false x0.toInt y0.toInt (x1.toInt - x0.toInt)
        |y1.toInt - y0.toInt| (y1.toInt - y0.toInt).sign)) c)) :=
  exec_drawLine_diagonal hx.ne hy (Stepper.init_shallow hd hx hy) (Int.one_le_abs (sub_ne_zero.2 hy.symm))
    (hd.trans_eq (abs_of_pos (sub_pos.2 hx))) c hr

/-- A steep DRAW_LINE with its endpoints in order. -/
theorem exec_drawLine_steep {x0 y0 x1 y1 : Half} (hd : |x1.toInt - x0.toInt| < |y1.toInt - y0.toInt|)
    (hy : y0.toInt < y1.toInt) (hx : x0.toInt ≠ x1.toInt) (c : Half) {s : State} (hr : AtRest s) :
    exec (.drawLine x0 y0 x1 y1 c) s = .next (s.completed (pointsStream s.cfg
      ((List.range ((y1.toInt - y0.toInt).toNat + 1)).map (linePoint true y0.toInt x0.toInt (y1.toInt - y0.toInt)
        |x1.toInt - x0.toInt| (x1.toInt - x0.toInt).sign)) c)) :=
  exec_drawLine_diagonal hx hy.ne (Stepper.init_steep hd hy hx) (Int.one_le_abs (sub_ne_zero.2 hx.symm))
    (hd.le.trans_eq (abs_of_pos (sub_pos.2 hy))) c hr

/-- Settles O32: the stepper of a line with its endpoints in order is a `freshStepper`, and a line with its endpoints
exchanged is the line in order (R165). -/
theorem diagonalLinePlotsItsPoints : Obligations.DiagonalLinePlotsItsPoints := by
  intro x0 y0 x1 y1 c s hr hx hy
  replace hx : x0.toInt ≠ x1.toInt := fun h => hx (BitVec.eq_of_toInt_eq h)
  replace hy : y0.toInt ≠ y1.toInt := fun h => hy (BitVec.eq_of_toInt_eq h)
  refine ⟨fun hd h => ?shallow, fun hd h => ?shallowExchanged, fun hd h => ?steep, fun hd h => ?steepExchanged⟩
  case shallow => exact exec_drawLine_shallow hd (sub_pos.1 h) hy c hr
  case shallowExchanged =>
    rw [abs_sub_comm, abs_sub_comm x1.toInt] at hd
    rw [lineOrderDoesNotMatter, abs_sub_comm, neg_sub, neg_sub]
    exact exec_drawLine_shallow hd (sub_neg.1 h) hy.symm c hr
  case steep => exact exec_drawLine_steep hd (sub_pos.1 h) hx c hr
  case steepExchanged =>
    rw [abs_sub_comm, abs_sub_comm y1.toInt] at hd
    rw [lineOrderDoesNotMatter, abs_sub_comm, neg_sub, neg_sub]
    exact exec_drawLine_steep hd (sub_neg.1 h) hx.symm c hr

end Sys2Proof.Machine

/-! SUPPORT. Proofs of the statements of spec/43_glyph.md: glyph addresses and the two searches, LOOKUP_GLYPH, a
DRAW_TEXT that completes, and when the result registers change. -/

namespace Sys2Proof.Machine

/-! ### DRAW_TEXT that completes (R207-R215) -/

/-- DRAW_TEXT (R207). -/
theorem exec_drawText (a : TextArgs) (s : State) : exec (.drawText a) s = .next (drawText a s) := rfl

/-- A font no wider than 8 is not refused, and the cursor begins at `sext_16(X)` (R207, R214). -/
theorem drawText_narrow {a : TextArgs} (hfw : a.fw.toNat ≤ 8) (s : State) :
    drawText a s = textLoop a textBurst a.text (a.x.signExtend 32) s := by
  rw [drawText, if_neg (Nat.not_lt.2 hfw), cursorOf_sext16]

/-- At a readable terminator the text ends (R208, R213). -/
theorem textLoop_terminator {s : State} {p : Word} (h : ReadsAs s p 0x00) (a : TextArgs) (n : Nat) (cx : Word) :
    textLoop a (n + 1) p cx s = endText cx s := by
  rw [textLoop, memRead_of_readsAs h]
  exact if_pos rfl

/-- A whole text is drawn within as many turns as it has characters and one for the terminator (R207-R214). -/
theorem textLoop_hasText {a : TextArgs} {n : Nat} {cs : List Byte} {p : Word} {s : State} (hn : cs.length < n)
    (hr : AtRest s) (ht : HasText s p cs) (hg : GlyphsReadable s a.table cs) (cx : Word) :
    textLoop a n p cx s = endText (cx + BitVec.ofNat 32 (a.fw.toNat * foundCount a.table cs))
      (s.addOut (textStream s a cx cs)) := by
  obtain ⟨hchars, hend⟩ := ht
  obtain ⟨k, rfl⟩ : ∃ k, n = cs.length + (k + 1) := ⟨n - cs.length - 1, by omega⟩
  rw [textLoop_readable (k + 1) hr hchars hg, textLoop_terminator (hend.addOut _)]

/-- Settles O39: the text loop draws the characters one after another, by induction over them (`textLoop_readable`),
and its last turn reads the terminator. -/
theorem textDrawsItsGlyphs : Obligations.TextDrawsItsGlyphs := by
  intro a s cs hr hfw hlen ht hg
  rw [exec_drawText, drawText_narrow hfw, textLoop_hasText (n := textBurst) hlen hr ht hg]
  rfl

/-! ### The binary search (R202, R203) -/

/-- The binary search finds the entry `ch - FIRST` exactly if it lies between `lo` and `hi`, with one turn of fuel for
each entry between them (R203). -/
theorem searchFrom_eq (t : GlyphTable) (ch : Byte) {n : Nat} {lo hi : Int} (hn : hi - lo < n) :
    searchFrom t ch n lo hi =
      if lo ≤ (ch.toNat : Int) - t.first.toNat ∧ (ch.toNat : Int) - t.first.toNat ≤ hi then
        some (glyphRef t (ch.toNat - t.first.toNat))
      else none := by
  induction n generalizing lo hi with
  | zero => rw [searchFrom, if_neg (by omega)]
  | succ n ih =>
    simp only [searchFrom, zext8]
    by_cases hle : lo ≤ hi
    · rw [if_pos hle]
      rcases lt_trichotomy ((t.first.toNat : Int) + (lo + hi) / 2) ch.toNat with hlt | heq | hgt
      · rw [if_neg hlt.ne, if_pos hlt, ih (by omega)]
        exact if_congr (by omega) rfl rfl
      · rw [if_pos heq, if_pos (by omega), show ((lo + hi) / 2).toNat = ch.toNat - t.first.toNat by omega]
      · rw [if_neg hgt.ne', if_neg hgt.not_gt, ih (by omega)]
        exact if_congr (by omega) rfl rfl
    · rw [if_neg hle, if_neg (by omega)]

/-- Settles O37: the entries 0 to COUNT - 1 are the characters the range check accepts. -/
theorem binarySearchAgrees : Obligations.BinarySearchAgrees := by
  intro t ch
  rw [searchGlyph, searchFrom_eq t ch (by omega), lookupGlyph]
  exact if_congr (by simp only [zext8, zext16]; omega) rfl rfl

/-! ### Stored rows (R201, R215) -/

/-- Settles O38, by induction on the display row: the reference is row 0, and each step back is one display row down. -/
theorem displayRowUsesStoredRow : Obligations.DisplayRowUsesStoredRow := by
  intro a ch r h
  rw [glyphRef_eq_rowAddr h]
  induction r with
  | zero => rfl
  | succ r ih => rw [Function.iterate_succ_apply', ih, rowBefore_rowAddr]

/-! ### LOOKUP_GLYPH (R204) -/

/-- LOOKUP_GLYPH (R204). -/
theorem exec_lookupGlyph (ch : Byte) (t : GlyphTable) (s : State) :
    exec (.lookupGlyph ch t) s = .next { s with lookup := lookupResult (lookupGlyph t ch), seq := .idle } := rfl

/-- The lookup result of a character: found at display row 0 of its glyph, or not found (R202, R204). -/
theorem lookupResult_lookupGlyph (t : GlyphTable) (ch : Byte) :
    lookupResult (lookupGlyph t ch) = if inTable t ch then ⟨true, rowAddr t ch 0⟩ else ⟨false, 0x00000000⟩ := by
  cases h : inTable t ch with
  | true => rw [lookupGlyph_some h, glyphRef_eq_rowAddr h]; rfl
  | false => rw [lookupGlyph_none h]; rfl

/-- Settles O36: display row 0 is stored row GH - 1. -/
theorem lookupGlyphResult : Obligations.LookupGlyphResult := by
  intro ch t s
  rw [exec_lookupGlyph, lookupResult_lookupGlyph]
  simp only [inTable, decide_eq_true_eq, rowAddr, Nat.cast_zero, sub_zero]

/-! ### When the result registers change (R205, R213) -/

/-- From `s` to `t` both result registers keep their values (R286). -/
def KeepsResults (s t : State) : Prop := t.lookup = s.lookup ∧ t.resultX = s.resultX

theorem KeepsResults.refl (s : State) : KeepsResults s s := ⟨rfl, rfl⟩

/-- `t` is the state in which LOOKUP_GLYPH, in the latch of `s`, has written the lookup result and completed (R205). -/
def LookupCompletes (s t : State) : Prop :=
  t.seq = .idle ∧ t.resultX = s.resultX ∧ ∃ ch tb, s.latch = .lookupGlyph ch tb

/-- `t` is the state in which DRAW_TEXT, in the latch of `s`, has written RESULT_X and completed (R213). -/
def TextCompletes (s t : State) : Prop := t.seq = .idle ∧ t.lookup = s.lookup ∧ ∃ a, s.latch = .drawText a

/-- The trap action leaves the result registers alone (R244). -/
theorem raiseFault_keepsResults (code : BitVec 4) (s : State) : KeepsResults s (raiseFault code s) := by
  obtain ⟨o, d, h⟩ := raiseFault_frame code s
  exact h ▸ ⟨rfl, rfl⟩

/-- So does every step of a transaction, at each of its places (R136). -/
theorem advanceTx_keepsResults (ready : Bool) (w : Work) (t : Tx) (s : State) :
    KeepsResults s (advanceTx ready w t s) := by
  unfold advanceTx
  split
  case h_1 => exact ⟨rfl, rfl⟩
  case h_2 =>
    split
    · split_ifs <;> exact ⟨rfl, rfl⟩
    · split <;> exact ⟨rfl, rfl⟩
    · exact .refl s
  case h_3 => split <;> exact ⟨rfl, rfl⟩
  case h_4 => split <;> exact ⟨rfl, rfl⟩
  case h_5 => exact ⟨rfl, rfl⟩

/-- The end of a command writes a result register for LOOKUP_GLYPH alone (R205). -/
theorem finishCommand_results (s : State) :
    KeepsResults s (finishCommand s) ∨ LookupCompletes s (finishCommand s) := by
  unfold finishCommand
  split
  case h_1 ch tb hlatch => exact .inr ⟨rfl, rfl, ch, tb, hlatch⟩
  case h_2 => exact .inl ⟨rfl, rfl⟩

/-- A step of the stepper writes none unless the command ends with it (R166). -/
theorem advanceLine_results (c : Half) (st : Stepper) (s : State) :
    KeepsResults s (advanceLine c st s) ∨ LookupCompletes s (advanceLine c st s) := by
  unfold advanceLine
  split
  case isTrue => exact .inl ⟨rfl, rfl⟩
  case isFalse => exact finishCommand_results s

/-- A step of DRAW_TEXT writes RESULT_X at the terminator alone (R213). -/
theorem advanceText_results (ready : Bool) {a : TextArgs} (pt : TextPoint) {s : State} (ha : s.latch = .drawText a) :
    KeepsResults s (advanceText ready a pt s) ∨ TextCompletes s (advanceText ready a pt s) := by
  cases pt with
  | start =>
    simp only [advanceText]
    split
    · exact .inl (raiseFault_keepsResults _ s)
    · exact .inl ⟨rfl, rfl⟩
  | char p cx =>
    simp only [advanceText]
    split
    · split
      · exact .inl (raiseFault_keepsResults _ s)
      · rename_i hm
        obtain ⟨n, rfl⟩ := memRead_frame hm
        split
        · exact .inr ⟨rfl, rfl, a, ha⟩
        · split <;> exact .inl ⟨rfl, rfl⟩
    · exact .inl (.refl s)
  | row p cx ref row =>
    simp only [advanceText]
    split
    · exact .inl ⟨rfl, rfl⟩
    · split
      · split
        · exact .inl (raiseFault_keepsResults _ s)
        · rename_i hm
          obtain ⟨n, rfl⟩ := memRead_frame hm
          exact .inl ⟨rfl, rfl⟩
      · exact .inl (.refl s)
  | col p cx ref row b col =>
    simp only [advanceText]
    split <;> exact .inl ⟨rfl, rfl⟩

/-- A step of a command keeps both result registers, or completes LOOKUP_GLYPH or DRAW_TEXT (R205, R213, R286). -/
theorem advance_results (ready : Bool) (s : State) :
    KeepsResults s (advance ready s) ∨
    (∃ w, s.seq = .exec w) ∧ (LookupCompletes s (advance ready s) ∨ TextCompletes s (advance ready s)) := by
  unfold advance
  split
  case h_1 => exact .inl (advanceTx_keepsResults ready _ _ s)
  case h_2 hs => exact (finishCommand_results s).imp_right fun h => ⟨⟨_, hs⟩, .inl h⟩
  case h_3 hs => exact (advanceLine_results _ _ s).imp_right fun h => ⟨⟨_, hs⟩, .inl h⟩
  case h_4 hs =>
    split
    case h_1 a ha =>
      exact (advanceText_results ready _ (eq_drawText_of_latchText ha)).imp_right fun h => ⟨⟨_, hs⟩, .inr h⟩
    case h_2 => exact .inl (.refl s)
  case h_5 => exact .inl (.refl s)
  case h_6 => exact .inl (.refl s)

/-- Settles O44: a step that changes a result register does not keep both, so it completes LOOKUP_GLYPH, which leaves
RESULT_X alone, or DRAW_TEXT, which leaves the lookup result alone. -/
theorem resultsChangeAtCompletionOnly : Obligations.ResultsChangeAtCompletionOnly := by
  intro ready s hchange
  rcases advance_results ready s with
    ⟨hlookup, hresult⟩ | ⟨⟨w, hs⟩, ⟨hidle, hresult, hlatch⟩ | ⟨hidle, hlookup, hlatch⟩⟩
  · exact (hchange.elim (· hlookup) (· hresult)).elim
  · exact ⟨by simp [hs], by simp [hs], hidle, fun _ => hlatch, fun h => absurd hresult h⟩
  · exact ⟨by simp [hs], by simp [hs], hidle, fun h => absurd hlookup h, fun _ => hlatch⟩

end Sys2Proof.Machine

/-! SUPPORT. Proofs of the statements of spec/60_exceptions.md: bad geometry, the three faults, and the halted block. -/

namespace Sys2Proof.Machine

/-! ### The trap action (R244) -/

/-- Inside a transaction a fault closes it (R244). -/
theorem raiseFault_active {s : State} (hs : s.cs = .active) (code : BitVec 4) :
    raiseFault code s =
      { s with out := s.out ++ [.desel], cs := .inactive, faultCode := code, seq := .halted } := by
  rw [raiseFault, closeTransaction, if_pos hs]
  rfl

/-- Settles O54, by the level of `cs`. -/
theorem raiseFaultHalts : Obligations.RaiseFaultHalts := fun code _ =>
  ⟨fun hs => raiseFault_inactive hs code, fun hs => raiseFault_active hs code⟩

/-! ### Every command answers (R240, R243, R250) -/

/-- Settles O14: the meaning of each command is a next state. -/
theorem everyCommandAnswersNext : Obligations.EveryCommandAnswersNext := by
  intro i s
  cases i with
  | nop => exact ⟨complete s, rfl⟩
  | fill c => exact ⟨_, exec_fill c s⟩
  | drawPixel x y c => exact ⟨_, exec_drawPixel x y c s⟩
  | drawHLine x y w c => exact ⟨_, exec_drawHLine x y w c s⟩
  | drawVLine x y h c => exact ⟨_, exec_drawVLine x y h c s⟩
  | drawLine x0 y0 x1 y1 c => exact ⟨_, exec_drawLine x0 y0 x1 y1 c s⟩
  | drawRect x y w h c => exact ⟨_, exec_drawRect x y w h c s⟩
  | drawText a => exact ⟨_, exec_drawText a s⟩
  | lookupGlyph ch t => exact ⟨_, exec_lookupGlyph ch t s⟩

/-! ### Bad geometry (R240, R241) -/

/-- A point off the panel, in the words of R16. -/
theorem onPanel_eq_false {c : Config} {x y : Int} (h : ¬(0 ≤ x ∧ x < c.xMax ∧ 0 ≤ y ∧ y < c.yMax)) :
    onPanel c x y = false :=
  Bool.eq_false_iff.2 (mt (onPanel_iff c x y).1 h)

/-- A pixel off the panel sets no window (R152). -/
theorem exec_drawPixel_silent {s : State} {x y : Half} (h : onPanel s.cfg x.toInt y.toInt = false) (c : Half) :
    exec (.drawPixel x y c) s = .next (complete s) := by
  have hnone : pixelWindow s.cfg x.toInt y.toInt = none := if_neg (by simp [h])
  rw [exec_drawPixel, drawPixelTx, hnone, drawWindow]

/-- A horizontal line from off the panel, or of no width, sets no window (R155). -/
theorem exec_drawHLine_silent {s : State} {x y w : Half} (h : onPanel s.cfg x.toInt y.toInt = false ∨ w = 0)
    (c : Half) : exec (.drawHLine x y w c) s = .next (complete s) := by
  have hnone : hlineWindow s.cfg x.toInt y.toInt w.toNat = none := if_pos (by simpa [BitVec.toNat_eq] using h)
  rw [exec_drawHLine, hline, hnone, drawWindow]

/-- A vertical line from off the panel, or of no height, sets no window (R159). -/
theorem exec_drawVLine_silent {s : State} {x y h : Half} (hh : onPanel s.cfg x.toInt y.toInt = false ∨ h = 0)
    (c : Half) : exec (.drawVLine x y h c) s = .next (complete s) := by
  have hnone : vlineWindow s.cfg x.toInt y.toInt h.toNat = none := if_pos (by simpa [BitVec.toNat_eq] using hh)
  rw [exec_drawVLine, vline, hnone, drawWindow]

/-- A rectangle whose window is rejected emits nothing (R175, R176). -/
theorem exec_drawRect_silent {s : State} {x y w h : Half}
    (hrej : winOk s.cfg ⟨x.toInt, y.toInt, w.toNat, h.toNat⟩ = false) (c : Half) :
    exec (.drawRect x y w h c) s = .next (complete s) := by
  rw [exec_drawRect, windowTx_rejects hrej]

/-- The lowest bit does not matter to the bits above it. -/
theorem concat_ushiftRight_one {n : Nat} (x : BitVec n) (a b : Bool) : x.concat a >>> 1 = x.concat b >>> 1 := by
  apply BitVec.eq_of_getLsbD_eq
  intro i _
  simp only [BitVec.getLsbD_ushiftRight, Nat.add_comm 1 i, BitVec.getLsbD_concat_succ]

/-- Of STATUS, a command that completes with nothing else changed changes BUSY alone (R23, R24). -/
theorem status_complete_ushiftRight {s : State} (hs : s.seq ≠ .halted) :
    status (complete s) >>> 1 = status s >>> 1 := by
  have hhalted : halted s = halted (complete s) := halted_eq_false hs
  have hupper : statusUpper (complete s) = statusUpper s := by
    simp only [statusUpper, faultField, hhalted, complete_lookup, complete_faultCode]
  rw [status_eq, status_eq, hupper, hhalted]
  exact concat_ushiftRight_one _ _ _

/-- Settles O35: the operation sets no window, or `window_tx` rejects it, so the command only completes. -/
theorem badGeometryIsSilent : Obligations.BadGeometryIsSilent := by
  intro s x y w h c
  exact ⟨fun hout => exec_drawPixel_silent (onPanel_eq_false hout) c,
    fun hout => exec_drawHLine_silent (hout.imp_left onPanel_eq_false) c,
    fun hout => exec_drawVLine_silent (hout.imp_left onPanel_eq_false) c,
    fun hrej => exec_drawRect_silent hrej c, status_complete_ushiftRight⟩

/-! ### Fault 1, an illegal opcode (R245) -/

/-- Everything that moves the sequencer takes `s` to `t`: an undisturbed step, a move of the block, and a block turn of
the plan, which leaves the plan (log 4). -/
def SequencerMoves (s t : State) : Prop :=
  (s.plan = [] → step s = .next t) ∧ (∀ ready, blockMove ready s = t) ∧
    ∀ ready p, s.plan = .block ready :: p → step s = .next { t with plan := p }

/-- An opcode of 0x09 or more needs no further word (R80, R245). -/
theorem decode_illegal {w0 : Word} (h : 0x09 ≤ (byte3 w0).toNat) (ws : List Word) :
    decode (w0 :: ws) = .illegal ws := by
  obtain ⟨hlen, hillegal, -⟩ := decodeByOpcodeAndLength.2 w0 ws
  exact hillegal (hlen.2 h)

theorem blockMove_illegal {s : State} {rest : List Word} (hs : s.seq = .idle) (hd : decode s.fifo = .illegal rest)
    (ready : Bool) : blockMove ready s = takeIllegal rest s := by
  simp [blockMove, hs, hd]

theorem step_illegal {s : State} {rest : List Word} (hn : settleWaiting s = none) (hp : s.plan = [])
    (hs : s.seq = .idle) (hd : decode s.fifo = .illegal rest) : step s = .next (takeIllegal rest s) := by
  simp [step, nextMove, hn, hp, quietMove, hs, hd]

/-- With no CMD write waiting the header is removed and the block halts with code 1, which emits nothing. -/
theorem takeIllegal_notWaiting {s : State} (hcs : s.cs = .inactive) (hw : s.waiting = none) (rest : List Word) :
    takeIllegal rest s = { s with fifo := rest, faultCode := 1, seq := .halted } := by
  rw [takeIllegal_eq hw]
  exact raiseFault_inactive (s := { s with fifo := rest }) hcs illegalOpcodeCode

/-- A CMD write that waits ends, its word appended or discarded as the free bit says (log 9). -/
theorem takeIllegal_waiting {s : State} {v : Word} (hcs : s.cs = .inactive) (hw : s.waiting = some v)
    (rest : List Word) :
    takeIllegal rest s = { s with
      fifo := if freeBit s.draws then rest ++ [v] else rest
      waiting := none, draws := s.draws + 1, faultCode := 1, seq := .halted } := by
  simp [takeIllegal, hw, raiseFault_inactive, hcs, illegalOpcodeCode]

/-- Taking an illegal header neither sees the plan nor changes it. -/
theorem takeIllegal_withPlan {s : State} (hcs : s.cs = .inactive) (rest : List Word) (p : List Turn) :
    takeIllegal rest { s with plan := p } = { takeIllegal rest s with plan := p } := by
  cases hw : s.waiting with
  | none => simp [takeIllegal, hw, raiseFault_inactive, hcs]
  | some v => simp [takeIllegal, hw, raiseFault_inactive, hcs]

/-- Whatever moves the sequencer of an idle block takes an illegal header from the FIFO head. -/
theorem illegalHeader_moves {s : State} {rest : List Word} (hs : s.seq = .idle) (hcs : s.cs = .inactive)
    (hn : settleWaiting s = none) (hd : decode s.fifo = .illegal rest) : SequencerMoves s (takeIllegal rest s) := by
  refine ⟨fun hp => step_illegal hn hp hs hd, blockMove_illegal hs hd, fun ready p hp => ?_⟩
  rw [step_takeTurn hn hp, takeTurn, blockMove_illegal (s := { s with plan := p }) hs hd, takeIllegal_withPlan hcs]

/-- Settles O10: the header decodes as illegal whatever follows it, and a CMD write that waits on the full FIFO does not
end before. -/
theorem illegalOpcodeFaults : Obligations.IllegalOpcodeFaults := by
  intro s w0 ws hs hcs hf hopc
  have hd : decode s.fifo = .illegal ws := hf ▸ decode_illegal hopc ws
  refine ⟨fun hw => ?_, fun v hw hfull => ⟨if freeBit s.draws then ws ++ [v] else ws, ?_, ?_⟩⟩
  · exact takeIllegal_notWaiting hcs hw ws ▸ illegalHeader_moves hs hcs (settleWaiting_none hw) hd
  · split
    · exact .inr rfl
    · exact .inl rfl
  · exact takeIllegal_waiting hcs hw ws ▸ illegalHeader_moves hs hcs (settleWaiting_full (by simp [hs]) hfull) hd

/-! ### Fault 3, a font too wide (R247) -/

/-- A font wider than 8 is refused before the text loop begins. -/
theorem drawText_wide {a : TextArgs} (hfw : 8 < a.fw.toNat) (s : State) :
    drawText a s = raiseFault fontFormatCode s := if_pos hfw

/-- Settles O40: the check of FW comes first, and the fault emits nothing outside a transaction. -/
theorem wideFontFaults : Obligations.WideFontFaults := by
  intro a s hcs hfw
  rw [exec_drawText, drawText_wide hfw, raiseFault_inactive hcs]
  rfl

/-! ### Fault 2, an unreadable source byte (R246) -/

/-- A read outside SRC_MAP fails (R54). -/
theorem memRead_unreadable {s : State} {p : Word} (h : srcReadable s.cfg p = false) : memRead p s = .fail := by
  simp [memRead, h]

/-- At an unreadable text byte the text faults (R246). -/
theorem textLoop_unreadable {s : State} {p : Word} (h : srcReadable s.cfg p = false) (a : TextArgs) (n : Nat)
    (cx : Word) : textLoop a (n + 1) p cx s = raiseFault srcReadErrorCode s := by
  rw [textLoop, memRead_unreadable h]

/-- The characters that can be read are drawn, and at least one turn of the text loop is left for the byte after them
(R207-R214). -/
theorem drawText_readable {a : TextArgs} {s : State} {cs : List Byte} (hr : AtRest s) (hfw : a.fw.toNat ≤ 8)
    (hlen : cs.length < 2 ^ 32) (hchars : HasChars s a.text cs) (hg : GlyphsReadable s a.table cs) :
    ∃ n, drawText a s = textLoop a (n + 1) (textEnd a.text cs.length) (cursorAfter a cs)
      (s.addOut (textStream s a (a.x.signExtend 32) cs)) := by
  obtain ⟨n, hn⟩ : ∃ n, textBurst = cs.length + n + 1 := Nat.exists_eq_add_of_lt hlen
  refine ⟨n, ?_⟩
  rw [drawText_narrow hfw, hn, Nat.add_assoc, textLoop_readable (n + 1) hr hchars hg, cursorAfter]

/-- Settles O41: the text loop draws the characters, and its next turn reads the byte after them. -/
theorem unreadableTextFaults : Obligations.UnreadableTextFaults := by
  intro a s cs hr hfw hlen hchars hg hend
  obtain ⟨n, hdraw⟩ := drawText_readable hr hfw hlen hchars hg
  rw [exec_drawText, hdraw, textLoop_unreadable (s := s.addOut _) hend, raiseFault_inactive (hr.addOut _).1]
  rfl

/-- A text is its first characters and the others, from the address after them on (R208). -/
theorem HasChars.of_append {s : State} {p : Word} {cs ds : List Byte} (h : HasChars s p (cs ++ ds)) :
    HasChars s p cs ∧ HasChars s (textEnd p cs.length) ds := by
  induction cs generalizing p with
  | nil => exact ⟨trivial, by simpa [textEnd] using h⟩
  | cons c cs ih =>
    obtain ⟨hne, hread, hrest⟩ := h
    obtain ⟨hcs, hds⟩ := ih hrest
    have hend : textEnd (p + 1) cs.length = textEnd p (cs.length + 1) := by
      rw [textEnd, textEnd, BitVec.add_assoc, BitVec.add_comm 1, BitVec.ofNat_add]
      rfl
    exact ⟨⟨hne, hread, hcs⟩, hend ▸ hds⟩

/-- Display row `r` of a glyph being unreadable, the rows before it are drawn and then the text faults (R246, R249). -/
theorem drawRows_unreadable {a : TextArgs} {cx : Word} {ch : Byte} {r n : Nat} {s : State} (hr : AtRest s)
    (hlt : r < n)
    (hrows : ∀ k < r, srcReadable s.cfg (rowAddr a.table ch k) = true ∧ racing s (rowAddr a.table ch k) = false)
    (hbad : srcReadable s.cfg (rowAddr a.table ch r) = false) :
    drawRows a cx n 0 (rowAddr a.table ch 0) s =
      .stop (raiseFault srcReadErrorCode (s.addOut (glyphRows s a cx.toInt ch r))) := by
  obtain ⟨m, rfl⟩ : ∃ m, n = r + (m + 1) := Nat.exists_eq_add_of_lt hlt
  have hread : RowsReadable s a.table ch 0 r := fun k hk => by simpa using hrows k hk
  rw [drawRows_readable r (m + 1) 0 hr hread, rowsStream_zero, Nat.zero_add, drawRows,
    memRead_unreadable (s := s.addOut _) hbad]

/-- A found character whose rows end in a fault ends the text with it (R207, R246). -/
theorem textLoop_rowsStop {a : TextArgs} {ch : Byte} {p cx : Word} {s t : State} (hne : ch ≠ 0x00)
    (hread : ReadsAs s p ch) (hin : inTable a.table ch = true)
    (hstop : drawRows a cx a.table.gh.toNat 0 (rowAddr a.table ch 0) s = .stop t) (n : Nat) :
    textLoop a (n + 1) p cx s = t := by
  rw [textLoop, memRead_of_readsAs hread]
  simp only [hne, if_false, lookupGlyph_some hin, glyphRef_eq_rowAddr hin, zext8, hstop]

/-- Settles O42: the text loop draws the characters before, and its next turn draws the rows before the unreadable
one. -/
theorem unreadableGlyphFaults : Obligations.UnreadableGlyphFaults := by
  intro a s cs ch r hr hfw hlen hchars hg hin hlt hrows hbad
  obtain ⟨hcs, hne, hread, -⟩ := hchars.of_append
  obtain ⟨n, hdraw⟩ := drawText_readable hr hfw hlen hcs hg
  have hstop := drawRows_unreadable (cx := cursorAfter a cs) (hr.addOut (textStream s a (a.x.signExtend 32) cs)) hlt
    hrows hbad
  rw [exec_drawText, hdraw, textLoop_rowsStop hne (hread.addOut _) hin hstop,
    raiseFault_inactive ((hr.addOut _).addOut _).1]
  rfl

/-! ### The halted block (R251, R252) -/

/-- A halted block does not move. -/
theorem blockMove_halted {s : State} (hs : s.seq = .halted) (ready : Bool) : blockMove ready s = s := by
  simp [blockMove, hs]

/-- With nothing in the plan a halted block steps to itself (log 13). -/
theorem step_halted {s : State} (hs : s.seq = .halted) (hw : s.waiting = none) (hp : s.plan = []) :
    step s = .next s := by
  simp [step, nextMove, settleWaiting_none hw, hp, quietMove, hs]

/-- A CMD write that waits is discarded (R22, R251). -/
theorem settleWaiting_halted {s : State} (hs : s.seq = .halted) :
    settleWaiting s = s.waiting.map fun _ => { s with waiting := none } := by
  cases hw : s.waiting with
  | none => exact settleWaiting_none hw
  | some v => simp [settleWaiting, hw, halted, hs]

/-- Settles O11: the sequencer does not move, and STATUS is read field by field. -/
theorem haltedBlockStands : Obligations.HaltedBlockStands := by
  intro s hs
  obtain ⟨hbusy, hfull, hempty, hhalted, -⟩ := statusFields s
  refine ⟨step_halted hs, blockMove_halted hs, fun v => writeCmd_halted hs v, fun v hw => ?_, ?_, hhalted.2 hs,
    hfull, ?_, rfl, rfl, fun h => (h.atRest (by simp [hs])).1⟩
  · simp [step, nextMove, settleWaiting_halted hs, hw]
  · exact Bool.eq_false_iff.2 fun h => (hbusy.1 h).1 hs
  · exact hempty.trans List.length_eq_zero_iff

/-- From `s` to `t` only what belongs to the environment has changed: source memory and its race marks, the host's port
and the plan. -/
def EnvironmentChanges (s t : State) : Prop :=
  ∃ m r w d p, t = { s with mem := m, raced := r, waiting := w, readData := d, plan := p }

theorem EnvironmentChanges.refl (s : State) : EnvironmentChanges s s := ⟨_, _, _, _, _, rfl⟩

/-- A host access that is not refused is an aligned word access of a slot (R57). -/
theorem hostAccess_next {a : HostAccess} {s t : State} (h : hostAccess a s = .next t) :
    (∃ addr d, a = .read addr .word ∧ t = { s with readData := d }) ∨
    ∃ addr v, a = .write addr .word v ∧ s.cfg.base ≤ addr ∧ t = writeReg (addr - s.cfg.base) v s := by
  cases a with
  | read addr width =>
    simp only [hostAccess] at h
    split_ifs at h with _ hword
    obtain ⟨rfl, -⟩ := hword
    exact .inl ⟨addr, _, rfl, (Host.Outcome.next.inj h).symm⟩
  | write addr width v =>
    simp only [hostAccess] at h
    split_ifs at h with hin hword
    obtain ⟨rfl, -⟩ := hword
    exact .inr ⟨addr, v, rfl, hin.1, (Host.Outcome.next.inj h).symm⟩

/-- A write to a halted block that does not reset it is discarded or ignored (R22, R27, R251). -/
theorem writeReg_halted {s : State} (hs : s.seq = .halted) {off : Nat} {v : Word}
    (hr : off = 0x10 → v.getLsbD 0 = false) : writeReg off v s = s := by
  by_cases h0 : off = 0x00
  · rw [writeReg, if_pos h0, writeCmd_halted hs]
  · by_cases h10 : off = 0x10
    · rw [writeReg, if_neg h0, if_pos h10, writeCtrl, hr h10, if_neg Bool.false_ne_true]
    · exact writeReg_ignored h0 h10 v s

/-- A host access that does not reset a halted block changes the environment's side alone. -/
theorem hostAccess_halted {a : HostAccess} {s t : State} (hs : s.seq = .halted)
    (hr : (Turn.host a).resets s.cfg = false) (h : hostAccess a s = .next t) : EnvironmentChanges s t := by
  rcases hostAccess_next h with ⟨addr, d, -, rfl⟩ | ⟨addr, v, rfl, hbase, rfl⟩
  · exact ⟨_, _, _, _, _, rfl⟩
  · have hctrl : addr - s.cfg.base = 0x10 → v.getLsbD 0 = false := fun hoff => by
      have haddr : addr = s.cfg.base + 0x10 := by omega
      simpa [Turn.resets, haddr] using hr
    rw [writeReg_halted hs hctrl]
    exact .refl s

/-- A turn of the plan that does not reset a halted block changes the environment's side alone. -/
theorem takeTurn_halted {t : Turn} {rest : List Turn} {s s' : State} (hs : s.seq = .halted)
    (hr : t.resets s.cfg = false) (h : takeTurn t rest s = .next s') : EnvironmentChanges s s' := by
  cases t with
  | host a =>
    simp only [takeTurn] at h
    split at h
    · cases h; rw [blockMove_halted hs]; exact .refl s
    · obtain ⟨_, _, _, _, _, rfl⟩ := hostAccess_halted (s := { s with plan := rest }) hs hr h
      exact ⟨_, _, _, _, _, rfl⟩
  | srcWrite a b => cases h; exact ⟨_, _, _, _, _, rfl⟩
  | hardReset => cases hr
  | block ready =>
    cases h
    rw [blockMove_halted (s := { s with plan := rest }) hs]
    exact ⟨_, _, _, _, _, rfl⟩

/-- Settles O12, by the cases of a step: a waiting CMD write is discarded, a turn changes the environment's side alone,
and the block itself does not move. -/
theorem onlyResetLeavesHalted : Obligations.OnlyResetLeavesHalted := by
  intro s s' hs hreset h
  have hchange : EnvironmentChanges s s' := by
    rcases step_cases h with hset | ⟨-, t, rest, hp, ht⟩ | ⟨-, -, hidle, -⟩ | ⟨-, -, -, rfl⟩
    · rw [settleWaiting_halted hs] at hset
      obtain ⟨v, -, rfl⟩ := Option.map_eq_some_iff.1 hset
      exact ⟨_, _, _, _, _, rfl⟩
    · exact takeTurn_halted hs (hreset t (by simp [hp])) ht
    · rw [hs] at hidle; cases hidle
    · rw [blockMove_halted hs]; exact .refl s
  obtain ⟨_, _, _, _, _, rfl⟩ := hchange
  exact ⟨hs, rfl, rfl, rfl, rfl, rfl⟩

end Sys2Proof.Machine

/-! SUPPORT. Proofs of the statements of spec/70_reset_and_hazards.md: what the controller reads in a transaction that a
reset cuts short, and the build-time parameters. -/

namespace Sys2Proof.Machine

/-! ### Where a transaction can be cut -/

theorem colorTokens_add (col : Half) (i j : Nat) :
    colorTokens col (i + j) = colorTokens col i ++ colorTokens col j := by
  rw [colorTokens, List.replicate_add, List.flatten_append]
  rfl

/-- Cut within `set_window`, or just before it, a transaction has sent a beginning of the window's tokens (R131,
R136). -/
theorem txTokens_take_window {c : Config} {v : Window} {col : Half} {m : Nat} (hm : m ≤ 11) :
    (txTokens c v col).take (m + 1) = .sel :: (windowTokens c v).take m := by
  rw [txTokens, List.cons_append, List.cons_append, List.take_succ_cons, List.append_assoc,
    List.take_append_of_le_length (by rwa [windowTokens_length])]

/-- Every pixel stands in the colour stream behind the pixels before it (R134, R136). -/
theorem txTokens_eq_pixel {c : Config} {v : Window} {col : Half} {j : Nat} (hj : j < v.w * v.h) :
    ∃ rest, txTokens c v col =
      (.sel :: windowTokens c v ++ colorTokens col j) ++ .dat (hi8 col) :: .dat (lo8 col) :: rest := by
  obtain ⟨r, hr⟩ : ∃ r, v.w * v.h = j + (r + 1) := ⟨v.w * v.h - j - 1, by omega⟩
  refine ⟨colorTokens col r ++ [.desel], ?_⟩
  rw [txTokens, hr, colorTokens_add, colorTokens_succ]
  simp [pixelTokens]

/-- Cut between two pixels, a transaction has sent the window and whole pixels (R136). -/
theorem txTokens_take_pixels {c : Config} {v : Window} {col : Half} {j : Nat} (hj : j < v.w * v.h) :
    (txTokens c v col).take (12 + 2 * j) = .sel :: (windowTokens c v ++ colorTokens col j) := by
  obtain ⟨rest, hsplit⟩ := txTokens_eq_pixel (c := c) (col := col) hj
  rw [hsplit, List.take_left' (by simp; omega), List.cons_append]

/-- Cut in the middle of a pixel, it has sent that pixel's high byte besides (R134). -/
theorem txTokens_take_high {c : Config} {v : Window} {col : Half} {j : Nat} (hj : j < v.w * v.h) :
    (txTokens c v col).take (13 + 2 * j) =
      .sel :: (windowTokens c v ++ (colorTokens col j ++ [.dat (hi8 col)])) := by
  obtain ⟨rest, hsplit⟩ := txTokens_eq_pixel (c := c) (col := col) hj
  rw [hsplit, List.append_cons, List.take_left' (by simp; omega)]
  simp

/-- A proper beginning of a transaction ends within `set_window`, between two pixels or in the middle of one (R136). -/
theorem properBeginning_cases {n p : Nat} (h0 : 0 < n) (hn : n < 12 + 2 * p) :
    (∃ m ≤ 10, n = m + 1) ∨ (∃ j < p, n = 12 + 2 * j) ∨ ∃ j < p, n = 13 + 2 * j := by
  by_cases hw : n ≤ 11
  · exact .inl ⟨n - 1, by omega, by omega⟩
  · by_cases he : n % 2 = 0
    · exact .inr (.inl ⟨(n - 12) / 2, by omega, by omega⟩)
    · exact .inr (.inr ⟨(n - 13) / 2, by omega, by omega⟩)

namespace Controller

/-! ### Before the memory write -/

/-- The phase is not that of a memory write (R111). -/
def BeforeWrite (p : Phase) : Prop := ∀ held, p ≠ .memWrite held

/-- Outside a memory write `DESEL` comes mid-command (R114). -/
theorem endWrite_beforeWrite {k : Ctl} (h : BeforeWrite k.phase) : endWrite k = .error .truncated := by
  unfold endWrite
  split
  case h_1 hp => exact absurd hp (h _)
  case h_2 hp => exact absurd hp (h _)
  all_goals rfl

/-- Only OPC_RAMWR begins a memory write (R113). -/
theorem onCommand_beforeWrite {c : Config} {b : Byte} {k k' : Ctl} (hb : b ≠ c.opcRamwr)
    (h : onCommand c b k = .ok k') : BeforeWrite k'.phase := by
  unfold onCommand at h
  split_ifs at h
  · cases h; exact nofun
  · cases h; exact nofun

/-- A data byte begins none (R112). -/
theorem onData_beforeWrite {c : Config} {b : Byte} {k k' : Ctl} (hk : BeforeWrite k.phase)
    (h : onData c b k = .ok k') : BeforeWrite k'.phase := by
  unfold onData at h
  split at h
  case h_5 hp => exact absurd hp (hk _)
  case h_6 hp => exact absurd hp (hk _)
  case h_7 | h_8 => cases h
  all_goals (cases h; exact nofun)

theorem consume_beforeWrite {c : Config} {t : Token} {k k' : Ctl} (ht : t ≠ .cmd c.opcRamwr)
    (hk : BeforeWrite k.phase) (h : consume c k t = .ok k') : BeforeWrite k'.phase := by
  cases t with
  | sel =>
    simp only [consume, onSelect, endWrite_beforeWrite hk] at h
    split at h
    · cases h; exact hk
    · cases h
  | desel =>
    rw [consume, onDeselect, endWrite_beforeWrite hk] at h
    cases h
  | cmd b => exact onCommand_beforeWrite (fun hb => ht (by rw [hb])) h
  | dat b => exact onData_beforeWrite hk h

/-- Until OPC_RAMWR comes, no memory write begins (R113). -/
theorem readOn_beforeWrite {c : Config} {ts : List Token} {k k' : Ctl} (ht : .cmd c.opcRamwr ∉ ts)
    (hk : BeforeWrite k.phase) (h : readOn c k ts = .ok k') : BeforeWrite k'.phase := by
  induction ts generalizing k with
  | nil => cases h; exact hk
  | cons t ts ih =>
    obtain ⟨hhead, htail⟩ := not_or.1 (mt List.mem_cons.2 ht)
    rw [readOn] at h
    cases hc : consume c k t with
    | ok k1 => rw [hc] at h; exact ih htail (consume_beforeWrite (Ne.symm hhead) hk hc) h
    | error e => rw [hc] at h; cases h

/-- A beginning of a stream that has a reading has one. -/
theorem readOn_left_ok {c : Config} {ts us : List Token} {k k' : Ctl} (h : readOn c k (ts ++ us) = .ok k') :
    ∃ k1, readOn c k ts = .ok k1 := by
  induction ts generalizing k with
  | nil => exact ⟨k, rfl⟩
  | cons t ts ih =>
    rw [List.cons_append, readOn] at h
    rw [readOn]
    cases hc : consume c k t with
    | ok k1 => rw [hc] at h; exact ih h
    | error e => rw [hc] at h; cases h

/-- OPC_RAMWR is the last token of `set_window` and no other (R131). -/
theorem ramwr_not_mem_windowTokens_take {c : Config} (v : Window) {m : Nat} (hm : m ≤ 10)
    (h2 : c.opcCaset ≠ c.opcRamwr) (h3 : c.opcRaset ≠ c.opcRamwr) :
    .cmd c.opcRamwr ∉ (windowTokens c v).take m := by
  intro hmem
  have hten : .cmd c.opcRamwr ∈ (windowTokens c v).take 10 := (List.take_subset_take_left _ hm) hmem
  simp [windowTokens, h2.symm, h3.symm] at hten

/-- Cut within `set_window`, the window's tokens end in no reading at `DESEL` (R114). -/
theorem readOn_windowTokens_take_desel {c : Config} {v : Window} {k : Ctl} (hc : c.wf = true)
    (hv : winOk c v = true) (h1 : c.opcCaset ≠ c.opcRaset) (h2 : c.opcCaset ≠ c.opcRamwr)
    (h3 : c.opcRaset ≠ c.opcRamwr) (hk : k.phase = .lost) {m : Nat} (hm : m ≤ 10) :
    readOn c k ((windowTokens c v).take m ++ [.desel]) = .error .truncated := by
  have hwhole := readOn_windowTokens hc hv h1 h2 h3 hk
  rw [← List.take_append_drop m (windowTokens c v)] at hwhole
  obtain ⟨k', hk'⟩ := readOn_left_ok hwhole
  have hbefore : BeforeWrite k'.phase :=
    readOn_beforeWrite (ramwr_not_mem_windowTokens_take v hm h2 h3) (by rw [hk]; exact nofun) hk'
  rw [readOn_append hk']
  exact readOn_stops (endWrite_beforeWrite hbefore)

/-! ### Within the memory write -/

/-- The memory write of the window goes on: no byte is held, and the pointer is not below the last row (R113). -/
def Writing (k : Ctl) : Prop := k.phase = .memWrite none ∧ k.py ≤ k.ye.toNat

/-- Until the last pixel of an accepted window the memory write goes on (R113). -/
theorem readOn_colorTokens_writing {c : Config} {v : Window} (hc : c.wf = true) (hv : winOk c v = true) (col : Half)
    (k : Ctl) {j : Nat} (hj : j < v.w * v.h) :
    ∃ k', readOn c (armed v k) (colorTokens col j) = .ok k' ∧ Writing k' := by
  obtain ⟨hxs, hxe, -, hye⟩ := armed_toNat hc hv k
  obtain ⟨-, -, hw, -⟩ := winOk_bounds hv
  have hrow : j / v.w < v.h := Nat.div_lt_of_lt_mul hj
  refine ⟨_, readOn_colorTokens rfl (windowOk_armed hc hv k) hw hxs hxe hye rfl rfl hj.le, rfl, ?_⟩
  dsimp only
  omega

/-- `DESEL` before the last pixel comes mid-command (R114). -/
theorem onDeselect_writing {k : Ctl} (h : Writing k) : onDeselect k = .error .truncated := by
  obtain ⟨hp, hrow⟩ := h
  simp [onDeselect, endWrite, hp, Nat.not_lt.2 hrow]

/-- `DESEL` after a pixel's high byte leaves an odd number of bytes (R114). -/
theorem readOn_high_desel (c : Config) (b : Byte) {k : Ctl} (h : Writing k) :
    readOn c k [.dat b, .desel] = .error .oddBytes := by
  have hheld : consume c k (.dat b) = .ok { k with phase := .memWrite (some b) } := by
    simp only [consume, onData, h.1]
  rw [readOn_cons hheld]
  exact readOn_stops rfl

end Controller

section

open Controller

/-- Settles O56, by the place of the cut: within `set_window` no memory write has begun, and within the colours it is
not at its end, with a byte held if the cut is in the middle of a pixel. -/
theorem truncatedTransactionHasNoReading : Obligations.TruncatedTransactionHasNoReading := by
  intro c v col k n hc hv h1 h2 h3 hpos hlen
  rw [txTokens_length] at hlen
  have hwindow : readOn c { k with phase := .lost } (windowTokens c v) = .ok (armed v k) :=
    readOn_windowTokens hc hv h1 h2 h3 rfl
  rcases properBeginning_cases hpos (p := v.w * v.h) (by omega) with ⟨m, hm, rfl⟩ | ⟨j, hj, rfl⟩ | ⟨j, hj, rfl⟩
  · rw [if_neg (by omega), txTokens_take_window (by omega), List.cons_append, reading_sel]
    exact readOn_windowTokens_take_desel hc hv h1 h2 h3 rfl hm
  · obtain ⟨k', hread, hwriting⟩ := readOn_colorTokens_writing hc hv col k hj
    rw [if_neg (by omega), txTokens_take_pixels hj, List.cons_append, reading_sel, List.append_assoc,
      readOn_append hwindow, readOn_append hread]
    exact readOn_stops (onDeselect_writing hwriting)
  · obtain ⟨k', hread, hwriting⟩ := readOn_colorTokens_writing hc hv col k hj
    rw [if_pos (by omega), txTokens_take_high hj, List.cons_append, reading_sel, List.append_assoc,
      List.append_assoc, readOn_append hwindow, readOn_append hread]
    exact readOn_high_desel c _ hwriting

end

/-! ### The build-time parameters (R282) -/

theorem CommandChanges.cfg_eq {s t : State} (h : CommandChanges s t) : t.cfg = s.cfg := by
  obtain ⟨_, _, _, _, _, _, _, _, rfl⟩ := h
  rfl

theorem takeIllegal_cfg (rest : List Word) (s : State) : (takeIllegal rest s).cfg = s.cfg := by
  unfold takeIllegal
  split
  · exact (raiseFault_changes _ { s with fifo := rest }).cfg_eq
  · exact (raiseFault_changes _ _).cfg_eq

theorem blockMove_cfg (ready : Bool) (s : State) : (blockMove ready s).cfg = s.cfg := by
  unfold blockMove
  split
  case h_1 =>
    split
    · rfl
    · exact takeIllegal_cfg _ s
    · rfl
  case h_2 => exact (advance_changes ready s).cfg_eq
  case h_3 => rfl

theorem resetBlock_cfg (s : State) : (resetBlock s).cfg = s.cfg := by
  rw [resetBlock_eq]
  rfl

/-- No register is one of the parameters (R282). -/
theorem writeReg_cfg (off : Nat) (v : Word) (s : State) : (writeReg off v s).cfg = s.cfg := by
  unfold writeReg
  split
  · unfold writeCmd
    split_ifs <;> rfl
  · split
    · unfold writeCtrl
      split
      · exact resetBlock_cfg s
      · rfl
    · rfl

theorem takeTurn_cfg {t : Turn} {rest : List Turn} {s s' : State} (h : takeTurn t rest s = .next s') :
    s'.cfg = s.cfg := by
  cases t with
  | host a =>
    simp only [takeTurn] at h
    split at h
    · cases h; exact blockMove_cfg true s
    · rcases hostAccess_cases h with ⟨v, rfl⟩ | ⟨off, v, rfl⟩
      · rfl
      · exact writeReg_cfg off v { s with plan := rest }
  | srcWrite a b => cases h; rfl
  | hardReset =>
    cases h
    obtain ⟨w, n, he⟩ := hardReset_eq { s with plan := rest }
    rw [he]
    exact resetBlock_cfg { s with plan := rest }
  | block ready => cases h; exact blockMove_cfg ready { s with plan := rest }

/-- Settles O20, by the cases of a step: a write that ends, a turn, a command run whole, a move of the block. -/
theorem stepKeepsParameters : Obligations.StepKeepsParameters := by
  intro s s' h
  rcases step_cases h with hw | ⟨-, t, rest, -, ht⟩ | ⟨-, -, -, i, rest, -, he⟩ | ⟨-, -, -, rfl⟩
  · obtain ⟨q, rfl⟩ := settleWaiting_some hw
    rfl
  · exact takeTurn_cfg ht
  · exact (exec_changes he).cfg_eq.trans rfl
  · exact blockMove_cfg true s

end Sys2Proof.Machine
